-- ==== Sys2Proof/Config.lean ====
section
/-! DEFINITION. What an implementation of MTFD fixes (rule R6, spec file 92_eei_decisions.md).
OBUF_CAP has no constant here: the spec takes OBUF as unbounded (D27, log entry 6). MTFD leaves no result of an
operation open, so the one free value is the parameter MAX_INLEN. -/

namespace Sys2Proof

/-- The envelope is 5 bytes: a 4-byte tag and a 1-byte seed (R6, R81). -/
def Config.envelopeBytes : Nat := 5

/-- By how much MAX_INLEN exceeds its least value 5: a parameter the model takes as an argument (D4, R6), so a constant with
no body, of which nothing is known but its range (log entry 5). -/
opaque Config.maxInlenMargin : Fin (2 ^ 31 + 1022 + 1)

/-- MAX_INLEN, the largest input length the host may present (R6, R53): any value from 5 to 2^31 + 1027, the range in which
D4 and the parameter table of 92_eei_decisions.md keep every rule valid. The spec's default 2^31 − 1 is one of them. -/
def Config.maxInlen : Nat := Config.envelopeBytes + Config.maxInlenMargin.val

/-- The frequency header is 1024 bytes, and the post-header region starts at position 1024 (R6). -/
def Config.headerBytes : Nat := 1024

end Sys2Proof
end

