-- ==== Sys2Proof/Word.lean ====
section
/-! DEFINITION. The word types of MTFD: a byte (rule R8) and a 256-entry table (rule R60). -/

namespace Sys2Proof

/-- A byte: 8 bits, unsigned (R8). Every stream byte and every table index is one (R58 (d)). -/
abbrev Byte := BitVec 8

/-- An on-chip table: exactly 256 entries, indexed by a byte value (R60). -/
abbrev Table (α : Type) := Vector α 256

end Sys2Proof
end

