-- ==== Sys2Proof/Syntax.lean ====
section
/-! DEFINITION. The 15 operations of MTFD, one constructor per row of spec/opcode_table.json (rule R90).
MTFD has no stored program (R32): an "instruction" is the operation one step executes, selected by the dispatch
word, or the host's command START. -/

namespace Sys2Proof

/-- The operations of rule R90. The only operand an operation carries is the dispatch byte B of MTFA.MOVE and of
EXP.DEMOTE (R91): every other operand is a register, a table entry or a stream byte that the operation reads. -/
inductive Instr where
  /-- START (R100): the host's command. -/
  | start
  /-- HDR.RD (R101): the header/envelope reader. -/
  | hdrRd
  /-- MTFA.KEEP (R111): Stage A, the symbol 0. -/
  | mtfaKeep
  /-- MTFA.MOVE (R112): Stage A, a symbol `c ≠ 0`. -/
  | mtfaMove (c : Byte)
  /-- A.END (R113): the stage boundary. -/
  | aEnd
  /-- CNT.LD (R126): load one frequency counter. -/
  | cntLd
  /-- LEN.CHK (R127): sum, length check, zero test. -/
  | lenChk
  /-- RANK.SEL (R128): one selection scan. -/
  | rankSel
  /-- RANK.END (R129): the end of the ranking. -/
  | rankEnd
  /-- INTRO (R131): introduce the I-th ranked symbol. -/
  | introduce
  /-- EXP.ENTER (R132): open the expansion. -/
  | expEnter
  /-- EXP.RETIRE (R152): emit VAL for the last time in its run. -/
  | expRetire
  /-- EXP.STAY (R153): emit VAL, cursor byte 0. -/
  | expStay
  /-- EXP.DEMOTE (R154): emit VAL, cursor byte `idx ≠ 0`. -/
  | expDemote (idx : Byte)
  /-- EXP.DONE (R155): the end of the decode. -/
  | expDone
  deriving DecidableEq, Repr

end Sys2Proof
end

