-- ==== Sys2Proof/WellFormed.lean ====
section
/-! DEFINITION. Which operations can be selected: the side conditions of rule R89. -/

namespace Sys2Proof

/-- R89: "MTFA.MOVE and EXP.DEMOTE carry the side condition B ≠ 0"; every other operation is well formed. -/
def Instr.wellFormed : Instr → Bool
  | .mtfaMove c => c != 0
  | .expDemote idx => idx != 0
  | .start => true
  | .hdrRd => true
  | .mtfaKeep => true
  | .aEnd => true
  | .cntLd => true
  | .lenChk => true
  | .rankSel => true
  | .rankEnd => true
  | .introduce => true
  | .expEnter => true
  | .expRetire => true
  | .expStay => true
  | .expDone => true

end Sys2Proof
end

