-- ==== Sys2Proof/Decode.lean ====
section
/-! DEFINITION. The phase codes, the 14-bit dispatch word, the operation map of rule R90, the decoder, and the
encoder written from the same map (rules R87 to R90). -/

namespace Sys2Proof

/-- The ten legal values of PHASE (R32, R88). The codes 10 to 15 are reserved and never produced, so they have no
constructor (R34). -/
inductive Phase where
  | idle | hdr | aRun | bParse | bSum | bRank | bBuild | bExpand | done | fault
  deriving DecidableEq, Repr

/-- The phase codes (R88). -/
def Phase.code : Phase → BitVec 4
  | .idle => 0
  | .hdr => 1
  | .aRun => 2
  | .bParse => 3
  | .bSum => 4
  | .bRank => 5
  | .bBuild => 6
  | .bExpand => 7
  | .done => 8
  | .fault => 9

/-- IDLE, DONE and FAULT are quiescent (R34). -/
def Phase.quiescent : Phase → Bool
  | .idle => true
  | .done => true
  | .fault => true
  | .hdr => false
  | .aRun => false
  | .bParse => false
  | .bSum => false
  | .bRank => false
  | .bBuild => false
  | .bExpand => false

/-- The dispatch word DW: PHASE in bits 13:10, F1 in bit 9, F0 in bit 8, the dispatch byte B in bits 7:0 (R87). -/
abbrev DW := BitVec 14

/-- The dispatch word of a phase, its two flags and a dispatch byte (R87). -/
def DW.form (p : Phase) (f1 f0 : Bool) (b : Byte) : DW :=
  p.code ++ BitVec.ofBool f1 ++ BitVec.ofBool f0 ++ b

/-- PHASE, bits 13:10 of a dispatch word (R87). -/
def DW.phaseCode (w : DW) : BitVec 4 := w.extractLsb' 10 4

/-- F1, bit 9 of a dispatch word (R87). -/
def DW.f1 (w : DW) : Bool := w.getLsbD 9

/-- F0, bit 8 of a dispatch word (R87). -/
def DW.f0 (w : DW) : Bool := w.getLsbD 8

/-- B, bits 7:0 of a dispatch word (R87). -/
def DW.byte (w : DW) : Byte := w.extractLsb' 0 8

/-- One row of the operation map (R90): `pattern` is its match column; `build` makes the operation from the field
B, which only MTFA.MOVE and EXP.DEMOTE use. -/
structure Row where
  pattern : DW
  mask : DW
  build : Byte → Instr

/-- A row matches when (DW AND mask) = match (R89). -/
def Row.accepts (r : Row) (w : DW) : Bool := w &&& r.mask == r.pattern

/-- The 14 rows of rule R90 that the dispatch word selects. Where two rows overlap, the one with the larger mask
stands first: it has priority (R89). -/
def rows : List Row :=
  [ ⟨0x0400, 0x3C00, fun _ => .hdrRd⟩,
    ⟨0x0900, 0x3FFF, fun _ => .mtfaKeep⟩,
    ⟨0x0900, 0x3F00, .mtfaMove⟩,
    ⟨0x0800, 0x3F00, fun _ => .aEnd⟩,
    ⟨0x0C00, 0x3C00, fun _ => .cntLd⟩,
    ⟨0x1000, 0x3C00, fun _ => .lenChk⟩,
    ⟨0x1500, 0x3D00, fun _ => .rankSel⟩,
    ⟨0x1400, 0x3D00, fun _ => .rankEnd⟩,
    ⟨0x1900, 0x3D00, fun _ => .introduce⟩,
    ⟨0x1800, 0x3D00, fun _ => .expEnter⟩,
    ⟨0x1F00, 0x3F00, fun _ => .expRetire⟩,
    ⟨0x1D00, 0x3FFF, fun _ => .expStay⟩,
    ⟨0x1D00, 0x3F00, .expDemote⟩,
    ⟨0x1C00, 0x3D00, fun _ => .expDone⟩ ]

/-- Why a word selects no operation. -/
inductive Reject where
  /-- A CTRL write with bit 0 = 0 is no command (R51). -/
  | noCommand
  /-- PHASE is IDLE, DONE or FAULT: such a word selects nothing (R89). -/
  | quiescentPhase
  /-- PHASE is one of the reserved codes 10 to 15 (R89, R92). -/
  | reservedPhase
  /-- A flag that rule R87 says is 0 is set: no row matches, and the word cannot be formed (R89). -/
  | unformable
  deriving DecidableEq, Repr

/-- The name under which a dispatch word that no row matches is rejected (R89). -/
def rejectReason (w : DW) : Reject :=
  if w.phaseCode = 0 ∨ w.phaseCode = 8 ∨ w.phaseCode = 9 then .quiescentPhase
  else if 10 ≤ w.phaseCode.toNat then .reservedPhase
  else .unformable

/-- The operation a dispatch word selects: the first row that matches (R89). -/
def decodeDispatch (w : DW) : Except Reject Instr :=
  match rows.find? (·.accepts w) with
  | some r => .ok (r.build w.byte)
  | none => .error (rejectReason w)

/-- The command a host write of CTRL gives: START when bit 0 is 1, whatever the reserved bits 7:1 are (R51, R90). -/
def decodeCtrl (data : Byte) : Except Reject Instr :=
  if data &&& 0x01 = 0x01 then .ok .start else .error .noCommand

/-- The two things that select an operation (R90): CTRL write data (format HOST), or a dispatch word. -/
inductive Selector where
  | ctrl (data : Byte)
  | dispatch (w : DW)
  deriving DecidableEq, Repr

/-- The decoder: total, and rejecting by name. -/
def decode : Selector → Except Reject Instr
  | .ctrl data => decodeCtrl data
  | .dispatch w => decodeDispatch w

/-- The match value of an operation's dispatch row, with B in place for the two rows that carry it (R90).
START has no dispatch row. -/
def Instr.dispatchWord : Instr → Option DW
  | .start => none
  | .hdrRd => some 0x0400
  | .mtfaKeep => some 0x0900
  | .mtfaMove c => some (0x0900 ||| c.setWidth 14)
  | .aEnd => some 0x0800
  | .cntLd => some 0x0C00
  | .lenChk => some 0x1000
  | .rankSel => some 0x1500
  | .rankEnd => some 0x1400
  | .introduce => some 0x1900
  | .expEnter => some 0x1800
  | .expRetire => some 0x1F00
  | .expStay => some 0x1D00
  | .expDemote idx => some (0x1D00 ||| idx.setWidth 14)
  | .expDone => some 0x1C00

/-- The bits of the dispatch word that an operation's row fixes or carries: the row's mask, with the B field added
for the two rows that carry it (R90). -/
def Instr.examinedBits : Instr → DW
  | .start => 0
  | .hdrRd => 0x3C00
  | .mtfaKeep => 0x3FFF
  | .mtfaMove _ => 0x3FFF
  | .aEnd => 0x3F00
  | .cntLd => 0x3C00
  | .lenChk => 0x3C00
  | .rankSel => 0x3D00
  | .rankEnd => 0x3D00
  | .introduce => 0x3D00
  | .expEnter => 0x3D00
  | .expRetire => 0x3F00
  | .expStay => 0x3FFF
  | .expDemote _ => 0x3FFF
  | .expDone => 0x3D00

/-- The encoder: the word that selects an operation, every bit its row does not examine being 0. -/
def encode (i : Instr) : Selector :=
  match i.dispatchWord with
  | some w => .dispatch w
  | none => .ctrl 0x01

/-- The operation the decoder reads from a row of spec/opcode_table.json: a row of at most 8 bits is CTRL write
data (START), a wider one is a dispatch word, whose bits above 13 do not exist. -/
def decodeTableWord (nbits w : Nat) : Option Instr :=
  if nbits ≤ 8 then
    if w < 2 ^ 8 then (decode (.ctrl (BitVec.ofNat 8 w))).toOption else none
  else if nbits ≤ 16 then
    if w < 2 ^ 14 then (decode (.dispatch (BitVec.ofNat 14 w))).toOption else none
  else none

end Sys2Proof
end

