-- ==== Sys2Proof/Machine/State.lean ====
section
/-! DEFINITION. The state of one MTFD instance (spec file 10_state.md), the reasons a step can stop, and the state
after hardware reset (rules R59, R215). -/

namespace Sys2Proof.Machine

/-- STATUS.STATE (R52). -/
inductive RunState where
  | idle | busy | done | fault
  deriving DecidableEq, Repr

/-- STATUS.CAUSE: no fault, or one of the four causes of TruncatedInputError (R190). The values 5 to 15 are never
produced (R52), so they have no constructor. -/
inductive Cause where
  | none | envelope | header | slot | cursor
  deriving DecidableEq, Repr

/-- One byte buffer: (address, byte) pairs with strictly rising addresses (`Memory.wf`, Machine/Ops.lean). An address
that is not listed holds no value: it was never loaded or written (R59 "unspecified"; log entry 3). -/
abbrev Memory := List Host.Cell

/-- One move of the host between two steps of the sequencer (R73, R175, R215), in the order the host makes them.
The reads of the host change no state and are the functions of Machine/HostPort.lean. -/
inductive HostEvent where
  /-- The host does nothing here: the sequencer takes the turn. -/
  | wait
  /-- A write of CTRL (CR0), R51. -/
  | writeCtrl (data : Byte)
  /-- A write of INLEN (CR2), R53. -/
  | writeInlen (v : BitVec 32)
  /-- A write of EXPLEN (CR3), R54. -/
  | writeExplen (v : BitVec 40)
  /-- A write of one byte of IBUF (R60, R73). -/
  | writeIbuf (a : BitVec 32) (b : Byte)
  /-- The reset input is asserted (R215). -/
  | reset
  deriving DecidableEq, Repr

/-- Everything the spec gives one MTFD instance, plus `host`, the model's own field. -/
structure State where
  /-- The model's own field: the host's moves still to come, the next one first (R175; log entry 1). -/
  host : List HostEvent
  /-- PHASE, in place of a program counter (R32). -/
  phase : Phase
  /-- STATUS.STATE (R52). -/
  state : RunState
  /-- STATUS.CAUSE (R52). -/
  cause : Cause
  /-- INLEN, CR2 (R53). -/
  inlen : BitVec 32
  /-- EXPLEN, CR3 (R54). -/
  explen : BitVec 40
  /-- OLEN, CR4 (R55). -/
  olen : BitVec 40
  /-- TAG, the four tag bytes in stream order (R22). -/
  tag : Vector Byte 4
  /-- SEED (R23). -/
  seed : Byte
  /-- XP, the intermediate bytes emitted so far (R24). -/
  xp : BitVec 32
  /-- J, the index of the next counter to load (R25). -/
  j : BitVec 9
  /-- TOTAL, the exact sum of the counters (R26). -/
  total : BitVec 40
  /-- K, the symbols ranked, later the symbols not yet retired (R27). -/
  k : BitVec 9
  /-- I, the next entry of the ranked order to introduce (R28). -/
  i : BitVec 9
  /-- M, the running cursor, an absolute position in XBUF (R29). -/
  m : BitVec 41
  /-- VAL, the symbol the next emitting step emits (R30). -/
  val : Byte
  /-- OP, the output bytes emitted so far (R31). -/
  op : BitVec 40
  /-- T, the MTF rank table of Stage A (R41). -/
  t : Table Byte
  /-- FREQ, the frequency table (R42). -/
  freq : Table (BitVec 32)
  /-- REM, the remaining-count table of the ranking (R43). -/
  rem : Table (BitVec 32)
  /-- ORDER, the rank order (R44). -/
  order : Table Byte
  /-- RL, the symbol rank list of Stage B (R45). -/
  rl : Table Byte
  /-- CS, the cursor starts (R46). -/
  cs : Table (BitVec 41)
  /-- CE, the cursor ends (R46). -/
  ce : Table (BitVec 41)
  /-- IBUF, the compressed input (R47). -/
  ibuf : Memory
  /-- XBUF, the intermediate sequence (R48). -/
  xbuf : Memory
  /-- OBUF, the output (R49). -/
  obuf : Memory
  deriving DecidableEq, Repr

/-- The stops of the model that are no outcome of the spec. TruncatedInputError is not among them: it is a next
state (R195). Each of these arises only in a state that no decode reaches, where a rule asks for an access that
rule R62 or R58 (d) leaves undefined; each is safe, since the model stops there and proves nothing further. -/
inductive Fault where
  /-- Raised by a read of IBUF at an address ≥ INLEN (R62: "not defined"); no operation asks for one. Safe. -/
  | outsideIbuf
  /-- Raised by CNT.LD, INTRO, MTFA.KEEP and MTFA.MOVE on an access of XBUF at an address ≥ XLEN for which their rules
  name no cause (R62: "not defined"). Safe. -/
  | outsideXbuf
  /-- Raised by a read of an XBUF byte below XLEN that Stage A has not written in this decode (R59: "treat a read of such
  a value before it is written as a fault of the model"). Safe. -/
  | xbufUnwritten
  /-- Raised by EXP.RETIRE, EXP.STAY and EXP.DEMOTE on a write of OBUF at an address ≥ TOTAL (R60, R62). Safe. -/
  | outsideObuf
  /-- Raised by the host's read of an OBUF byte below OLEN that was not written in this decode (R59). Safe. -/
  | obufUnwritten
  /-- Raised by CNT.LD, RANK.SEL, INTRO and EXP.RETIRE when J, K or I would index a table beyond entry 255 (R58 (d): "Every
  index used … is in 0..255"). Safe. -/
  | tableIndex
  /-- Raised by the step when a formed dispatch word matches no row of rule R90; R89 says there is none. Safe. -/
  | illegalDispatch
  deriving DecidableEq, Repr

/-- The refusals: what the spec tells a model to refuse, because it lies in the host's duties (R175, U7, U8). -/
inductive Refusal where
  /-- An operation with no meaning yet; raised by no arm of this model. Safe. -/
  | notModelled (mnemonic : String)
  /-- Raised by HDR.RD and the symbol fetch when an IBUF byte below INLEN was not loaded: INLEN exceeds the bytes the host
  loaded (U8: `refuse`). Safe. -/
  | inputNotLoaded
  /-- Raised by a host write of INLEN above MAX_INLEN (R53, U8: `refuse`). Safe. -/
  | inlenTooLarge
  /-- Raised by a host write to an IBUF address that no admitted INLEN reaches (R60). Safe. -/
  | ibufAddress
  /-- Raised by a host write to IBUF while BUSY (R73, U7: `refuse`). Safe. -/
  | ibufWriteWhileBusy
  /-- Raised by a host read outside the windows of rule R73. Safe. -/
  | hostReadWindow
  deriving DecidableEq, Repr

/-- The state right after hardware reset: PHASE = IDLE, STATUS = 0x00, OLEN = INLEN = EXPLEN = 0 (R59, R215). The spec
leaves everything else unspecified there: the registers and tables are zero (DESIGN CHOICE, log entry 2), no buffer byte is
listed (log entry 3), and the host has no move pending (log entry 1). -/
def State.reset : State where
  host := []
  phase := .idle
  state := .idle
  cause := .none
  inlen := 0
  explen := 0
  olen := 0
  tag := Vector.replicate 4 0
  seed := 0
  xp := 0
  j := 0
  total := 0
  k := 0
  i := 0
  m := 0
  val := 0
  op := 0
  t := Vector.replicate 256 0
  freq := Vector.replicate 256 0
  rem := Vector.replicate 256 0
  order := Vector.replicate 256 0
  rl := Vector.replicate 256 0
  cs := Vector.replicate 256 0
  ce := Vector.replicate 256 0
  ibuf := []
  xbuf := []
  obuf := []

end Sys2Proof.Machine
end

