-- ==== Sys2Proof/Machine/Ops.lean ====
section
/-! DEFINITION. The named operations over tables, buffers and registers (rules R9, R62, R219, R220), taking the one
exception of MTFD (R195), ending a decode without one (R9 `finish`), and the per-decode initialisation, which is the only
way out of FAULT (R201, R216). -/

namespace Sys2Proof

/-- `Tab[b]` (R9). -/
def Table.entry {α : Type} (t : Table α) (b : Byte) : α := t[b.toNat]'b.isLt

/-- `Tab[b] <- v` (R9). -/
def Table.setEntry {α : Type} (t : Table α) (b : Byte) (v : α) : Table α := t.set b.toNat v b.isLt

/-- The table whose entry b is `f b`. -/
def Table.tabulate {α : Type} (f : Byte → α) : Table α :=
  ⟨⟨(List.range 256).map fun n => f (BitVec.ofNat 8 n)⟩, by simp⟩

/-- The identity table, entry i = i (R41, R45). -/
def Table.identity : Table Byte := Table.tabulate fun b => b

/-- The table of zeros (R100). -/
def Table.zero {w : Nat} : Table (BitVec w) := Vector.replicate 256 0

end Sys2Proof

namespace Sys2Proof.Machine

/-- The result of an access or of an operation: a value, a model fault, or a refusal. -/
abbrev Access (α : Type) := Host.Outcome α Fault Refusal

/-- Go on with the value of an access; a fault or a refusal ends the operation. -/
def andThen {α β : Type} (x : Access α) (f : α → Access β) : Access β :=
  match x with
  | .next a => f a
  | .fault r => .fault r
  | .refused r => .refused r

/-! ### Buffers (R60 to R65) -/

/-- The byte at an address; none where nothing was loaded or written. -/
def Memory.read : Memory → Nat → Option Byte
  | [], _ => none
  | (b, v) :: rest, a => if a = b then some v else Memory.read rest a

/-- Store one byte, keeping the addresses strictly rising. -/
def Memory.write : Memory → Nat → Byte → Memory
  | [], a, v => [(a, v)]
  | (b, w) :: rest, a, v =>
    if a < b then (a, v) :: (b, w) :: rest
    else if a = b then (a, v) :: rest
    else (b, w) :: Memory.write rest a v

/-- The canonical form: addresses strictly rising. An unlisted address holds no value, so no listed entry equals what
an unlisted address reads as. -/
abbrev Memory.wf (m : Memory) : Prop := (m.map Prod.fst).Pairwise (· < ·)

/-- XLEN = INLEN − 4, the length of XBUF (R48, R53); meant only when INLEN ≥ 5. -/
def State.xlen (s : State) : Nat := s.inlen.toNat - 4

/-- `MemRead(IBUF, a, 1)` (R62). A byte below INLEN that the host did not load is refused (U8). -/
def readIbuf (s : State) (a : Nat) : Access Byte :=
  if a < s.inlen.toNat then
    match s.ibuf.read a with
    | some b => .next b
    | none => .refused .inputNotLoaded
  else .fault .outsideIbuf

/-- `MemRead(XBUF, a, 1)` (R62). -/
def readXbuf (s : State) (a : Nat) : Access Byte :=
  if a < s.xlen then
    match s.xbuf.read a with
    | some b => .next b
    | none => .fault .xbufUnwritten
  else .fault .outsideXbuf

/-- LE32 (R11): four bytes, the first least significant. -/
def le32 (b0 b1 b2 b3 : Byte) : BitVec 32 := b3 ++ b2 ++ b1 ++ b0

/-- `MemRead(XBUF, a, 4)`, little-endian (R61, R62). -/
def readXbuf32 (s : State) (a : Nat) : Access (BitVec 32) :=
  andThen (readXbuf s a) fun b0 =>
  andThen (readXbuf s (a + 1)) fun b1 =>
  andThen (readXbuf s (a + 2)) fun b2 =>
  andThen (readXbuf s (a + 3)) fun b3 => .next (le32 b0 b1 b2 b3)

/-- `MemWrite(XBUF, XP, 1, v) ; XP <- XP + 1`: Stage A emits one byte (R111, R112). -/
def emitIntermediate (v : Byte) (s : State) : Access State :=
  if s.xp.toNat < s.xlen then
    .next { s with xbuf := s.xbuf.write s.xp.toNat v, xp := s.xp + 1 }
  else .fault .outsideXbuf

/-- `MemWrite(OBUF, OP, 1, v) ; OP <- OP + 1`: the expansion emits one byte (R152 to R154). -/
def emitOutput (v : Byte) (s : State) : Access State :=
  if s.op.toNat < s.total.toNat then
    .next { s with obuf := s.obuf.write s.op.toNat v, op := s.op + 1 }
  else .fault .outsideObuf

/-! ### Tables -/

/-- The byte that a 9-bit register gives as a table index; none beyond 255 (R58 (d)). -/
def tableIndex (r : BitVec 9) : Option Byte :=
  if r.toNat < 256 then some (r.setWidth 8) else none

/-- The loop "for k = c downto 1: T[k] <- T[k-1]" (R112), k descending (R219). -/
def shiftDown (t : Table Byte) : Nat → Table Byte
  | 0 => t
  | k + 1 =>
    shiftDown (t.setEntry (BitVec.ofNat 8 (k + 1)) (t.entry (BitVec.ofNat 8 k))) k

/-- Stage A's table step: v <- T[c]; shift T[0..c−1] one rank down; T[0] <- v (R110, R112). -/
def moveToFront (t : Table Byte) (c : Byte) : Table Byte :=
  (shiftDown t c.toNat).setEntry 0 (t.entry c)

/-- The loop "for p = p0 to p0+n−1: RL[p] <- RL[p+1]", p ascending (R150, R220). -/
def shiftUpFrom (rl : Table Byte) (p : Nat) : Nat → Table Byte
  | 0 => rl
  | n + 1 =>
    shiftUpFrom (rl.setEntry (BitVec.ofNat 8 p) (rl.entry (BitVec.ofNat 8 (p + 1)))) (p + 1) n

/-- SHL(m) (R150): the entries 1..m move one position left, entry m stays and is duplicated at m−1. -/
def shl (rl : Table Byte) (m : Byte) : Table Byte := shiftUpFrom rl 0 m.toNat

/-- The exact sum of the counters; 40 bits hold it (R26, R127). -/
def sumCounters (f : Table (BitVec 32)) : BitVec 40 :=
  f.toList.foldl (fun acc c => acc + c.setWidth 40) 0

/-- max(REM[0], ..., REM[255]) (R128). -/
def maxCounter (rem : Table (BitVec 32)) : BitVec 32 :=
  rem.toList.foldl (fun mx c => if mx < c then c else mx) 0

/-- min { j : REM[j] = max } (R128): ties go to the smaller symbol (R227). -/
def selectSymbol (rem : Table (BitVec 32)) : Byte :=
  BitVec.ofNat 8 (rem.toList.findIdx (· == maxCounter rem))

/-! ### The exception, the other end of a decode, and the way out -/

/-- Fault entry, `raise TruncatedInput(c)` (R195). Nothing is saved, no vector is fetched; all other state keeps its
value. -/
def raiseTruncated (c : Cause) (s : State) : State :=
  { s with olen := 0, cause := c, state := .fault, phase := .fault }

/-- `finish(n)` (R9): OLEN <- n; STATUS.STATE <- DONE; PHASE <- DONE. -/
def finish (n : BitVec 40) (s : State) : State :=
  { s with olen := n, state := .done, phase := .done }

/-- The per-decode initialisation (R100, R216). It is also the only return from FAULT: MTFD has no return-from-exception
operation and resumes nothing (R201). INLEN, EXPLEN and IBUF stay; the old contents of XBUF and OBUF become unspecified, so
no byte of them is listed (R59, log entry 3). -/
def perDecodeInit (s : State) : State :=
  { s with
    state := .busy, cause := .none, olen := 0
    tag := Vector.replicate 4 0, seed := 0
    xp := 0, j := 0, i := 0, k := 0, m := 0, total := 0, op := 0, val := 0
    t := Table.identity, rl := Table.identity
    freq := Table.zero, rem := Table.zero, order := Table.zero
    cs := Table.zero, ce := Table.zero
    xbuf := [], obuf := []
    phase := .hdr }

end Sys2Proof.Machine
end

