-- ==== Sys2Proof/Machine/Flags.lean ====
section
/-! DEFINITION. The condition flags: combinational functions of the state (rules R35 to R40). MTFD stores none. -/

namespace Sys2Proof.Machine

/-- A_MORE: a symbol remains to be processed (R36). -/
def aMore (s : State) : Bool := s.xp.toNat < s.xlen

/-- ANY: some REM[j] ≠ 0 (R37). -/
def anyRemaining (s : State) : Bool := s.rem.toList.any (· != 0)

/-- B_MORE: I < K (R38). -/
def bMore (s : State) : Bool := s.i < s.k

/-- E_MORE: OP < TOTAL (R39). -/
def eMore (s : State) : Bool := s.op < s.total

/-- CS[VAL] ≥ CE[VAL], unsigned (R40). -/
def valExhausted (s : State) : Bool := s.ce.entry s.val ≤ s.cs.entry s.val

/-- X: an output byte is due and VAL's cursor is exhausted (R40). -/
def exhausted (s : State) : Bool := eMore s && valExhausted s

/-- F0 of the dispatch word (R87): 0 in a phase that defines none. -/
def flag0 (s : State) : Bool :=
  match s.phase with
  | .aRun => aMore s
  | .bRank => anyRemaining s
  | .bBuild => bMore s
  | .bExpand => eMore s
  | .idle => false
  | .hdr => false
  | .bParse => false
  | .bSum => false
  | .done => false
  | .fault => false

/-- F1 of the dispatch word: X in B_EXPAND, 0 in every other phase (R40, R87). -/
def flag1 (s : State) : Bool :=
  match s.phase with
  | .bExpand => exhausted s
  | .idle => false
  | .hdr => false
  | .aRun => false
  | .bParse => false
  | .bSum => false
  | .bRank => false
  | .bBuild => false
  | .done => false
  | .fault => false

end Sys2Proof.Machine
end

