-- ==== Sys2Proof/Machine/Operands.lean ====
section
/-! DEFINITION. The operands that come from a stream (rules R80 to R87, R91, R114, R151): each is a whole byte,
zero-extended, but for a frequency counter, which is four bytes. -/

namespace Sys2Proof.Machine

/-- ENV: the four tag bytes and the seed, read as five single bytes of IBUF (R64, R81). -/
def readEnvelope (s : State) : Access (Vector Byte 4 × Byte) :=
  andThen (readIbuf s 0) fun t0 =>
  andThen (readIbuf s 1) fun t1 =>
  andThen (readIbuf s 2) fun t2 =>
  andThen (readIbuf s 3) fun t3 =>
  andThen (readIbuf s 4) fun seed => .next (#v[t0, t1, t2, t3], seed)

/-- SYM: the current symbol, SEED when XP = 0 and IBUF[4 + XP] otherwise (R87, R114). -/
def currentSymbol (s : State) : Access Byte :=
  if s.xp = 0 then .next s.seed else readIbuf s (4 + s.xp.toNat)

/-- CNT: the J-th frequency counter (R83). -/
def readCounter (s : State) : Access (BitVec 32) := readXbuf32 s (4 * s.j.toNat)

/-- SLOT: the introduction byte at M (R84); called only when M < XLEN. -/
def readSlot (s : State) : Access Byte := readXbuf s s.m.toNat

/-- IDX: the cursor byte at CS[VAL], or cause 4 when its position is not inside XBUF (R85, R151). -/
def readCursor (s : State) : Access (Except Cause Byte) :=
  if s.xlen ≤ (s.cs.entry s.val).toNat then .next (.error .cursor)
  else andThen (readXbuf s (s.cs.entry s.val).toNat) fun b => .next (.ok b)

/-- The dispatch byte B (R87): the current symbol in A_RUN with A_MORE, the cursor byte in B_EXPAND with E_MORE and not
X, and 0 with no buffer read in every other case. -/
def dispatchByte (s : State) : Access (Except Cause Byte) :=
  match s.phase with
  | .aRun => if aMore s then andThen (currentSymbol s) fun c => .next (.ok c) else .next (.ok 0)
  | .bExpand => if eMore s && !valExhausted s then readCursor s else .next (.ok 0)
  | .idle => .next (.ok 0)
  | .hdr => .next (.ok 0)
  | .bParse => .next (.ok 0)
  | .bSum => .next (.ok 0)
  | .bRank => .next (.ok 0)
  | .bBuild => .next (.ok 0)
  | .done => .next (.ok 0)
  | .fault => .next (.ok 0)

end Sys2Proof.Machine
end

