-- ==== Sys2Proof/Machine/Envelope.lean ====
section
/-! DEFINITION. START and the header/envelope reader (spec file 40_envelope.md). -/

namespace Sys2Proof.Machine

/-- START (R100): no effect while BUSY; otherwise the per-decode initialisation. -/
def execStart (s : State) : Access State :=
  if s.state = .busy then .next s else .next (perDecodeInit s)

/-- HDR.RD (R101): cause 1 when INLEN < 5, before any byte is read; else the tag and the seed. -/
def execHdrRd (s : State) : Access State :=
  if s.inlen.toNat < Config.envelopeBytes then .next (raiseTruncated .envelope s)
  else andThen (readEnvelope s) fun e =>
    .next { s with tag := e.1, seed := e.2, xp := 0, phase := .aRun }

end Sys2Proof.Machine
end

