-- ==== Sys2Proof/Machine/StageA.lean ====
section
/-! DEFINITION. Stage A, the MTF rank decoder (spec file 41_stage_a_mtf.md). -/

namespace Sys2Proof.Machine

/-- MTFA.KEEP (R111): emit T[0]; T[0] <- v changes nothing. -/
def execMtfaKeep (s : State) : Access State :=
  emitIntermediate (s.t.entry 0) { s with t := s.t.setEntry 0 (s.t.entry 0) }

/-- MTFA.MOVE (R112): emit T[c] and move it to rank 0. -/
def execMtfaMove (c : Byte) (s : State) : Access State :=
  emitIntermediate (s.t.entry c) { s with t := moveToFront s.t c }

/-- A.END (R113): cause 2 when XLEN < 1024; else Stage B opens. -/
def execAEnd (s : State) : Access State :=
  if s.xlen < Config.headerBytes then .next (raiseTruncated .header s)
  else .next { s with j := 0, phase := .bParse }

end Sys2Proof.Machine
end

