-- ==== Sys2Proof/Machine/StageBExpand.lean ====
section
/-! DEFINITION. Stage B, step 4: the expansion (spec file 43_stage_b_expand.md). -/

namespace Sys2Proof.Machine

/-- EXP.RETIRE (R152): emit VAL; K <- K − 1, staying at 0; if the decremented K > 0, SHL(K) and VAL <- RL[0] (R223). -/
def execExpRetire (s : State) : Access State :=
  andThen (emitOutput s.val s) fun s =>
    let k := if s.k = 0 then 0 else s.k - 1
    if k = 0 then .next { s with k := k }
    else
      match tableIndex k with
      | none => .fault .tableIndex
      | some count =>
        let rl := shl s.rl count
        .next { s with k := k, rl := rl, val := rl.entry 0 }

/-- EXP.STAY (R153): emit VAL and consume one cursor byte. -/
def execExpStay (s : State) : Access State :=
  andThen (emitOutput s.val s) fun s =>
    .next { s with cs := s.cs.setEntry s.val (s.cs.entry s.val + 1) }

/-- EXP.DEMOTE (R154): emit VAL, consume one cursor byte of the old VAL, SHL(idx), store the old VAL at idx after the
shift, and take the new front last (R221, R222). -/
def execExpDemote (idx : Byte) (s : State) : Access State :=
  let old := s.val
  andThen (emitOutput old s) fun s =>
    let rl := (shl s.rl idx).setEntry idx old
    .next { s with
      cs := s.cs.setEntry old (s.cs.entry old + 1)
      rl := rl
      val := rl.entry 0 }

/-- EXP.DONE (R155): finish(TOTAL). -/
def execExpDone (s : State) : Access State := .next (finish s.total s)

end Sys2Proof.Machine
end

