-- ==== Sys2Proof/Machine/StageBSetup.lean ====
section
/-! DEFINITION. Stage B, steps 1 to 3: counters, length check, ranking, introductions (spec file 42_stage_b_setup.md). -/

namespace Sys2Proof.Machine

/-- CNT.LD (R126): FREQ[J] <- the little-endian counter at 4·J; J <- J + 1; B_SUM after the 256th. -/
def execCntLd (s : State) : Access State :=
  match tableIndex s.j with
  | none => .fault .tableIndex
  | some j =>
    andThen (readCounter s) fun f =>
      .next { s with
        freq := s.freq.setEntry j f
        j := s.j + 1
        phase := if s.j + 1 = 256 then .bSum else s.phase }

/-- LEN.CHK (R127): the exact sum; an empty end on a mismatch or on a zero total; else the ranking is prepared. -/
def execLenChk (s : State) : Access State :=
  let total := sumCounters s.freq
  let s := { s with total := total }
  if s.explen ≠ 0 ∧ s.explen ≠ total then .next (finish 0 s)
  else if total = 0 then .next (finish 0 s)
  else .next { s with rem := s.freq, k := 0, phase := .bRank }

/-- RANK.SEL (R128): append the symbol of the largest remaining counter, the smallest index on ties, and zero its
counter in REM. -/
def execRankSel (s : State) : Access State :=
  match tableIndex s.k with
  | none => .fault .tableIndex
  | some k =>
    let sym := selectSymbol s.rem
    .next { s with
      order := s.order.setEntry k sym
      rem := s.rem.setEntry sym 0
      k := s.k + 1 }

/-- RANK.END (R129). -/
def execRankEnd (s : State) : Access State :=
  .next { s with i := 0, m := BitVec.ofNat 41 Config.headerBytes, phase := .bBuild }

/-- INTRO (R131): cause 3 when M is not inside XBUF, before anything is done; else RL[b] <- s, CS[s] <- old M + 1,
M <- M + f, CE[s] <- new M (R224), with f the original counter. -/
def execIntroduce (s : State) : Access State :=
  match tableIndex s.i with
  | none => .fault .tableIndex
  | some i =>
    let sym := s.order.entry i
    let f := s.freq.entry sym
    if s.xlen ≤ s.m.toNat then .next (raiseTruncated .slot s)
    else andThen (readSlot s) fun b =>
      .next { s with
        rl := s.rl.setEntry b sym
        cs := s.cs.setEntry sym (s.m + 1)
        m := s.m + f.setWidth 41
        ce := s.ce.setEntry sym (s.m + f.setWidth 41)
        i := s.i + 1 }

/-- EXP.ENTER (R132). -/
def execExpEnter (s : State) : Access State :=
  .next { s with val := s.rl.entry 0, op := 0, phase := .bExpand }

end Sys2Proof.Machine
end

