-- ==== Sys2Proof/Machine/Dispatch.lean ====
section
/-! DEFINITION. What each operation does: one arm per constructor of Instr, in the order of rule R90. -/

namespace Sys2Proof.Machine

def exec (i : Instr) (s : State) : Host.Outcome State Fault Refusal :=
  match i with
  | .start => Sys2Proof.Machine.execStart s
  | .hdrRd => Sys2Proof.Machine.execHdrRd s
  | .mtfaKeep => Sys2Proof.Machine.execMtfaKeep s
  | .mtfaMove c => Sys2Proof.Machine.execMtfaMove c s
  | .aEnd => Sys2Proof.Machine.execAEnd s
  | .cntLd => Sys2Proof.Machine.execCntLd s
  | .lenChk => Sys2Proof.Machine.execLenChk s
  | .rankSel => Sys2Proof.Machine.execRankSel s
  | .rankEnd => Sys2Proof.Machine.execRankEnd s
  | .introduce => Sys2Proof.Machine.execIntroduce s
  | .expEnter => Sys2Proof.Machine.execExpEnter s
  | .expRetire => Sys2Proof.Machine.execExpRetire s
  | .expStay => Sys2Proof.Machine.execExpStay s
  | .expDemote idx => Sys2Proof.Machine.execExpDemote idx s
  | .expDone => Sys2Proof.Machine.execExpDone s

end Sys2Proof.Machine
end

