-- ==== Sys2Proof/Machine/HostPort.lean ====
section
/-! DEFINITION. The host's side of MTFD: the registers CR0 to CR5, the windows of rule R73, and the host contract of
rule R175. Writes are moves of `State.host`; reads are functions, since they change no state (R65). -/

namespace Sys2Proof.Machine

/-- The codes of STATUS.STATE (R52). -/
def RunState.code : RunState → BitVec 2
  | .idle => 0
  | .busy => 1
  | .done => 2
  | .fault => 3

/-- The codes of STATUS.CAUSE (R52, R190). -/
def Cause.code : Cause → BitVec 4
  | .none => 0
  | .envelope => 1
  | .header => 2
  | .slot => 3
  | .cursor => 4

/-- STATUS (CR1): CAUSE in bits 7:4, bits 3:2 read as 0, STATE in bits 1:0 (R52). -/
def State.statusWord (s : State) : BitVec 8 := s.cause.code ++ 0#2 ++ s.state.code

/-- TAG (CR5): TAG[i] in bits 8i+7:8i (R56). -/
def State.tagWord (s : State) : BitVec 32 := s.tag[3] ++ s.tag[2] ++ s.tag[1] ++ s.tag[0]

/-- The six host registers CR0 to CR5 (R50). -/
inductive HostReg where
  | ctrl | status | inlen | explen | olen | tag
  deriving DecidableEq, Repr

/-- What a host read of a register gives, widened to the widest register's 40 bits (R50, R73): STATUS at any time, the
others while not BUSY; CTRL reads as 0. -/
def hostRead (r : HostReg) (s : State) : Access (BitVec 40) :=
  match r with
  | .status => .next (s.statusWord.setWidth 40)
  | .ctrl => if s.state = .busy then .refused .hostReadWindow else .next 0
  | .inlen => if s.state = .busy then .refused .hostReadWindow else .next (s.inlen.setWidth 40)
  | .explen => if s.state = .busy then .refused .hostReadWindow else .next s.explen
  | .olen => if s.state = .busy then .refused .hostReadWindow else .next s.olen
  | .tag => if s.state = .busy then .refused .hostReadWindow else .next (s.tagWord.setWidth 40)

/-- A host read of OBUF: only OBUF[0, OLEN), and only when STATE = DONE (R49, R73). -/
def hostReadObuf (a : Nat) (s : State) : Access Byte :=
  if s.state = .done ∧ a < s.olen.toNat then
    match s.obuf.read a with
    | some b => .next b
    | none => .fault .obufUnwritten
  else .refused .hostReadWindow

/-- Hardware reset (R215): PHASE, STATUS, OLEN, INLEN and EXPLEN as stated, everything else unspecified and therefore as
in `State.reset` (log entries 2, 3). The host's later moves are still to come. -/
def hardwareReset (s : State) : State := { State.reset with host := s.host }

/-- A host write of INLEN: ignored while BUSY, refused above MAX_INLEN (R53, U8). -/
def hostWriteInlen (v : BitVec 32) (s : State) : Access State :=
  if s.state = .busy then .next s
  else if Config.maxInlen < v.toNat then .refused .inlenTooLarge
  else .next { s with inlen := v }

/-- A host write of EXPLEN: ignored while BUSY (R54). -/
def hostWriteExplen (v : BitVec 40) (s : State) : Access State :=
  if s.state = .busy then .next s else .next { s with explen := v }

/-- A host write of one IBUF byte: refused while BUSY (R73, U7), and at an address no admitted INLEN reaches (R60). -/
def hostWriteIbuf (a : BitVec 32) (b : Byte) (s : State) : Access State :=
  if s.state = .busy then .refused .ibufWriteWhileBusy
  else if Config.maxInlen ≤ a.toNat then .refused .ibufAddress
  else .next { s with ibuf := s.ibuf.write a.toNat b }

end Sys2Proof.Machine
end

