-- ==== Sys2Proof/Machine/Fetch.lean ====
section
/-! DEFINITION. What the next step is: the host's next move, or the operation that the dispatch word selects
(rules R32, R34, R51, R87, R89, R151). -/

namespace Sys2Proof.Machine

/-- The next step before it is taken: an operation on a state, or an outcome that no operation makes. -/
inductive Turn where
  | run (i : Instr) (s : State)
  | settle (o : Access State)
  deriving Repr

/-- The sequencer's turn. In a quiescent phase it has no step and nothing changes (R34, log entry 4). Otherwise it forms
the dispatch word and selects the operation (R87, R89); when the cursor byte's address is not inside XBUF the word cannot be
formed and the fault is taken instead (R151). -/
def sequencerTurn (s : State) : Turn :=
  if s.phase.quiescent then .settle (.next s)
  else
    match dispatchByte s with
    | .next (.ok b) =>
      match decodeDispatch (DW.form s.phase (flag1 s) (flag0 s) b) with
      | .ok i => .run i s
      | .error _ => .settle (.fault .illegalDispatch)
    | .next (.error c) => .settle (.next (raiseTruncated c s))
    | .fault r => .settle (.fault r)
    | .refused r => .settle (.refused r)

/-- One move of the host on a state from which it has been taken (R51, R53, R54, R73, R215). A CTRL write with bit 0 = 0
does nothing (R51). -/
def hostTurn (e : HostEvent) (s : State) : Turn :=
  match e with
  | .wait => sequencerTurn s
  | .writeCtrl data =>
    match decodeCtrl data with
    | .ok i => .run i s
    | .error _ => .settle (.next s)
  | .writeInlen v => .settle (hostWriteInlen v s)
  | .writeExplen v => .settle (hostWriteExplen v s)
  | .writeIbuf a b => .settle (hostWriteIbuf a b s)
  | .reset => .settle (.next (hardwareReset s))

/-- The next step: the host's next move if it has one, else the sequencer's turn. -/
def nextTurn (s : State) : Turn :=
  match s.host with
  | [] => sequencerTurn s
  | e :: rest => hostTurn e { s with host := rest }

/-- The host moves of the boot sequence (R218): the bytes of the input at 0, 1, …, then INLEN, EXPLEN and CTRL = 0x01. -/
def loadAndStart (input : List Byte) (explen : BitVec 40) : List HostEvent :=
  (input.zipIdx.map fun p => HostEvent.writeIbuf (BitVec.ofNat 32 p.2) p.1)
    ++ [.writeInlen (BitVec.ofNat 32 input.length), .writeExplen explen, .writeCtrl 0x01]

/-- Set a state up so that the sequencer's next turn selects the operation (log entry 7): the phase, the counters and
table entries its flags are computed from, and zeros for the stream bytes it reads. -/
def placeOperation (i : Instr) (s : State) : State :=
  let s := { s with state := .busy }
  match i with
  | .start => { s with phase := .idle, state := .idle }
  | .hdrRd => { s with phase := .hdr, inlen := 5, ibuf := [(0, 0), (1, 0), (2, 0), (3, 0), (4, 0)] }
  | .mtfaKeep => { s with phase := .aRun, inlen := 5, xp := 0, seed := 0 }
  | .mtfaMove c => { s with phase := .aRun, inlen := 5, xp := 0, seed := c }
  | .aEnd => { s with phase := .aRun, inlen := 1028, xp := 1024 }
  | .cntLd => { s with phase := .bParse, inlen := 1028, j := 0, xbuf := [(0, 0), (1, 0), (2, 0), (3, 0)] }
  | .lenChk => { s with phase := .bSum }
  | .rankSel => { s with phase := .bRank, k := 0, rem := s.rem.setEntry 0 1 }
  | .rankEnd => { s with phase := .bRank, rem := Table.zero }
  | .introduce => { s with phase := .bBuild, i := 0, k := 1, m := 1024, inlen := 1029, xbuf := [(1024, 0)] }
  | .expEnter => { s with phase := .bBuild, i := 0, k := 0 }
  | .expRetire =>
    { s with phase := .bExpand, op := 0, total := 1, k := 1
             cs := s.cs.setEntry s.val 0, ce := s.ce.setEntry s.val 0 }
  | .expStay =>
    { s with phase := .bExpand, op := 0, total := 1, inlen := 5, xbuf := [(0, 0)]
             cs := s.cs.setEntry s.val 0, ce := s.ce.setEntry s.val 1 }
  | .expDemote idx =>
    { s with phase := .bExpand, op := 0, total := 1, inlen := 5, xbuf := [(0, idx)]
             cs := s.cs.setEntry s.val 0, ce := s.ce.setEntry s.val 1 }
  | .expDone => { s with phase := .bExpand, op := 0, total := 0 }

/-- The host move that gives the next step to the operation: a write of CTRL for START, else none but the sequencer's
turn. `ctrl` is the data written. -/
def placeTurn (i : Instr) (ctrl : Byte) : HostEvent :=
  match i with
  | .start => .writeCtrl ctrl
  | .hdrRd => .wait
  | .mtfaKeep => .wait
  | .mtfaMove _ => .wait
  | .aEnd => .wait
  | .cntLd => .wait
  | .lenChk => .wait
  | .rankSel => .wait
  | .rankEnd => .wait
  | .introduce => .wait
  | .expEnter => .wait
  | .expRetire => .wait
  | .expStay => .wait
  | .expDemote _ => .wait
  | .expDone => .wait

end Sys2Proof.Machine
end

