-- ==== Sys2Proof/Machine/Step.lean ====
section
/-! DEFINITION. One step of MTFD: the host's next move, or one operation of the sequencer, as one atomic change of state
(rules R32, R65, R229). -/

namespace Sys2Proof.Machine

/-- Take a turn: run the selected operation, or settle on the outcome that no operation makes. -/
def takeTurn (turn : Turn) : Host.Outcome State Fault Refusal :=
  match turn with
  | .run i s => exec i s
  | .settle o => o

/-- One step of the sequencer, whatever moves the host has pending (R32, R87). -/
def sequencerStep (s : State) : Host.Outcome State Fault Refusal := takeTurn (sequencerTurn s)

/-- One step: the host's next move if it has one, else a step of the sequencer. -/
def step (s : State) : Host.Outcome State Fault Refusal := takeTurn (nextTurn s)

/-- The state in which the very next step runs the operation of a table word (log entry 7). -/
def State.withFetchWord (s : State) (nbits w : Nat) : State :=
  match decodeTableWord nbits w with
  | none => s
  | some i => { placeOperation i s with host := placeTurn i (BitVec.ofNat 8 w) :: s.host }

end Sys2Proof.Machine
end

