-- ==== Sys2Proof/Machine/Functional.lean ====
section
/-! DEFINITION. The functional view of the decode (rules R10, R110, R125, R158, R171): a total function from an input to
a result, with positions, lengths and sums as mathematical naturals (R6). It shares the two table shifts and the selection
scan with the step machine and nothing else. -/

namespace Sys2Proof.Machine.Functional

/-- The result of a decode (R171); `Empty` is `data []`. -/
inductive Result where
  | data (bytes : List Byte)
  | fault (c : Cause)
  deriving DecidableEq, Repr

/-- Stage A from a given rank table (R110). -/
def stageAFrom (t : Table Byte) : List Byte → List Byte
  | [] => []
  | c :: rest => t.entry c :: stageAFrom (moveToFront t c) rest

/-- Stage A: the intermediate sequence of a symbol sequence (R110). -/
def stageA (symbols : List Byte) : List Byte := stageAFrom Table.identity symbols

/-- The rank at which a byte stands in a rank table. -/
def rankOf (t : Table Byte) (x : Byte) : Byte := BitVec.ofNat 8 (t.toList.findIdx (· == x))

/-- The forward move-to-front transform from a given list: each symbol's current rank, then the symbol is promoted to
rank 0 (R116 and the source's glossary). -/
def mtfEncodeFrom (t : Table Byte) : List Byte → List Byte
  | [] => []
  | x :: rest => rankOf t x :: mtfEncodeFrom (moveToFront t (rankOf t x)) rest

/-- The forward move-to-front transform from the identity list (R116). -/
def mtfEncode (xs : List Byte) : List Byte := mtfEncodeFrom Table.identity xs

/-- Step 1: the 256 counters of the frequency header (R125); used when the header is there. -/
def counters (x : List Byte) : Table (BitVec 32) :=
  Table.tabulate fun j =>
    le32 (x.getD (4 * j.toNat) 0) (x.getD (4 * j.toNat + 1) 0)
      (x.getD (4 * j.toNat + 2) 0) (x.getD (4 * j.toNat + 3) 0)

/-- Step 1: the exact sum (R125). -/
def total (freq : Table (BitVec 32)) : Nat := (freq.toList.map BitVec.toNat).sum

/-- Step 2: at most `n` selection scans (R125): the ranked order of the symbols whose counter is not 0. -/
def rankUpTo : Nat → Table (BitVec 32) → List Byte
  | 0, _ => []
  | n + 1, rem =>
    if rem.toList.all (· == 0) then []
    else selectSymbol rem :: rankUpTo n (rem.setEntry (selectSymbol rem) 0)

/-- Step 2: the ranked order; 256 scans always suffice (R128). -/
def ranked (freq : Table (BitVec 32)) : List Byte := rankUpTo 256 freq

/-- The rank list, the cursor table and the running cursor of step 3 (R125). -/
structure Intro where
  rl : Table Byte
  cs : Table Nat
  ce : Table Nat
  m : Nat

/-- Step 3: the introductions in ranked order; none is cause 3 (R125). -/
def introduceAll (x : List Byte) (freq : Table (BitVec 32)) : List Byte → Intro → Option Intro
  | [], st => some st
  | s :: rest, st =>
    match x[st.m]? with
    | none => none
    | some b =>
      introduceAll x freq rest
        { rl := st.rl.setEntry b s
          cs := st.cs.setEntry s (st.m + 1)
          ce := st.ce.setEntry s (st.m + (freq.entry s).toNat)
          m := st.m + (freq.entry s).toNat }

/-- The start of step 3 (R125). -/
def introStart : Intro where
  rl := Table.identity
  cs := Vector.replicate 256 0
  ce := Vector.replicate 256 0
  m := Config.headerBytes

/-- What step 4 carries from one iteration to the next (R158). -/
structure Expansion where
  rl : Table Byte
  cs : Table Nat
  ce : Table Nat
  k : Nat
  val : Byte

/-- One iteration of step 4 after its emission; none is cause 4 (R158). -/
def advance (x : List Byte) (e : Expansion) : Option Expansion :=
  if e.ce.entry e.val ≤ e.cs.entry e.val then
    if e.k - 1 = 0 then some { e with k := 0 }
    else
      let rl := shl e.rl (BitVec.ofNat 8 (e.k - 1))
      some { e with k := e.k - 1, rl := rl, val := rl.entry 0 }
  else
    match x[e.cs.entry e.val]? with
    | none => none
    | some idx =>
      let cs := e.cs.setEntry e.val (e.cs.entry e.val + 1)
      if idx = 0 then some { e with cs := cs }
      else
        let rl := (shl e.rl idx).setEntry idx e.val
        some { e with cs := cs, rl := rl, val := rl.entry 0 }

/-- Step 4: `n` iterations, each emitting VAL; none is cause 4 (R158). -/
def expand (x : List Byte) : Nat → Expansion → Option (List Byte)
  | 0, _ => some []
  | n + 1, e =>
    match advance x e with
    | none => none
    | some e' => (expand x n e').map (e.val :: ·)

/-- Stage B on an intermediate sequence of at least 1024 bytes, with the expected length `explen`, 0 for none (R125,
R158). -/
def stageB (x : List Byte) (explen : Nat) : Result :=
  let freq := counters x
  let total := total freq
  if explen ≠ 0 ∧ explen ≠ total then .data []
  else if total = 0 then .data []
  else
    match introduceAll x freq (ranked freq) introStart with
    | none => .fault .slot
    | some st =>
      match expand x total
        { rl := st.rl, cs := st.cs, ce := st.ce, k := (ranked freq).length, val := st.rl.entry 0 } with
      | none => .fault .cursor
      | some out => .data out

/-- `Decode(buf, E)` (R171): the tag is dropped uninterpreted, the rest are the symbols of Stage A. -/
def decodeBuffer (buf : List Byte) (explen : Nat) : Result :=
  if buf.length < Config.envelopeBytes then .fault .envelope
  else
    let x := stageA (buf.drop 4)
    if x.length < Config.headerBytes then .fault .header else stageB x explen

end Sys2Proof.Machine.Functional
end

