-- ==== Sys2Proof/Safety.lean ====
section
/-! DEFINITION. What a safe run of MTFD is: the invariants of rule R58 and of the state's own rules, the loaded input,
and what a host sees at the end of a run (rules R172, R180). -/

namespace Sys2Proof.Machine

/-- The bytes [0, n) of a buffer hold a value and no other address does. -/
def Memory.Covers (m : Memory) (n : Nat) : Prop := ∀ a, (m.read a).isSome = decide (a < n)

/-- STATUS.STATE is a function of PHASE (R52). -/
def statusOf (p : Phase) : RunState :=
  match p with
  | .idle => .idle
  | .done => .done
  | .fault => .fault
  | .hdr => .busy
  | .aRun => .busy
  | .bParse => .busy
  | .bSum => .busy
  | .bRank => .busy
  | .bBuild => .busy
  | .bExpand => .busy

/-- The phases of Stage B (R88). -/
def inStageB (p : Phase) : Prop :=
  p = .bParse ∨ p = .bSum ∨ p = .bRank ∨ p = .bBuild ∨ p = .bExpand

/-- The sum of the counters of the first n ranked symbols: window n starts at 1024 + this (R67). -/
def windowSum (freq : Table (BitVec 32)) (order : Table Byte) : Nat → Nat
  | 0 => 0
  | n + 1 => windowSum freq order n + (freq.entry (order.entry (BitVec.ofNat 8 n))).toNat

/-- How many entries of a counter table are not 0. -/
def countNonzero (f : Table (BitVec 32)) : Nat := f.toList.countP (· != 0)

/-- The invariants of MTFD between two steps (R58, and R24 to R31, R41, R46, R48, R49, R52, R55 of spec file
10_state.md). R58 (e) claims I ≤ K throughout a decode; of the register K it holds from START to EXP.ENTER, since EXP.RETIRE
then lowers K and not I (R21, R152). In the expansion I is what K was when the ranking ended, the number of symbols with a
non-zero counter (R27), and the register K is at most that (log entry 10). -/
structure Inv (s : State) : Prop where
  ibuf_wf : s.ibuf.wf
  xbuf_wf : s.xbuf.wf
  obuf_wf : s.obuf.wf
  /-- R52: STATE goes with PHASE, and CAUSE is 0 exactly outside FAULT. -/
  status : s.state = statusOf s.phase
  cause : s.cause = .none ↔ s.phase ≠ .fault
  /-- R55: OLEN is 0 until the decode ends with data. -/
  olen : s.phase ≠ .done → s.olen = 0
  /-- R58 (e), in every phase: J, K and I are at most 256, OP at most TOTAL. In IDLE it rests on log entry 2. -/
  positions : s.j.toNat ≤ 256 ∧ s.k.toNat ≤ 256 ∧ s.i.toNat ≤ 256 ∧ s.op.toNat ≤ s.total.toNat
  /-- R58 (e): XP is at most XLEN during a decode. -/
  emitted : s.state = .busy → s.xp.toNat ≤ s.xlen
  /-- R58 (e): I is at most K from START to EXP.ENTER; in the expansion every ranked symbol is introduced, and K counts those
  not yet retired (R27). -/
  introduced : s.state = .busy →
    (s.phase ≠ .bExpand → s.i.toNat ≤ s.k.toNat) ∧
      (s.phase = .bExpand → s.i.toNat = countNonzero s.freq ∧ s.k.toNat ≤ s.i.toNat)
  /-- R41, R58 (a): T is a permutation of the byte values from the first START on. -/
  rankTable : s.phase ≠ .idle → Function.Injective s.t.entry
  /-- R24, R36: XP counts the symbols processed. -/
  header : s.phase = .hdr → s.xp = 0
  stageA : s.phase = .aRun → 5 ≤ s.inlen.toNat
  /-- R48: XBUF holds exactly the bytes emitted so far. -/
  intermediate : s.state = .busy → s.xbuf.Covers s.xp.toNat
  /-- R71, R113: in Stage B the intermediate sequence is complete and holds the header. -/
  boundary : inStageB s.phase → s.xp.toNat = s.xlen ∧ 1024 ≤ s.xlen
  /-- R25. -/
  parse : s.phase = .bParse → s.j.toNat < 256
  /-- R129: until B_BUILD, RL is the identity, the cursor table is zero and no symbol is introduced. -/
  untouched : s.state = .busy → s.phase ≠ .bBuild → s.phase ≠ .bExpand →
    s.rl = Table.identity ∧ s.cs = Table.zero ∧ s.ce = Table.zero ∧ s.i = 0
  /-- R26: TOTAL is the exact sum. -/
  total : s.phase = .bRank ∨ s.phase = .bBuild ∨ s.phase = .bExpand →
    s.total.toNat = Functional.total s.freq ∧ 0 < s.total.toNat
  /-- R43, R128: each entry of REM is its counter or 0, and K counts the zeroed ones. -/
  ranking : s.phase = .bRank →
    (∀ b, s.rem.entry b = 0 ∨ s.rem.entry b = s.freq.entry b) ∧
      s.k.toNat + countNonzero s.rem = countNonzero s.freq ∧
      windowSum s.freq s.order s.k.toNat + Functional.total s.rem = s.total.toNat
  /-- R44, R130: the ranked symbols have non-zero counters. -/
  ranked : s.phase = .bRank ∨ s.phase = .bBuild →
    ∀ n, n < s.k.toNat → s.freq.entry (s.order.entry (BitVec.ofNat 8 n)) ≠ 0
  /-- R27, R28, R29: the introductions done and to do. -/
  build : s.phase = .bBuild →
    1 ≤ s.k.toNat ∧ s.k.toNat = countNonzero s.freq ∧ windowSum s.freq s.order s.k.toNat = s.total.toNat ∧
      s.m.toNat = 1024 + windowSum s.freq s.order s.i.toNat
  /-- R46, R58 (c). In IDLE it rests on log entry 2. -/
  cursors : ∀ b, (s.cs.entry b).toNat ≤ (s.ce.entry b).toNat
  /-- R46. -/
  cursorBound : s.phase = .bBuild ∨ s.phase = .bExpand →
    ∀ b, (s.ce.entry b).toNat ≤ 1024 + s.total.toNat
  /-- R58 (b), R133: the expansion. -/
  expand : s.phase = .bExpand →
    s.val = s.rl.entry 0 ∧ s.m.toNat = 1024 + s.total.toNat
  /-- R31, R49: OBUF holds exactly the bytes emitted so far, none before the expansion. -/
  output : s.state = .busy → s.obuf.Covers s.op.toNat ∧ (s.phase ≠ .bExpand → s.op = 0)
  /-- R49, R55, R134: a decode that ended with data has OLEN = TOTAL bytes in OBUF. -/
  done : s.phase = .done → s.olen = 0 ∨ (s.olen = s.total ∧ s.obuf.Covers s.olen.toNat)

/-- The host's duty: while a decode runs, every byte of IBUF[0, INLEN) was loaded (R175, U8). -/
def InputLoaded (s : State) : Prop :=
  s.state = .busy → ∀ a, a < s.inlen.toNat → (s.ibuf.read a).isSome

/-- The count identity of rule R157 as a property of one state of the expansion: while K > 0 the output bytes due are
the cursor bytes not yet consumed plus the symbols not yet retired; once K = 0 the front symbol is exhausted. -/
def CountIdentity (s : State) : Prop :=
  (0 < s.k.toNat →
    s.op.toNat + ((List.range 256).map fun n =>
      (s.ce.entry (BitVec.ofNat 8 n)).toNat - (s.cs.entry (BitVec.ofNat 8 n)).toNat).sum + s.k.toNat
      = s.total.toNat) ∧
  (s.k.toNat = 0 → valExhausted s = true)

/-- The byte sequence OBUF[0, OLEN); none if a byte of it was not written (R172 (c)). -/
def outputBytes (s : State) : Option (List Byte) :=
  (List.range s.olen.toNat).mapM fun a => s.obuf.read a

/-- What is observable of a decode that has ended (R172); none in any other state. -/
def observe (s : State) : Option Functional.Result :=
  match s.phase with
  | .done => (outputBytes s).map .data
  | .fault => some (.fault s.cause)
  | .idle => none
  | .hdr => none
  | .aRun => none
  | .bParse => none
  | .bSum => none
  | .bRank => none
  | .bBuild => none
  | .bExpand => none

/-- The host has loaded an input and an expected length, and its next move is CTRL = 0x01 (R175, R218). -/
def ReadyToStart (s : State) (buf : List Byte) (explen : BitVec 40) : Prop :=
  s.state ≠ .busy ∧ s.inlen.toNat = buf.length ∧ s.explen = explen ∧
    (∀ a, a < buf.length → s.ibuf.read a = buf[a]?) ∧ s.host = [.writeCtrl 0x01]

/-- `n` steps of the machine, stopping at the first fault or refusal. -/
def runSteps (n : Nat) (s : State) : Access State := Host.Core.run Sys2Proof.core n s

end Sys2Proof.Machine
end

