-- ==== Sys2Proof/Certificates/Slice0/Obligations.lean ====
section
/-! DEFINITION. The statements for the provers. Each docstring names the rules of spec/ it rests on; a clause that rests
on a choice of the model names its log entry. -/

open Sys2Proof Sys2Proof.Machine

namespace Sys2Proof.Claims

/-- Every dispatch word with these bits selects the operation (a row of rule R90). -/
def SelectedBy (mask value : DW) (i : Instr) : Prop :=
  ∀ w : DW, w &&& mask = value → decodeDispatch w = .ok i

/-- The exact sum of the 256 counters. -/
def exactSum (f : Table (BitVec 32)) : Nat :=
  ((List.range 256).map fun n => (f.entry (BitVec.ofNat 8 n)).toNat).sum

/-- MTFA.KEEP and MTFA.MOVE, which write XBUF (R48). -/
def emitsIntermediate (i : Instr) : Prop := i = .mtfaKeep ∨ ∃ c, i = .mtfaMove c

/-- EXP.RETIRE, EXP.STAY and EXP.DEMOTE, which write OBUF (R49). -/
def emitsOutput (i : Instr) : Prop := i = .expRetire ∨ i = .expStay ∨ ∃ idx, i = .expDemote idx

/-- EXP.DEMOTE with any rank. -/
def demotes (i : Instr) : Prop := ∃ idx, i = .expDemote idx

/-- Two states that differ in nothing but the tag: the TAG register and the input bytes 0 to 3 (R102). -/
def TagTwins (s u : State) : Prop :=
  u = { s with tag := u.tag, ibuf := u.ibuf } ∧
    (∀ a, 4 ≤ a → u.ibuf.read a = s.ibuf.read a) ∧
    (∀ a, a < 4 → (u.ibuf.read a).isSome = (s.ibuf.read a).isSome)

/-- The start of the introductions after a ranking: distinct symbols with non-zero counters that sum to TOTAL, and every
SLOT byte inside XBUF (R130, R131). -/
structure RankedWithSlots (s : State) : Prop where
  host : s.host = []
  phase : s.phase = .bBuild
  first : s.i = 0
  cursor : s.m = 1024
  count : s.k.toNat ≤ 256
  nonzero : ∀ n, n < s.k.toNat → s.freq.entry (s.order.entry (BitVec.ofNat 8 n)) ≠ 0
  distinct : ∀ m n, m < n → n < s.k.toNat →
    s.order.entry (BitVec.ofNat 8 m) ≠ s.order.entry (BitVec.ofNat 8 n)
  total : s.total.toNat = windowSum s.freq s.order s.k.toNat
  slots : ∀ n, n < s.k.toNat → 1024 + windowSum s.freq s.order n < s.xlen ∧
    (s.xbuf.read (1024 + windowSum s.freq s.order n)).isSome = true

/-- The phases an operation goes from and to, and the cause when it ends in FAULT (R33). -/
def PhaseEdge (i : Instr) (s t : State) : Prop :=
  match i with
  | .start => (s.phase = .idle ∨ s.phase = .done ∨ s.phase = .fault) ∧ t.phase = .hdr
  | .hdrRd => s.phase = .hdr ∧ (t.phase = .aRun ∨ (t.phase = .fault ∧ t.cause = .envelope))
  | .mtfaKeep => s.phase = .aRun ∧ t.phase = .aRun
  | .mtfaMove _ => s.phase = .aRun ∧ t.phase = .aRun
  | .aEnd => s.phase = .aRun ∧ (t.phase = .bParse ∨ (t.phase = .fault ∧ t.cause = .header))
  | .cntLd => s.phase = .bParse ∧
      ((s.j.toNat < 255 ∧ t.phase = .bParse) ∨ (s.j.toNat = 255 ∧ t.phase = .bSum))
  | .lenChk => s.phase = .bSum ∧ (t.phase = .bRank ∨ t.phase = .done)
  | .rankSel => s.phase = .bRank ∧ t.phase = .bRank
  | .rankEnd => s.phase = .bRank ∧ t.phase = .bBuild
  | .introduce => s.phase = .bBuild ∧ (t.phase = .bBuild ∨ (t.phase = .fault ∧ t.cause = .slot))
  | .expEnter => s.phase = .bBuild ∧ t.phase = .bExpand
  | .expRetire => s.phase = .bExpand ∧ t.phase = .bExpand
  | .expStay => s.phase = .bExpand ∧ t.phase = .bExpand
  | .expDemote _ => s.phase = .bExpand ∧ t.phase = .bExpand
  | .expDone => s.phase = .bExpand ∧ t.phase = .done

end Sys2Proof.Claims

open Sys2Proof.Claims

/-! ### Encoding (R87 to R92) -/

/-- Words written out bit by bit from the patterns of rule R90 decode to their operations, and words with a quiescent or
reserved phase code are rejected by name. -/
def Obligations.WrittenOutWordsDecode : Prop :=
  decodeCtrl 0b00000001 = .ok .start ∧
  decodeDispatch 0b00010000000000 = .ok .hdrRd ∧
  decodeDispatch 0b00100100000000 = .ok .mtfaKeep ∧
  decodeDispatch 0b00100101000001 = .ok (.mtfaMove 0x41) ∧
  decodeDispatch 0b00100000000000 = .ok .aEnd ∧
  decodeDispatch 0b00110000000000 = .ok .cntLd ∧
  decodeDispatch 0b01100100000000 = .ok .introduce ∧
  decodeDispatch 0b01111100000000 = .ok .expRetire ∧
  decodeDispatch 0b01110100000010 = .ok (.expDemote 2) ∧
  decodeDispatch 0b00000100000000 = .error .quiescentPhase ∧
  decodeDispatch 0b10100100000000 = .error .reservedPhase ∧
  decodeDispatch 0b00101000000000 = .error .unformable

/-- Every well-formed operation is read back from its encoding, with every operand value (R82, R85, R90). -/
def Obligations.DecodeOfEncodeIsTheOperation : Prop :=
  ∀ i : Instr, i.wellFormed = true → decode (encode i) = .ok i

/-- The other direction: what the decoder reads from a dispatch word is well formed, and the word agrees with its
encoding on every bit that the operation's row fixes or carries (R89, R90, R91). -/
def Obligations.DecodedWordAgreesWithItsRow : Prop :=
  ∀ (w : DW) (i : Instr), decodeDispatch w = .ok i →
    i.wellFormed = true ∧ ∃ e, i.dispatchWord = some e ∧ w &&& i.examinedBits = e

/-- Every dispatch word that can be formed in a non-quiescent phase selects exactly one operation, under the side
condition B ≠ 0 of MTFA.MOVE and EXP.DEMOTE, and no word with a quiescent or reserved phase code selects any (R89). -/
def Obligations.FormedWordsSelectExactlyOneOperation : Prop :=
  (∀ (s : State) (b : Byte), s.phase.quiescent = false → dispatchByte s = .next (.ok b) →
    ∃ i, decodeDispatch (DW.form s.phase (flag1 s) (flag0 s) b) = .ok i ∧ i.wellFormed = true ∧
      ∀ r ∈ rows, r.accepts (DW.form s.phase (flag1 s) (flag0 s) b) = true →
        (r.build b).wellFormed = true → r.build b = i) ∧
  ∀ w : DW, (w.phaseCode = 0 ∨ 8 ≤ w.phaseCode.toNat) → ∀ i, decodeDispatch w ≠ .ok i

/-! ### Flags and the dispatch byte (R35 to R40, R87) -/

/-- The five condition flags are the stated functions of the state, and F0 and F1 are 0 where a phase defines none
(R36 to R40). -/
def Obligations.FlagsAreTheStatedConditions : Prop :=
  ∀ s : State,
    (aMore s = true ↔ s.xp.toNat < s.inlen.toNat - 4) ∧
    (anyRemaining s = true ↔ ∃ b, s.rem.entry b ≠ 0) ∧
    (bMore s = true ↔ s.i.toNat < s.k.toNat) ∧
    (eMore s = true ↔ s.op.toNat < s.total.toNat) ∧
    (exhausted s = true ↔
      eMore s = true ∧ (s.ce.entry s.val).toNat ≤ (s.cs.entry s.val).toNat) ∧
    flag0 s = (if s.phase = .aRun then aMore s else if s.phase = .bRank then anyRemaining s
      else if s.phase = .bBuild then bMore s else if s.phase = .bExpand then eMore s else false) ∧
    flag1 s = (if s.phase = .bExpand then exhausted s else false)

/-- Where the dispatch byte comes from (R87): SEED or the input byte 4 + XP in A_RUN, the cursor byte in B_EXPAND, 0 with
no buffer read in every other case. -/
def Obligations.DispatchByteSources : Prop :=
  ∀ s : State,
    (s.phase = .aRun → aMore s = true → s.xp = 0 → dispatchByte s = .next (.ok s.seed)) ∧
    (∀ c, s.phase = .aRun → aMore s = true → s.xp ≠ 0 → s.ibuf.read (4 + s.xp.toNat) = some c →
      dispatchByte s = .next (.ok c)) ∧
    (∀ c, s.phase = .bExpand → eMore s = true → exhausted s = false →
      (s.cs.entry s.val).toNat < s.xlen → s.xbuf.read (s.cs.entry s.val).toNat = some c →
      dispatchByte s = .next (.ok c)) ∧
    (¬(s.phase = .aRun ∧ aMore s = true) →
      ¬(s.phase = .bExpand ∧ eMore s = true ∧ exhausted s = false) → dispatchByte s = .next (.ok 0))

/-! ### The operations: what each answers, and where it completes -/

/-- START (R100): selected by CTRL write data with bit 0 = 1; no effect while BUSY; otherwise it completes with the
per-decode initial state and leaves INLEN, EXPLEN and IBUF. -/
def Obligations.StartInitialisesTheDecode : Prop :=
  (∀ data : Byte, data.getLsbD 0 = true → decodeCtrl data = .ok .start) ∧
  (∀ s : State, s.state = .busy → exec .start s = .next s) ∧
  ∀ s : State, s.state ≠ .busy → ∃ t, exec .start s = .next t ∧
    t.state = .busy ∧ t.cause = .none ∧ t.olen = 0 ∧ t.phase = .hdr ∧
    (∀ (n : Nat) (h : n < 4), t.tag[n] = 0) ∧ t.seed = 0 ∧
    t.xp = 0 ∧ t.j = 0 ∧ t.i = 0 ∧ t.k = 0 ∧ t.m = 0 ∧ t.total = 0 ∧ t.op = 0 ∧ t.val = 0 ∧
    (∀ b, t.t.entry b = b ∧ t.rl.entry b = b ∧ t.freq.entry b = 0 ∧ t.rem.entry b = 0 ∧
      t.order.entry b = 0 ∧ t.cs.entry b = 0 ∧ t.ce.entry b = 0) ∧
    t.inlen = s.inlen ∧ t.explen = s.explen ∧ t.ibuf = s.ibuf ∧ t.host = s.host

/-- HDR.RD (R101): with INLEN ≥ 5 and the five bytes loaded it completes, moves them to TAG and SEED and opens A_RUN;
with INLEN < 5 it raises cause 1 and reads no byte. -/
def Obligations.HdrRdReadsTheEnvelope : Prop :=
  SelectedBy 0x3C00 0x0400 .hdrRd ∧
  (∀ s : State, s.inlen.toNat < 5 → exec .hdrRd s =
    .next { s with olen := 0, cause := .envelope, state := .fault, phase := .fault }) ∧
  ∀ (s : State) (t0 t1 t2 t3 c : Byte), 5 ≤ s.inlen.toNat →
    s.ibuf.read 0 = some t0 → s.ibuf.read 1 = some t1 → s.ibuf.read 2 = some t2 →
    s.ibuf.read 3 = some t3 → s.ibuf.read 4 = some c →
    exec .hdrRd s = .next { s with tag := #v[t0, t1, t2, t3], seed := c, xp := 0, phase := .aRun }

/-- MTFA.KEEP (R111): while XP < XLEN it completes: T[0] goes to XBUF[XP], XP advances, nothing else changes. -/
def Obligations.KeepEmitsTheFront : Prop :=
  SelectedBy 0x3FFF 0x0900 .mtfaKeep ∧
  ∀ s : State, s.xp.toNat + 4 < s.inlen.toNat →
    exec .mtfaKeep s =
      .next { s with xbuf := s.xbuf.write s.xp.toNat (s.t.entry 0), xp := s.xp + 1 }

/-- MTFA.MOVE (R112): while XP < XLEN it completes: T[c] goes to XBUF[XP] and to rank 0, the ranks 0..c−1 move one rank
down, the ranks above c and everything else stay. -/
def Obligations.MoveEmitsAndPromotesRankC : Prop :=
  (∀ w : DW, w &&& 0x3F00 = 0x0900 → w.byte ≠ 0 → decodeDispatch w = .ok (.mtfaMove w.byte)) ∧
  ∀ (s : State) (c : Byte), s.xp.toNat + 4 < s.inlen.toNat → ∃ T' : Table Byte,
    exec (.mtfaMove c) s =
      .next { s with t := T', xbuf := s.xbuf.write s.xp.toNat (s.t.entry c), xp := s.xp + 1 } ∧
    T'.entry 0 = s.t.entry c ∧
    (∀ k : Byte, k ≠ 0 → k ≤ c → T'.entry k = s.t.entry (k - 1)) ∧
    (∀ k : Byte, c < k → T'.entry k = s.t.entry k)

/-- A.END (R113): with XLEN ≥ 1024 it completes and opens Stage B at J = 0; with XLEN < 1024 it raises cause 2. -/
def Obligations.AEndChecksTheHeader : Prop :=
  SelectedBy 0x3F00 0x0800 .aEnd ∧
  (∀ s : State, s.inlen.toNat < 1028 → exec .aEnd s =
    .next { s with olen := 0, cause := .header, state := .fault, phase := .fault }) ∧
  ∀ s : State, 1028 ≤ s.inlen.toNat → exec .aEnd s = .next { s with j := 0, phase := .bParse }

/-- CNT.LD (R126, R61, R83): with J ≤ 255 and its four bytes inside XBUF and written it completes: FREQ[J] is their
little-endian value, J advances, and the 256th opens B_SUM. -/
def Obligations.CntLdLoadsALittleEndianCounter : Prop :=
  SelectedBy 0x3C00 0x0C00 .cntLd ∧
  ∀ (s : State) (b0 b1 b2 b3 : Byte), s.j.toNat < 256 → 4 * s.j.toNat + 4 ≤ s.inlen.toNat - 4 →
    s.xbuf.read (4 * s.j.toNat) = some b0 → s.xbuf.read (4 * s.j.toNat + 1) = some b1 →
    s.xbuf.read (4 * s.j.toNat + 2) = some b2 → s.xbuf.read (4 * s.j.toNat + 3) = some b3 →
    ∃ f : BitVec 32,
      f.toNat = b0.toNat + 256 * b1.toNat + 65536 * b2.toNat + 16777216 * b3.toNat ∧
      exec .cntLd s =
        .next { s with
          freq := s.freq.setEntry (BitVec.ofNat 8 s.j.toNat) f
          j := s.j + 1
          phase := if s.j.toNat = 255 then .bSum else s.phase }

/-- LEN.CHK (R127): it always completes. TOTAL is the exact sum of the counters, without a wrap; a non-zero EXPLEN that
differs from it, or a zero sum, ends the decode in DONE with OLEN = 0; otherwise REM is a copy of FREQ, K = 0, and
B_RANK opens. -/
def Obligations.LenChkSumsAndChecks : Prop :=
  SelectedBy 0x3C00 0x1000 .lenChk ∧
  ∀ s : State, exactSum s.freq < 2 ^ 40 ∧
    ((s.explen ≠ 0 ∧ s.explen.toNat ≠ exactSum s.freq) ∨ exactSum s.freq = 0 →
      exec .lenChk s = .next { s with
        total := BitVec.ofNat 40 (exactSum s.freq), olen := 0, state := .done, phase := .done }) ∧
    ((s.explen = 0 ∨ s.explen.toNat = exactSum s.freq) → exactSum s.freq ≠ 0 →
      exec .lenChk s = .next { s with
        total := BitVec.ofNat 40 (exactSum s.freq), rem := s.freq, k := 0, phase := .bRank })

/-- RANK.SEL (R128, R227): with ANY = 1 and K ≤ 255 it completes: the smallest symbol whose remaining counter is the
largest is appended to ORDER, its counter in REM is zeroed, K advances, and nothing else changes. -/
def Obligations.RankSelPicksTheLargestCounter : Prop :=
  SelectedBy 0x3D00 0x1500 .rankSel ∧
  ∀ s : State, s.k.toNat < 256 → (∃ b, s.rem.entry b ≠ 0) → ∃ sym : Byte,
    s.rem.entry sym ≠ 0 ∧
    (∀ b, s.rem.entry b ≤ s.rem.entry sym) ∧
    (∀ b, b < sym → s.rem.entry b < s.rem.entry sym) ∧
    exec .rankSel s = .next { s with
      order := s.order.setEntry (BitVec.ofNat 8 s.k.toNat) sym
      rem := s.rem.setEntry sym 0
      k := s.k + 1 }

/-- RANK.END (R129), EXP.ENTER (R132) and EXP.DONE (R155) always complete, with exactly the writes of their rules. -/
def Obligations.PhaseOpenersAndExpDone : Prop :=
  SelectedBy 0x3D00 0x1400 .rankEnd ∧ SelectedBy 0x3D00 0x1800 .expEnter ∧
  SelectedBy 0x3D00 0x1C00 .expDone ∧
  ∀ s : State,
    exec .rankEnd s = .next { s with i := 0, m := 1024, phase := .bBuild } ∧
    exec .expEnter s = .next { s with val := s.rl.entry 0, op := 0, phase := .bExpand } ∧
    exec .expDone s = .next { s with olen := s.total, state := .done, phase := .done }

/-- INTRO (R131, R224): with I ≤ 255 and the SLOT byte inside XBUF and written it completes: RL[b] <- s, CS[s] <- old
M + 1, M <- M + f, CE[s] <- new M with f the original counter; with M ≥ XLEN it raises cause 3 and does nothing else. -/
def Obligations.IntroPlacesTheRankedSymbol : Prop :=
  SelectedBy 0x3D00 0x1900 .introduce ∧
  ∀ s : State, s.i.toNat < 256 →
    (s.inlen.toNat - 4 ≤ s.m.toNat → exec .introduce s =
      .next { s with olen := 0, cause := .slot, state := .fault, phase := .fault }) ∧
    ∀ (b sym : Byte), s.order.entry (BitVec.ofNat 8 s.i.toNat) = sym →
      s.m.toNat < s.inlen.toNat - 4 → s.xbuf.read s.m.toNat = some b →
      exec .introduce s = .next { s with
        rl := s.rl.setEntry b sym
        cs := s.cs.setEntry sym (s.m + 1)
        m := s.m + (s.freq.entry sym).setWidth 41
        ce := s.ce.setEntry sym (s.m + (s.freq.entry sym).setWidth 41)
        i := s.i + 1 }

/-- EXP.RETIRE (R152, R223): while OP < TOTAL and K ≤ 256 it completes: VAL goes to OBUF[OP]; K is decremented and stays at
0; if the decremented K > 0 the entries 1..K of RL move one position left, entry K stays, and VAL is the new front. -/
def Obligations.RetireEmitsAndShifts : Prop :=
  SelectedBy 0x3F00 0x1F00 .expRetire ∧
  ∀ s : State, s.op.toNat < s.total.toNat →
    (s.k.toNat ≤ 1 → exec .expRetire s =
      .next { s with obuf := s.obuf.write s.op.toNat s.val, op := s.op + 1, k := 0 }) ∧
    (2 ≤ s.k.toNat → s.k.toNat ≤ 256 → ∃ rl' : Table Byte,
      exec .expRetire s = .next { s with
        obuf := s.obuf.write s.op.toNat s.val, op := s.op + 1, k := s.k - 1
        rl := rl', val := s.rl.entry 1 } ∧
      ∀ p : Byte, rl'.entry p =
        if p.toNat + 1 < s.k.toNat then s.rl.entry (p + 1) else s.rl.entry p)

/-- EXP.STAY (R153): while OP < TOTAL it completes: VAL goes to OBUF[OP], its cursor start advances by one, and nothing
else changes. -/
def Obligations.StayEmitsAndConsumesOneByte : Prop :=
  SelectedBy 0x3FFF 0x1D00 .expStay ∧
  ∀ s : State, s.op.toNat < s.total.toNat →
    exec .expStay s = .next { s with
      obuf := s.obuf.write s.op.toNat s.val, op := s.op + 1
      cs := s.cs.setEntry s.val (s.cs.entry s.val + 1) }

/-- EXP.DEMOTE (R154, R221, R222): while OP < TOTAL it completes: the old VAL goes to OBUF[OP], its cursor start advances, it
moves from the front to rank idx, the ranks 1..idx move one position left, and VAL is the new front. -/
def Obligations.DemoteMovesTheFrontToRankIdx : Prop :=
  (∀ w : DW, w &&& 0x3F00 = 0x1D00 → w.byte ≠ 0 → decodeDispatch w = .ok (.expDemote w.byte)) ∧
  ∀ (s : State) (idx : Byte), s.op.toNat < s.total.toNat → ∃ rl' : Table Byte,
    exec (.expDemote idx) s = .next { s with
      obuf := s.obuf.write s.op.toNat s.val, op := s.op + 1
      cs := s.cs.setEntry s.val (s.cs.entry s.val + 1)
      rl := rl', val := rl'.entry 0 } ∧
    ∀ p : Byte, rl'.entry p =
      if p < idx then s.rl.entry (p + 1) else if p = idx then s.val else s.rl.entry p

/-- SHL(m) (R150): RL'[p] = RL[p+1] for p < m, RL'[p] = RL[p] for p ≥ m; SHL(0) does nothing. -/
def Obligations.ShlCopiesLeftAndDuplicates : Prop :=
  ∀ (rl : Table Byte) (m : Byte),
    (∀ p : Byte, p < m → (shl rl m).entry p = rl.entry (p + 1)) ∧
    (∀ p : Byte, m ≤ p → (shl rl m).entry p = rl.entry p) ∧
    shl rl 0 = rl

/-- Stage A's table stays a permutation of the byte values under every operation (R41). -/
def Obligations.RankTableStaysAPermutation : Prop :=
  ∀ (i : Instr) (s t : State), exec i s = .next t →
    Function.Injective s.t.entry → Function.Injective t.t.entry

/-! ### Frames (R21, R41 to R49, R60, R64) -/

/-- No operation but START writes a register or table outside the "written by" column of rules R21 and R41 to R46; the host
registers INLEN and EXPLEN and the host's pending moves are written by none; STATUS and OLEN change only in an operation that
can end the decode. -/
def Obligations.OperationsWriteOnlyTheirOwnState : Prop :=
  ∀ (i : Instr) (s t : State), exec i s = .next t → i ≠ .start →
    t.host = s.host ∧ t.inlen = s.inlen ∧ t.explen = s.explen ∧
    (i ≠ .hdrRd → t.tag = s.tag ∧ t.seed = s.seed) ∧
    (i ≠ .hdrRd → ¬emitsIntermediate i → t.xp = s.xp) ∧
    (i ≠ .aEnd → i ≠ .cntLd → t.j = s.j) ∧
    (i ≠ .lenChk → t.total = s.total) ∧
    (i ≠ .lenChk → i ≠ .rankSel → i ≠ .expRetire → t.k = s.k) ∧
    (i ≠ .rankEnd → i ≠ .introduce → t.i = s.i ∧ t.m = s.m) ∧
    (i ≠ .expEnter → i ≠ .expRetire → ¬demotes i → t.val = s.val) ∧
    (i ≠ .expEnter → ¬emitsOutput i → t.op = s.op) ∧
    ((∀ c, i ≠ .mtfaMove c) → t.t = s.t) ∧
    (i ≠ .cntLd → t.freq = s.freq) ∧
    (i ≠ .lenChk → i ≠ .rankSel → t.rem = s.rem) ∧
    (i ≠ .rankSel → t.order = s.order) ∧
    (i ≠ .introduce → i ≠ .expRetire → ¬demotes i → t.rl = s.rl) ∧
    (i ≠ .introduce → i ≠ .expStay → ¬demotes i → t.cs = s.cs) ∧
    (i ≠ .introduce → t.ce = s.ce) ∧
    (i ≠ .hdrRd → i ≠ .aEnd → i ≠ .lenChk → i ≠ .introduce → i ≠ .expDone →
      t.state = s.state ∧ t.cause = s.cause ∧ t.olen = s.olen) ∧
    (i ≠ .hdrRd → i ≠ .aEnd → i ≠ .cntLd → i ≠ .lenChk → i ≠ .rankEnd → i ≠ .introduce →
      i ≠ .expEnter → i ≠ .expDone → t.phase = s.phase)

/-- The bytes an operation stores to (R60, R64): IBUF is written by none; XBUF only by MTFA.KEEP and MTFA.MOVE, at XP; OBUF
only by EXP.RETIRE, EXP.STAY and EXP.DEMOTE, at OP, with the VAL they found; every other byte reads as before. START is apart:
it leaves IBUF, and XBUF and OBUF are unspecified after it. -/
def Obligations.OperationsStoreOnlyAtXpAndOp : Prop :=
  ∀ (i : Instr) (s t : State), exec i s = .next t →
    (∀ a, t.ibuf.read a = s.ibuf.read a) ∧
    (i ≠ .start → ¬emitsIntermediate i → ∀ a, t.xbuf.read a = s.xbuf.read a) ∧
    (i ≠ .start → ¬emitsOutput i → ∀ a, t.obuf.read a = s.obuf.read a) ∧
    (emitsIntermediate i → ∀ a, a ≠ s.xp.toNat → t.xbuf.read a = s.xbuf.read a) ∧
    (emitsOutput i → t.obuf.read s.op.toNat = some s.val ∧
      ∀ a, a ≠ s.op.toNat → t.obuf.read a = s.obuf.read a)

/-! ### Faults (R190 to R202) -/

/-- Fault entry (R195): OLEN = 0, CAUSE = c, STATE and PHASE = FAULT, everything else as it was; STATUS reads
(c << 4) | 3, and the host may read no output byte (that such a read is refused by name is log entry 11). -/
def Obligations.FaultEntryKeepsTheRest : Prop :=
  ∀ (c : Cause) (s : State),
    raiseTruncated c s = { s with olen := 0, cause := c, state := .fault, phase := .fault } ∧
    (raiseTruncated c s).statusWord = ((c.code.setWidth 8) <<< 4) ||| 3 ∧
    ∀ a, hostReadObuf a (raiseTruncated c s) = .refused .hostReadWindow

/-- Faults are precise (R190 to R193, R199): an operation that ends in FAULT is HDR.RD with cause 1 and INLEN < 5, A.END with
cause 2 and XLEN < 1024, or INTRO with cause 3 and M ≥ XLEN, and it has performed none of its own writes. -/
def Obligations.OperationFaultsArePrecise : Prop :=
  ∀ (i : Instr) (s t : State), s.phase ≠ .fault → exec i s = .next t → t.phase = .fault →
    ∃ c, t = { s with olen := 0, cause := c, state := .fault, phase := .fault } ∧
      ((i = .hdrRd ∧ c = .envelope ∧ s.inlen.toNat < 5) ∨
       (i = .aEnd ∧ c = .header ∧ s.inlen.toNat - 4 < 1024) ∨
       (i = .introduce ∧ c = .slot ∧ s.inlen.toNat - 4 ≤ s.m.toNat))

/-- The cursor-byte fetch (R151): in B_EXPAND with E_MORE = 1 and X = 0, a position ≥ XLEN gives cause 4 instead of an
operation, with OP, OBUF and the rest as they were; a position inside XBUF selects EXP.STAY or EXP.DEMOTE on the byte at CS[VAL];
with X = 1 or E_MORE = 0 no byte is fetched and no fault arises. -/
def Obligations.CursorFetchFaultsInsteadOfDispatching : Prop :=
  ∀ s : State, s.host = [] → s.phase = .bExpand →
    (eMore s = true → exhausted s = false → s.inlen.toNat - 4 ≤ (s.cs.entry s.val).toNat →
      step s = .next { s with olen := 0, cause := .cursor, state := .fault, phase := .fault }) ∧
    (∀ b, eMore s = true → exhausted s = false → (s.cs.entry s.val).toNat < s.inlen.toNat - 4 →
      s.xbuf.read (s.cs.entry s.val).toNat = some b →
      step s = if b = 0 then exec .expStay s else exec (.expDemote b) s) ∧
    (exhausted s = true → step s = exec .expRetire s) ∧
    (eMore s = false → step s = exec .expDone s)

/-- A cause 4 fault arises only when XLEN < 1024 + TOTAL (R194), in every state that meets the invariant. -/
def Obligations.CursorFaultOnlyWhenTheRegionIsShort : Prop :=
  ∀ s t : State, Inv s → s.host = [] → s.phase = .bExpand → step s = .next t → t.phase = .fault →
    t.cause = .cursor ∧ s.xlen < 1024 + s.total.toNat

/-! ### The step, the phases, the host (R32 to R34, R51 to R56, R73, R175, R215) -/

/-- A step runs the decoded operation: with no host move pending, or with the host waiting, it is exec of the operation the
formed dispatch word selects; with a CTRL write pending it is exec of the command, that move taken (R32, R51, R87, R89). -/
def Obligations.StepRunsTheDecodedOperation : Prop :=
  (∀ (s : State) (b : Byte) (i : Instr), s.host = [] → s.phase.quiescent = false →
    dispatchByte s = .next (.ok b) →
    decodeDispatch (DW.form s.phase (flag1 s) (flag0 s) b) = .ok i → step s = exec i s) ∧
  (∀ (s : State) (rest : List HostEvent) (b : Byte) (i : Instr), s.host = .wait :: rest →
    s.phase.quiescent = false → dispatchByte s = .next (.ok b) →
    decodeDispatch (DW.form s.phase (flag1 s) (flag0 s) b) = .ok i →
    step s = exec i { s with host := rest }) ∧
  ∀ (s : State) (rest : List HostEvent) (data : Byte) (i : Instr), s.host = .writeCtrl data :: rest →
    decodeCtrl data = .ok i → step s = exec i { s with host := rest }

/-- In a quiescent phase the sequencer has no step: with no host move pending nothing changes (R34). That such a step
answers the same state rather than a stop is the model's choice, log entry 4. -/
def Obligations.QuiescentPhaseChangesNothing : Prop :=
  ∀ s : State, s.host = [] → s.phase.quiescent = true → step s = .next s

/-- The phase graph (R33): a step that runs an operation takes one of its edges; a step that runs none is in a quiescent
phase and leaves PHASE, or is the cursor-byte fetch beyond XLEN, from B_EXPAND to FAULT with cause 4; START goes from a
quiescent phase to HDR, STATE being what rule R52 says. -/
def Obligations.PhaseChangesOnlyAlongTheGraph : Prop :=
  (∀ (s t : State) (i : Instr), sequencerTurn s = .run i s → exec i s = .next t → PhaseEdge i s t) ∧
  (∀ s t : State, sequencerTurn s = .settle (.next t) →
    (s.phase.quiescent = true ∧ t.phase = s.phase) ∨
    (s.phase = .bExpand ∧ t.phase = .fault ∧ t.cause = .cursor)) ∧
  ∀ s t : State, s.state = statusOf s.phase → s.state ≠ .busy → exec .start s = .next t →
    PhaseEdge .start s t

/-- CTRL (R51): a host write with bit 0 = 1 while STATE ≠ BUSY performs START; while BUSY, or with bit 0 = 0, it changes
nothing; the bits 7:1 are ignored. -/
def Obligations.CtrlWriteStartsOnlyWhenNotBusy : Prop :=
  ∀ (s : State) (data : Byte) (rest : List HostEvent), s.host = .writeCtrl data :: rest →
    (data.getLsbD 0 = true → s.state ≠ .busy → step s = exec .start { s with host := rest }) ∧
    (data.getLsbD 0 = false ∨ s.state = .busy → step s = .next { s with host := rest })

/-- Host writes of INLEN, EXPLEN and IBUF (R53, R54, R73): they take effect while not BUSY, INLEN at most MAX_INLEN; while
BUSY the two registers' writes are ignored, and a write of IBUF is no move of the host (U7). MAX_INLEN is the parameter (log
entry 5); the bound on IBUF addresses and the refusal by name are the model's choices, log entries 5 and 11. -/
def Obligations.HostWritesOnlyWhileNotBusy : Prop :=
  ∀ (s : State) (rest : List HostEvent),
    (∀ v, s.host = .writeInlen v :: rest → s.state ≠ .busy → v.toNat ≤ Config.maxInlen →
      step s = .next { s with host := rest, inlen := v }) ∧
    (∀ v, s.host = .writeInlen v :: rest → s.state = .busy → step s = .next { s with host := rest }) ∧
    (∀ v, s.host = .writeExplen v :: rest → s.state ≠ .busy →
      step s = .next { s with host := rest, explen := v }) ∧
    (∀ v, s.host = .writeExplen v :: rest → s.state = .busy → step s = .next { s with host := rest }) ∧
    (∀ a b, s.host = .writeIbuf a b :: rest → s.state ≠ .busy → a.toNat < Config.maxInlen →
      ∃ t, step s = .next t ∧ t = { s with host := rest, ibuf := t.ibuf } ∧
        t.ibuf.read a.toNat = some b ∧ ∀ c, c ≠ a.toNat → t.ibuf.read c = s.ibuf.read c) ∧
    (∀ a b, s.host = .writeIbuf a b :: rest → s.state = .busy →
      step s = .refused .ibufWriteWhileBusy)

/-- Host reads (R50, R52, R56, R73): STATUS reads CAUSE in bits 7:4, 0 in bits 3:2 and STATE in bits 1:0 at any time; while
not BUSY the other registers read their values, CTRL as 0, TAG[i] in bits 8i+7:8i; while BUSY only STATUS can be read; OBUF
gives its bytes below OLEN when STATE = DONE, and neither a byte at OLEN or above nor any byte in another state. That a read
outside its window is refused by name is log entry 11. -/
def Obligations.HostReadsWithinTheirWindows : Prop :=
  ∀ s : State,
    (s.statusWord.toNat = 16 * s.cause.code.toNat + s.state.code.toNat ∧
      hostRead .status s = .next (s.statusWord.setWidth 40)) ∧
    (s.state ≠ .busy → hostRead .ctrl s = .next 0 ∧ hostRead .inlen s = .next (s.inlen.setWidth 40) ∧
      hostRead .explen s = .next s.explen ∧ hostRead .olen s = .next s.olen ∧
      ∃ v, hostRead .tag s = .next v ∧ v.toNat = s.tag[0].toNat + 256 * s.tag[1].toNat
        + 65536 * s.tag[2].toNat + 16777216 * s.tag[3].toNat) ∧
    (s.state = .busy → ∀ r, r ≠ .status → hostRead r s = .refused .hostReadWindow) ∧
    (∀ a b, s.state = .done → a < s.olen.toNat → s.obuf.read a = some b →
      hostReadObuf a s = .next b) ∧
    (∀ a, s.state = .done → s.olen.toNat ≤ a → hostReadObuf a s = .refused .hostReadWindow) ∧
    (∀ a, s.state ≠ .done → hostReadObuf a s = .refused .hostReadWindow)

/-- Hardware reset (R215): asserted in any phase, it gives PHASE = IDLE, STATUS = 0x00, OLEN = INLEN = EXPLEN = 0. -/
def Obligations.HardwareResetFromAnyPhase : Prop :=
  ∀ (s : State) (rest : List HostEvent), s.host = .reset :: rest →
    ∃ t, step s = .next t ∧ t.phase = .idle ∧ t.statusWord = 0 ∧ t.olen = 0 ∧ t.inlen = 0 ∧
      t.explen = 0 ∧ t.host = rest

/-- The reset values that rule R59 states, in `State.reset`. -/
def Obligations.ResetValuesOfTheSpec : Prop :=
  State.reset.phase = .idle ∧ State.reset.statusWord = 0 ∧ State.reset.inlen = 0 ∧
    State.reset.explen = 0 ∧ State.reset.olen = 0

/-- The boot sequence (R175, R218): the host's moves load the input, INLEN and EXPLEN into a machine that is not BUSY, and
after them the next move is CTRL = 0x01. -/
def Obligations.BootSequenceLoadsTheInput : Prop :=
  ∀ (s : State) (buf : List Byte) (explen : BitVec 40), s.state ≠ .busy →
    buf.length ≤ Config.maxInlen → s.host = loadAndStart buf explen →
    ∃ t, runSteps (buf.length + 2) s = .next t ∧ ReadyToStart t buf explen

/-- withFetchWord makes the very next step run the operation of the table word, from any state (log entry 7). -/
def Obligations.WithFetchWordRunsTheOperation : Prop :=
  ∀ (s : State) (nbits w : Nat) (i : Instr), decodeTableWord nbits w = some i →
    step (s.withFetchWord nbits w) = exec i (placeOperation i s)

/-- Where a rule asks for an access that R62 or R58 (d) leaves undefined and names no cause, the operation stops by name
(log entry 8): Stage A's write beyond XLEN, a counter beyond XLEN or beyond entry 255, the expansion's write beyond TOTAL. -/
def Obligations.UndefinedAccessesStopByName : Prop :=
  ∀ s : State,
    (s.inlen.toNat - 4 ≤ s.xp.toNat → exec .mtfaKeep s = .fault .outsideXbuf ∧
      ∀ c, exec (.mtfaMove c) s = .fault .outsideXbuf) ∧
    (s.j.toNat < 256 → s.inlen.toNat - 4 ≤ 4 * s.j.toNat → exec .cntLd s = .fault .outsideXbuf) ∧
    (256 ≤ s.j.toNat → exec .cntLd s = .fault .tableIndex) ∧
    (256 ≤ s.k.toNat → exec .rankSel s = .fault .tableIndex) ∧
    (256 ≤ s.i.toNat → exec .introduce s = .fault .tableIndex) ∧
    (s.total.toNat ≤ s.op.toNat → exec .expRetire s = .fault .outsideObuf ∧
      exec .expStay s = .fault .outsideObuf ∧ ∀ idx, exec (.expDemote idx) s = .fault .outsideObuf)

/-! ### Invariants (R58, R62, R65, R156, R157, R174) -/

/-- The reset state meets the invariant. Its values that the spec leaves unspecified are log entries 2 and 3. -/
def Obligations.ResetMeetsTheInvariant : Prop := Inv State.reset

/-- Every step, of the sequencer or of the host, keeps the invariant, from every state that meets it (R58 and the state's
own rules; see `Inv`). For the host's reset move it rests on the model's choice of what R59 and R215 leave unspecified after
reset: the zeros of J, K, I, OP, TOTAL, CS and CE (`positions` and `cursors` speak of every phase, IDLE included), log entry
2, and the empty buffers, log entry 3. -/
def Obligations.EveryStepKeepsTheInvariant : Prop :=
  ∀ s t : State, Inv s → step s = .next t → Inv t

/-- No step of the sequencer stops: in every state that meets the invariant, with the input loaded and no host move
pending, a step answers a next state (R62, R89, R174: "no stuck non-quiescent state in the rules"). -/
def Obligations.SequencerNeverStops : Prop :=
  ∀ s : State, Inv s → InputLoaded s → s.host = [] → ∃ t, step s = .next t

/-- A byte once written to XBUF or OBUF is never overwritten during the same decode (R65, R48, R49). -/
def Obligations.WrittenBytesStay : Prop :=
  ∀ s t : State, Inv s → s.host = [] → step s = .next t →
    (∀ a v, s.xbuf.read a = some v → t.xbuf.read a = some v) ∧
    (∀ a v, s.obuf.read a = some v → t.obuf.read a = some v)

/-- The count identity of R157: the introductions and EXP.ENTER establish it, from cursors that are zero as START left
them, and every step of the expansion that stays in it keeps it. -/
def Obligations.CountIdentityIsKept : Prop :=
  (∀ s : State, RankedWithSlots s → s.cs = Table.zero → s.ce = Table.zero →
    ∃ t, runSteps (s.k.toNat + 1) s = .next t ∧ t.phase = .bExpand ∧ CountIdentity t) ∧
  ∀ s t : State, s.host = [] → s.phase = .bExpand → CountIdentity s → step s = .next t →
    t.phase = .bExpand → CountIdentity t

/-- The last iteration never fetches (R156): with one output byte due, the count identity makes the step EXP.RETIRE. -/
def Obligations.LastIterationRetires : Prop :=
  ∀ s : State, s.host = [] → s.phase = .bExpand → CountIdentity s →
    s.op.toNat + 1 = s.total.toNat → exhausted s = true ∧ step s = exec .expRetire s

/-! ### The functional view and its properties (R115 to R117, R178) -/

/-- Stage A inverts the forward move-to-front transform from the identity list (R116). -/
def Obligations.StageAInvertsMoveToFront : Prop :=
  ∀ xs : List Byte, Functional.stageA (Functional.mtfEncode xs) = xs

/-- An all-zero payload gives the seed again and again (R117). -/
def Obligations.AllZeroPayloadRepeatsTheSeed : Prop :=
  ∀ (seed : Byte) (n : Nat),
    Functional.stageA (seed :: List.replicate n 0) = List.replicate (n + 1) seed

/-- Stage A emits exactly as many bytes as it consumes symbols (R115). -/
def Obligations.StageAEmitsOneBytePerSymbol : Prop :=
  ∀ xs : List Byte, (Functional.stageA xs).length = xs.length

/-- The length invariant (R134, R178): a decode that does not fault gives, with no expected length, exactly as many bytes as
the counters sum to, and with one either that many or none. -/
def Obligations.ResultLengthIsTheCounterSum : Prop :=
  ∀ (buf out : List Byte) (e : Nat), Functional.decodeBuffer buf e = .data out →
    (e = 0 → out.length = exactSum (Functional.counters (Functional.stageA (buf.drop 4)))) ∧
    (out = [] ∨ out.length = exactSum (Functional.counters (Functional.stageA (buf.drop 4))))

/-! ### Whole phases and whole decodes (R102, R110, R130, R133, R173, R174, R177) -/

/-- The tag is not interpreted (R102): two machines that differ only in the tag stay so through every step, and answer the
same faults and refusals. -/
def Obligations.TagIsNotInterpreted : Prop :=
  ∀ s u : State, TagTwins s u →
    match step s, step u with
    | .next t, .next v => TagTwins t v
    | .fault r, .fault q => r = q
    | .refused r, .refused q => r = q
    | _, _ => False

/-- Successive decodes share nothing (R20, R177): START gives the same state from any two machines that are not BUSY and have
the same input, INLEN and EXPLEN. That the states agree in XBUF and OBUF too rests on log entry 3. -/
def Obligations.StartForgetsTheLastDecode : Prop :=
  ∀ s u : State, s.state ≠ .busy → u.state ≠ .busy → s.host = u.host → s.inlen = u.inlen →
    s.explen = u.explen → s.ibuf = u.ibuf → exec .start s = exec .start u

/-- Stage A as steps (R110, R114): from the start of A_RUN, XLEN steps leave in XBUF exactly the functional Stage A of the
seed and the payload. -/
def Obligations.StageAStepsComputeStageA : Prop :=
  ∀ (s : State) (buf : List Byte), s.host = [] → s.phase = .aRun → s.xp = 0 → s.t = Table.identity →
    s.xbuf = [] → 5 ≤ buf.length → s.inlen.toNat = buf.length → some s.seed = buf[4]? →
    (∀ a, a < buf.length → s.ibuf.read a = buf[a]?) →
    ∃ t, runSteps (buf.length - 4) s = .next t ∧ t.phase = .aRun ∧ t.xp.toNat = t.xlen ∧
      t.inlen = s.inlen ∧ ∀ a, t.xbuf.read a = (Functional.stageA (buf.drop 4))[a]?

/-- The ranking (R130): from the start of B_RANK, K + 1 steps open B_BUILD with ORDER[0, K) listing exactly the symbols with
a non-zero counter, each once, by descending counter and then ascending symbol. -/
def Obligations.RankingSortsTheSymbols : Prop :=
  ∀ s : State, s.host = [] → s.phase = .bRank → s.k = 0 → s.rem = s.freq →
    ∃ t, runSteps (t.k.toNat + 1) s = .next t ∧ t.phase = .bBuild ∧ t.freq = s.freq ∧
      t.k.toNat = countNonzero s.freq ∧
      (∀ b, s.freq.entry b ≠ 0 ↔ ∃ n, n < t.k.toNat ∧ t.order.entry (BitVec.ofNat 8 n) = b) ∧
      ∀ m n, m < n → n < t.k.toNat →
        s.freq.entry (t.order.entry (BitVec.ofNat 8 n)) < s.freq.entry (t.order.entry (BitVec.ofNat 8 m)) ∨
        (s.freq.entry (t.order.entry (BitVec.ofNat 8 n)) = s.freq.entry (t.order.entry (BitVec.ofNat 8 m)) ∧
          t.order.entry (BitVec.ofNat 8 m) < t.order.entry (BitVec.ofNat 8 n))

/-- The introductions (R133): from the start of B_BUILD with distinct ranked symbols whose SLOT bytes are all inside XBUF,
K + 1 steps open the expansion with M = 1024 + TOTAL; window n is [1024 + w(n), 1024 + w(n+1)), w being the sum of the counters
ranked before, and the cursor of its symbol is that window less its first byte. -/
def Obligations.IntroductionsLayTheWindows : Prop :=
  ∀ s : State, RankedWithSlots s →
    ∃ t, runSteps (s.k.toNat + 1) s = .next t ∧ t.phase = .bExpand ∧
      t.m.toNat = 1024 + s.total.toNat ∧
      ∀ n, n < s.k.toNat →
        (t.cs.entry (s.order.entry (BitVec.ofNat 8 n))).toNat
          = 1024 + windowSum s.freq s.order n + 1 ∧
        (t.ce.entry (s.order.entry (BitVec.ofNat 8 n))).toNat
          = 1024 + windowSum s.freq s.order (n + 1) ∧
        (t.ce.entry (s.order.entry (BitVec.ofNat 8 n))).toNat
          - (t.cs.entry (s.order.entry (BitVec.ofNat 8 n))).toNat
          = (s.freq.entry (s.order.entry (BitVec.ofNat 8 n))).toNat - 1

/-- Refinement (R173): from a machine with the input loaded whose next move is CTRL = 0x01, the steps take that move and then
reach a quiescent phase, and what is observable there is exactly `Decode(buf, E)` of rule R171. -/
def Obligations.StepMachineRefinesDecode : Prop :=
  ∀ (s : State) (buf : List Byte) (explen : BitVec 40), ReadyToStart s buf explen →
    ∃ n t, runSteps n s = .next t ∧ 1 ≤ n ∧ t.host = [] ∧
      observe t = some (Functional.decodeBuffer buf explen.toNat)

/-- Termination (R174): such a run takes START (the CTRL move is gone) and is in DONE or FAULT after it and at most
1 + XLEN + 1 + 256 + 1 + (K + 1) + (K + 1) + TOTAL + 1 steps of the sequencer, K ≤ 256 being the number of symbols with a
non-zero counter. -/
def Obligations.EveryDecodeEndsWithinItsBound : Prop :=
  ∀ (s : State) (buf : List Byte) (explen : BitVec 40), ReadyToStart s buf explen →
    ∃ n t k, runSteps n s = .next t ∧ 1 ≤ n ∧ t.host = [] ∧ (t.phase = .done ∨ t.phase = .fault) ∧
      k = countNonzero t.freq ∧ k ≤ 256 ∧
      n ≤ 1 + (1 + (buf.length - 4) + 1 + 256 + 1 + (k + 1) + (k + 1) + t.total.toNat + 1)

/-- The parameter MAX_INLEN lies in its range (D4), and in that range the width of TOTAL cannot show (R26, D5): an input whose
counters sum to 2^32 or more produces no output, but cause 3, or the empty mismatch when EXPLEN disagrees. -/
def Obligations.LargeSumsGiveNoOutput : Prop :=
  (5 ≤ Config.maxInlen ∧ Config.maxInlen ≤ 2 ^ 31 + 1027) ∧
  ∀ (buf : List Byte) (e sum : Nat), 1028 ≤ buf.length → buf.length ≤ 2 ^ 31 + 1027 →
    sum = exactSum (Functional.counters (Functional.stageA (buf.drop 4))) → 2 ^ 32 ≤ sum →
    Functional.decodeBuffer buf e = if e ≠ 0 ∧ e ≠ sum then .data [] else .fault .slot
end

