-- ==== Sys2Proof/Laws/Config.lean ====
section
/-! SUPPORT. All that is known of the parameter MAX_INLEN: its range. -/

namespace Sys2Proof

theorem Config.five_le_maxInlen : 5 ≤ Config.maxInlen := Nat.le_add_right _ _

theorem Config.maxInlen_le : Config.maxInlen ≤ 2 ^ 31 + 1027 := by
  have := Config.maxInlenMargin.isLt
  unfold Config.maxInlen Config.envelopeBytes
  omega

/-- Every admitted length fits INLEN's 32 bits. -/
theorem Config.maxInlen_lt : Config.maxInlen < 2 ^ 32 := by
  have := Config.maxInlen_le
  omega

end Sys2Proof
end

