-- ==== Sys2Proof/Laws/Table.lean ====
section
/-! SUPPORT. The laws of the 256-entry tables. -/

namespace Sys2Proof

theorem Table.entry_setEntry {α : Type} (t : Table α) (b c : Byte) (v : α) :
    (t.setEntry b v).entry c = if c = b then v else t.entry c := by
  unfold Table.setEntry Table.entry
  rw [Vector.getElem_set]
  by_cases h : c = b
  · simp [h]
  · have : b.toNat ≠ c.toNat := fun e => h (BitVec.eq_of_toNat_eq e.symm)
    simp [h, this]

@[simp] theorem Table.entry_setEntry_same {α : Type} (t : Table α) (b : Byte) (v : α) :
    (t.setEntry b v).entry b = v := by
  simp [Table.entry_setEntry]

theorem Table.entry_setEntry_other {α : Type} (t : Table α) {b c : Byte} (v : α) (h : c ≠ b) :
    (t.setEntry b v).entry c = t.entry c := by
  simp [Table.entry_setEntry, h]

@[simp] theorem Table.entry_tabulate {α : Type} (f : Byte → α) (b : Byte) :
    (Table.tabulate f).entry b = f b := by
  simp [Table.tabulate, Table.entry]

@[simp] theorem Table.entry_identity (b : Byte) : Table.identity.entry b = b := by
  simp [Table.identity]

@[simp] theorem Table.entry_zero {w : Nat} (b : Byte) : (Table.zero : Table (BitVec w)).entry b = 0 := by
  simp [Table.zero, Table.entry]

/-- Two tables with the same entries are the same table. -/
theorem Table.ext_entry {α : Type} {t u : Table α} (h : ∀ b, t.entry b = u.entry b) : t = u := by
  apply Vector.ext
  intro n hn
  have := h (BitVec.ofNat 8 n)
  simpa [Table.entry, Nat.mod_eq_of_lt hn] using this

@[simp] theorem Table.setEntry_entry {α : Type} (t : Table α) (b : Byte) :
    t.setEntry b (t.entry b) = t := by
  apply Table.ext_entry
  intro c
  rw [Table.entry_setEntry]
  split
  · next h => rw [h]
  · rfl

/-- The entries of a table, as a list, are its values at the 256 bytes. -/
theorem Table.mem_toList {α : Type} {t : Table α} {v : α} : v ∈ t.toList ↔ ∃ b, t.entry b = v := by
  constructor
  · intro h
    obtain ⟨n, hn, e⟩ := List.getElem_of_mem h
    have hn' : n < 256 := by simpa using hn
    refine ⟨BitVec.ofNat 8 n, ?_⟩
    simpa [Table.entry, Nat.mod_eq_of_lt hn'] using e
  · rintro ⟨b, rfl⟩
    simp [Table.entry]

theorem Table.toList_eq_map {α : Type} (t : Table α) :
    t.toList = (List.range 256).map fun n => t.entry (BitVec.ofNat 8 n) := by
  apply List.ext_getElem
  · simp
  · intro n h1 h2
    have hn : n < 256 := by simpa using h1
    simp [Table.entry, Nat.mod_eq_of_lt hn]

end Sys2Proof
end

