-- ==== Sys2Proof/Laws/Counters.lean ====
section
/-! SUPPORT. The laws of the counter tables: their exact sum, the number of their non-zero entries, the selection scan,
and the window sums. -/

namespace Sys2Proof.Machine

/-- The exact sum of a counter table is below 2^40 (R26). -/
theorem total_lt (f : Table (BitVec 32)) : Functional.total f < 2 ^ 40 := by
  have h : ∀ l : List (BitVec 32), (l.map BitVec.toNat).sum ≤ l.length * (2 ^ 32 - 1) := by
    intro l
    induction l with
    | nil => simp
    | cons c l ih =>
      simp only [List.map_cons, List.sum_cons, List.length_cons]
      have := c.isLt
      omega
  have := h f.toList
  have hl : f.toList.length = 256 := by simp
  unfold Functional.total
  rw [hl] at this
  omega

/-- TOTAL holds the exact sum: nothing wraps (R26). -/
theorem sumCounters_toNat (f : Table (BitVec 32)) : (sumCounters f).toNat = Functional.total f := by
  have h : ∀ (l : List (BitVec 32)) (acc : BitVec 40), acc.toNat + (l.map BitVec.toNat).sum < 2 ^ 40 →
      (l.foldl (fun acc c => acc + c.setWidth 40) acc).toNat = acc.toNat + (l.map BitVec.toNat).sum := by
    intro l
    induction l with
    | nil => simp
    | cons c l ih =>
      intro acc hs
      simp only [List.map_cons, List.sum_cons] at hs
      have hc : (acc + c.setWidth 40).toNat = acc.toNat + c.toNat := by
        have := c.isLt
        rw [BitVec.toNat_add, BitVec.toNat_setWidth, Nat.mod_eq_of_lt (a := c.toNat) (by omega)]
        exact Nat.mod_eq_of_lt (by omega)
      simp only [List.foldl_cons, List.map_cons, List.sum_cons]
      rw [ih _ (by omega), hc]
      omega
  have hlt := total_lt f
  unfold sumCounters
  rw [h _ _ (by simpa [Functional.total] using hlt)]
  simp [Functional.total]

theorem sum_set (l : List Nat) (n : Nat) (hn : n < l.length) (v : Nat) :
    (l.set n v).sum + l[n] = l.sum + v := by
  induction l generalizing n with
  | nil => simp at hn
  | cons a l ih =>
    cases n with
    | zero => simp; omega
    | succ n =>
      have := ih n (by simpa using hn)
      simp only [List.set_cons_succ, List.sum_cons, List.getElem_cons_succ]
      omega

/-- Setting one counter changes the sum by that counter. -/
theorem total_setEntry (f : Table (BitVec 32)) (b : Byte) (v : BitVec 32) :
    Functional.total (f.setEntry b v) + (f.entry b).toNat = Functional.total f + v.toNat := by
  unfold Functional.total Table.setEntry Table.entry
  rw [Vector.toList_set, List.map_set]
  have hb : b.toNat < (f.toList.map BitVec.toNat).length := by simpa using b.isLt
  have := sum_set (f.toList.map BitVec.toNat) b.toNat hb v.toNat
  simpa using this

/-- Setting one counter changes the number of non-zero counters by at most that one. -/
theorem countNonzero_setEntry_zero (f : Table (BitVec 32)) (b : Byte) (h : f.entry b ≠ 0) :
    countNonzero (f.setEntry b 0) + 1 = countNonzero f := by
  have key : ∀ (l : List (BitVec 32)) (n : Nat) (hn : n < l.length), l[n] ≠ 0 →
      (l.set n 0).countP (· != 0) + 1 = l.countP (· != 0) := by
    intro l
    induction l with
    | nil => intro n hn; simp at hn
    | cons a l ih =>
      intro n hn h0
      cases n with
      | zero => simp at h0; simp [h0]
      | succ n =>
        have := ih n (by simpa using hn) (by simpa using h0)
        simp only [List.set_cons_succ, List.countP_cons]
        omega
  unfold countNonzero Table.setEntry
  rw [Vector.toList_set]
  exact key f.toList b.toNat (by simpa using b.isLt) (by simpa [Table.entry] using h)

theorem countNonzero_le (f : Table (BitVec 32)) : countNonzero f ≤ 256 := by
  have := List.countP_le_length (p := (· != 0)) (l := f.toList)
  simpa [countNonzero] using this

/-- ANY says that some entry of REM is not 0 (R37). -/
theorem anyRemaining_iff {s : State} : anyRemaining s = true ↔ ∃ b, s.rem.entry b ≠ 0 := by
  unfold anyRemaining
  rw [List.any_eq_true]
  constructor
  · rintro ⟨v, hv, h⟩
    obtain ⟨b, rfl⟩ := Table.mem_toList.1 hv
    exact ⟨b, by simpa using h⟩
  · rintro ⟨b, h⟩
    exact ⟨_, Table.mem_toList.2 ⟨b, rfl⟩, by simpa using h⟩

theorem countNonzero_pos {f : Table (BitVec 32)} {b : Byte} (h : f.entry b ≠ 0) : 0 < countNonzero f :=
  List.countP_pos_iff.2 ⟨_, Table.mem_toList.2 ⟨b, rfl⟩, by simpa using h⟩

theorem total_eq_zero {f : Table (BitVec 32)} (h : ∀ b, f.entry b = 0) : Functional.total f = 0 := by
  unfold Functional.total
  rw [List.sum_eq_zero_iff]
  intro n hn
  obtain ⟨v, hv, rfl⟩ := List.mem_map.1 hn
  obtain ⟨b, rfl⟩ := Table.mem_toList.1 hv
  simp [h b]

theorem entry_le_total (f : Table (BitVec 32)) (b : Byte) : (f.entry b).toNat ≤ Functional.total f := by
  have := total_setEntry f b 0
  simp at this
  omega

theorem foldl_max_spec (l : List (BitVec 32)) (a : BitVec 32) :
    let r := l.foldl (fun mx c => if mx < c then c else mx) a
    (r = a ∨ r ∈ l) ∧ a ≤ r ∧ ∀ c ∈ l, c ≤ r := by
  induction l generalizing a with
  | nil => simp
  | cons c l ih =>
    obtain ⟨h1, h2, h3⟩ := ih (if a < c then c else a)
    simp only [List.foldl_cons]
    have hac : a ≤ (if a < c then c else a) ∧ c ≤ (if a < c then c else a) := by
      split
      · next h => exact ⟨BitVec.le_of_lt h, BitVec.le_refl c⟩
      · next h => exact ⟨BitVec.le_refl a, BitVec.not_lt.1 h⟩
    refine ⟨?_, BitVec.le_trans hac.1 h2, ?_⟩
    · rcases h1 with h1 | h1
      · rw [h1]
        split
        · exact .inr (by simp)
        · exact .inl rfl
      · exact .inr (by simp [h1])
    · intro d hd
      rcases List.mem_cons.1 hd with rfl | hd
      · exact BitVec.le_trans hac.2 h2
      · exact h3 d hd

/-- No counter is above the maximum (R128). -/
theorem entry_le_maxCounter (rem : Table (BitVec 32)) (b : Byte) : rem.entry b ≤ maxCounter rem :=
  (foldl_max_spec rem.toList 0).2.2 _ (Table.mem_toList.2 ⟨b, rfl⟩)

/-- The scan picks a symbol whose counter is the maximum (R128). -/
theorem entry_selectSymbol (rem : Table (BitVec 32)) : rem.entry (selectSymbol rem) = maxCounter rem := by
  have hex : ∃ x ∈ rem.toList, (x == maxCounter rem) = true := by
    rcases (foldl_max_spec rem.toList 0).1 with h | h
    · refine ⟨rem.entry 0, Table.mem_toList.2 ⟨0, rfl⟩, ?_⟩
      have h1 := entry_le_maxCounter rem 0
      have h0 : maxCounter rem = 0 := h
      rw [h0] at h1 ⊢
      have h2 : (rem.entry 0).toNat ≤ (0 : BitVec 32).toNat := h1
      exact beq_iff_eq.2 (BitVec.eq_of_toNat_eq (Nat.le_zero.1 h2))
    · exact ⟨_, h, by simp [maxCounter]⟩
  have hlt := List.findIdx_lt_length_of_exists hex
  have hlen : rem.toList.length = 256 := by simp
  have he : rem.toList[rem.toList.findIdx (· == maxCounter rem)]'hlt = maxCounter rem := by
    have := List.findIdx_getElem (p := (· == maxCounter rem)) (xs := rem.toList) (w := hlt)
    simpa using this
  rw [hlen] at hlt
  have hn : (BitVec.ofNat 8 (rem.toList.findIdx (· == maxCounter rem))).toNat
      = rem.toList.findIdx (· == maxCounter rem) := by
    simp only [BitVec.toNat_ofNat]
    exact Nat.mod_eq_of_lt hlt
  have hs : (selectSymbol rem).toNat = rem.toList.findIdx (· == maxCounter rem) := hn
  calc rem.entry (selectSymbol rem)
      = rem.toList[(selectSymbol rem).toNat]'(by rw [hlen]; exact (selectSymbol rem).isLt) := by simp [Table.entry]
    _ = rem.toList[rem.toList.findIdx (· == maxCounter rem)]'(by rw [hlen]; exact hlt) := by
        simp only [hs]
    _ = maxCounter rem := he

/-- A smaller symbol has a smaller counter: ties go to the smaller symbol (R128, R227). -/
theorem lt_maxCounter_of_lt_selectSymbol (rem : Table (BitVec 32)) (b : Byte) (h : b < selectSymbol rem) :
    rem.entry b < maxCounter rem := by
  have hb : b.toNat < rem.toList.findIdx (· == maxCounter rem) := by
    have h1 : b.toNat < (selectSymbol rem).toNat := h
    have h2 : (selectSymbol rem).toNat ≤ rem.toList.findIdx (· == maxCounter rem) := by
      unfold selectSymbol
      simp only [BitVec.toNat_ofNat]
      exact Nat.mod_le _ _
    omega
  have hne := List.not_of_lt_findIdx hb
  have hle := entry_le_maxCounter rem b
  have : rem.entry b ≠ maxCounter rem := by
    intro e
    simp [Table.entry] at e hne
    exact hne e
  have hle' : (rem.entry b).toNat ≤ (maxCounter rem).toNat := hle
  have hne' : (rem.entry b).toNat ≠ (maxCounter rem).toNat := fun e => this (BitVec.eq_of_toNat_eq e)
  have : (rem.entry b).toNat < (maxCounter rem).toNat := by omega
  exact this

/-- With a counter left, the scan picks a symbol whose counter is not 0. -/
theorem entry_selectSymbol_ne_zero {rem : Table (BitVec 32)} {b : Byte} (h : rem.entry b ≠ 0) :
    rem.entry (selectSymbol rem) ≠ 0 := by
  rw [entry_selectSymbol]
  intro e
  have := entry_le_maxCounter rem b
  rw [e] at this
  have h2 : (rem.entry b).toNat ≤ (0 : BitVec 32).toNat := this
  exact h (BitVec.eq_of_toNat_eq (Nat.le_zero.1 h2))

theorem windowSum_succ (freq : Table (BitVec 32)) (order : Table Byte) (n : Nat) :
    windowSum freq order (n + 1)
      = windowSum freq order n + (freq.entry (order.entry (BitVec.ofNat 8 n))).toNat := rfl

theorem windowSum_mono (freq : Table (BitVec 32)) (order : Table Byte) {a b : Nat} (h : a ≤ b) :
    windowSum freq order a ≤ windowSum freq order b := by
  induction h with
  | refl => exact Nat.le_refl _
  | step _ ih => rw [windowSum_succ]; omega

/-- An entry of the ranked order at or beyond n does not enter the sum of the first n windows. -/
theorem windowSum_setEntry (freq : Table (BitVec 32)) (order : Table Byte) (k : Byte) (v : Byte) {n : Nat}
    (h : n ≤ k.toNat) : windowSum freq (order.setEntry k v) n = windowSum freq order n := by
  induction n with
  | zero => rfl
  | succ n ih =>
    rw [windowSum_succ, windowSum_succ, ih (by omega), Table.entry_setEntry_other]
    intro e
    have := congrArg BitVec.toNat e
    have hk := k.isLt
    simp only [BitVec.toNat_ofNat] at this
    omega

end Sys2Proof.Machine
end

