-- ==== Sys2Proof/Laws/Decode.lean ====
section
/-! SUPPORT. What the decoder answers on the dispatch words that rule R87 forms, phase by phase. -/

namespace Sys2Proof

-- One theorem at a time, as in Tests/Slice0.lean: a waiting `decide +kernel` holds a thread and its stack.
set_option Elab.async false

theorem decodeDispatch_hdr : ∀ b, decodeDispatch (DW.form .hdr false false b) = .ok .hdrRd := by
  decide +kernel

theorem decodeDispatch_aRun_keep : decodeDispatch (DW.form .aRun false true 0) = .ok .mtfaKeep := by
  decide +kernel

theorem decodeDispatch_aRun_move :
    ∀ c, c ≠ 0 → decodeDispatch (DW.form .aRun false true c) = .ok (.mtfaMove c) := by
  decide +kernel

theorem decodeDispatch_aRun_end : ∀ b, decodeDispatch (DW.form .aRun false false b) = .ok .aEnd := by
  decide +kernel

theorem decodeDispatch_bParse : ∀ b, decodeDispatch (DW.form .bParse false false b) = .ok .cntLd := by
  decide +kernel

theorem decodeDispatch_bSum : ∀ b, decodeDispatch (DW.form .bSum false false b) = .ok .lenChk := by
  decide +kernel

theorem decodeDispatch_bRank_sel :
    ∀ b, decodeDispatch (DW.form .bRank false true b) = .ok .rankSel := by
  decide +kernel

theorem decodeDispatch_bRank_end :
    ∀ b, decodeDispatch (DW.form .bRank false false b) = .ok .rankEnd := by
  decide +kernel

theorem decodeDispatch_bBuild_intro :
    ∀ b, decodeDispatch (DW.form .bBuild false true b) = .ok .introduce := by
  decide +kernel

theorem decodeDispatch_bBuild_enter :
    ∀ b, decodeDispatch (DW.form .bBuild false false b) = .ok .expEnter := by
  decide +kernel

theorem decodeDispatch_bExpand_retire :
    ∀ b, decodeDispatch (DW.form .bExpand true true b) = .ok .expRetire := by
  decide +kernel

theorem decodeDispatch_bExpand_stay :
    decodeDispatch (DW.form .bExpand false true 0) = .ok .expStay := by
  decide +kernel

theorem decodeDispatch_bExpand_demote :
    ∀ b, b ≠ 0 → decodeDispatch (DW.form .bExpand false true b) = .ok (.expDemote b) := by
  decide +kernel

theorem decodeDispatch_bExpand_done :
    ∀ b, decodeDispatch (DW.form .bExpand false false b) = .ok .expDone := by
  decide +kernel

/-- A row does not match a word whose fixed bits contradict the row's. -/
theorem Row.accepts_eq_false {r : Row} {w mask value : DW} (h : w &&& mask = value)
    (hc : value &&& r.mask ≠ r.pattern &&& mask) : r.accepts w = false := by
  unfold Row.accepts
  rw [beq_eq_false_iff_ne]
  intro e
  apply hc
  rw [← h, ← e, BitVec.and_assoc, BitVec.and_assoc, BitVec.and_comm mask]

end Sys2Proof
end

