-- ==== Sys2Proof/Laws/Memory.lean ====
section
/-! SUPPORT. The laws of the byte buffers: a read after a write, and the canonical form. -/

namespace Sys2Proof.Machine

@[simp] theorem Memory.read_nil (a : Nat) : Memory.read [] a = none := rfl

/-- A read after a write: the written byte at its address, every other address as before. -/
theorem Memory.read_write (m : Memory) (a c : Nat) (v : Byte) :
    (m.write a v).read c = if c = a then some v else m.read c := by
  induction m with
  | nil => simp [Memory.write, Memory.read]
  | cons p rest ih =>
    obtain ⟨b, w⟩ := p
    unfold Memory.write
    split
    · simp [Memory.read]
    · split
      · next h => subst h; by_cases hc : c = a <;> simp [Memory.read, hc]
      · next h1 h2 =>
        simp only [Memory.read, ih]
        by_cases hc : c = b
        · have : b ≠ a := fun e => h2 e.symm
          simp [hc, this]
        · simp [hc]

@[simp] theorem Memory.read_write_same (m : Memory) (a : Nat) (v : Byte) :
    (m.write a v).read a = some v := by
  simp [Memory.read_write]

theorem Memory.read_write_other (m : Memory) {a c : Nat} (v : Byte) (h : c ≠ a) :
    (m.write a v).read c = m.read c := by
  simp [Memory.read_write, h]

theorem Memory.mem_keys_write {m : Memory} {a c : Nat} {v : Byte}
    (h : c ∈ (m.write a v).map Prod.fst) : c = a ∨ c ∈ m.map Prod.fst := by
  induction m with
  | nil => simpa [Memory.write] using h
  | cons p rest ih =>
    obtain ⟨b, w⟩ := p
    unfold Memory.write at h
    split at h
    · simpa using h
    · split at h
      · simp only [List.map_cons, List.mem_cons] at h ⊢
        exact h.imp_right Or.inr
      · simp only [List.map_cons, List.mem_cons] at h ⊢
        rcases h with h | h
        · exact .inr (.inl h)
        · exact (ih h).imp_right Or.inr

/-- The empty buffer is in canonical form. -/
theorem Memory.wf_nil : Memory.wf [] := List.Pairwise.nil

/-- A write keeps the canonical form. -/
theorem Memory.wf_write {m : Memory} (h : m.wf) (a : Nat) (v : Byte) : (m.write a v).wf := by
  induction m with
  | nil => simp [Memory.write, Memory.wf]
  | cons p rest ih =>
    obtain ⟨b, w⟩ := p
    simp only [Memory.wf, List.map_cons, List.pairwise_cons] at h
    obtain ⟨hb, hr⟩ := h
    unfold Memory.write
    split
    · next hab =>
      simp only [Memory.wf, List.map_cons, List.pairwise_cons]
      refine ⟨?_, hb, hr⟩
      intro c hc
      rcases List.mem_cons.1 hc with rfl | hc
      · exact hab
      · exact Nat.lt_trans hab (hb c hc)
    · split
      · next h1 h2 =>
        simp only [Memory.wf, List.map_cons, List.pairwise_cons]
        exact ⟨h2 ▸ hb, hr⟩
      · next h1 h2 =>
        simp only [Memory.wf, List.map_cons, List.pairwise_cons]
        refine ⟨?_, ih hr⟩
        intro c hc
        rcases Memory.mem_keys_write hc with rfl | hc
        · omega
        · exact hb c hc

/-- The buffers of the reset state are in canonical form. -/
theorem Memory.wf_reset :
    State.reset.ibuf.wf ∧ State.reset.xbuf.wf ∧ State.reset.obuf.wf :=
  ⟨Memory.wf_nil, Memory.wf_nil, Memory.wf_nil⟩

end Sys2Proof.Machine
end

