-- ==== Sys2Proof/Laws/State.lean ====
section
/-! SUPPORT. One lemma per field per named update of the state, true by rfl. A field update written as a record
update needs none: simp reduces it by itself. -/

namespace Sys2Proof.Machine

@[simp] theorem raiseTruncated_host (c : Cause) (s : State) : (raiseTruncated c s).host = s.host := rfl
@[simp] theorem raiseTruncated_phase (c : Cause) (s : State) : (raiseTruncated c s).phase = .fault := rfl
@[simp] theorem raiseTruncated_state (c : Cause) (s : State) : (raiseTruncated c s).state = .fault := rfl
@[simp] theorem raiseTruncated_cause (c : Cause) (s : State) : (raiseTruncated c s).cause = c := rfl
@[simp] theorem raiseTruncated_inlen (c : Cause) (s : State) : (raiseTruncated c s).inlen = s.inlen := rfl
@[simp] theorem raiseTruncated_explen (c : Cause) (s : State) : (raiseTruncated c s).explen = s.explen := rfl
@[simp] theorem raiseTruncated_olen (c : Cause) (s : State) : (raiseTruncated c s).olen = 0 := rfl
@[simp] theorem raiseTruncated_tag (c : Cause) (s : State) : (raiseTruncated c s).tag = s.tag := rfl
@[simp] theorem raiseTruncated_seed (c : Cause) (s : State) : (raiseTruncated c s).seed = s.seed := rfl
@[simp] theorem raiseTruncated_xp (c : Cause) (s : State) : (raiseTruncated c s).xp = s.xp := rfl
@[simp] theorem raiseTruncated_j (c : Cause) (s : State) : (raiseTruncated c s).j = s.j := rfl
@[simp] theorem raiseTruncated_total (c : Cause) (s : State) : (raiseTruncated c s).total = s.total := rfl
@[simp] theorem raiseTruncated_k (c : Cause) (s : State) : (raiseTruncated c s).k = s.k := rfl
@[simp] theorem raiseTruncated_i (c : Cause) (s : State) : (raiseTruncated c s).i = s.i := rfl
@[simp] theorem raiseTruncated_m (c : Cause) (s : State) : (raiseTruncated c s).m = s.m := rfl
@[simp] theorem raiseTruncated_val (c : Cause) (s : State) : (raiseTruncated c s).val = s.val := rfl
@[simp] theorem raiseTruncated_op (c : Cause) (s : State) : (raiseTruncated c s).op = s.op := rfl
@[simp] theorem raiseTruncated_t (c : Cause) (s : State) : (raiseTruncated c s).t = s.t := rfl
@[simp] theorem raiseTruncated_freq (c : Cause) (s : State) : (raiseTruncated c s).freq = s.freq := rfl
@[simp] theorem raiseTruncated_rem (c : Cause) (s : State) : (raiseTruncated c s).rem = s.rem := rfl
@[simp] theorem raiseTruncated_order (c : Cause) (s : State) : (raiseTruncated c s).order = s.order := rfl
@[simp] theorem raiseTruncated_rl (c : Cause) (s : State) : (raiseTruncated c s).rl = s.rl := rfl
@[simp] theorem raiseTruncated_cs (c : Cause) (s : State) : (raiseTruncated c s).cs = s.cs := rfl
@[simp] theorem raiseTruncated_ce (c : Cause) (s : State) : (raiseTruncated c s).ce = s.ce := rfl
@[simp] theorem raiseTruncated_ibuf (c : Cause) (s : State) : (raiseTruncated c s).ibuf = s.ibuf := rfl
@[simp] theorem raiseTruncated_xbuf (c : Cause) (s : State) : (raiseTruncated c s).xbuf = s.xbuf := rfl
@[simp] theorem raiseTruncated_obuf (c : Cause) (s : State) : (raiseTruncated c s).obuf = s.obuf := rfl

@[simp] theorem finish_host (n : BitVec 40) (s : State) : (finish n s).host = s.host := rfl
@[simp] theorem finish_phase (n : BitVec 40) (s : State) : (finish n s).phase = .done := rfl
@[simp] theorem finish_state (n : BitVec 40) (s : State) : (finish n s).state = .done := rfl
@[simp] theorem finish_cause (n : BitVec 40) (s : State) : (finish n s).cause = s.cause := rfl
@[simp] theorem finish_inlen (n : BitVec 40) (s : State) : (finish n s).inlen = s.inlen := rfl
@[simp] theorem finish_explen (n : BitVec 40) (s : State) : (finish n s).explen = s.explen := rfl
@[simp] theorem finish_olen (n : BitVec 40) (s : State) : (finish n s).olen = n := rfl
@[simp] theorem finish_tag (n : BitVec 40) (s : State) : (finish n s).tag = s.tag := rfl
@[simp] theorem finish_seed (n : BitVec 40) (s : State) : (finish n s).seed = s.seed := rfl
@[simp] theorem finish_xp (n : BitVec 40) (s : State) : (finish n s).xp = s.xp := rfl
@[simp] theorem finish_j (n : BitVec 40) (s : State) : (finish n s).j = s.j := rfl
@[simp] theorem finish_total (n : BitVec 40) (s : State) : (finish n s).total = s.total := rfl
@[simp] theorem finish_k (n : BitVec 40) (s : State) : (finish n s).k = s.k := rfl
@[simp] theorem finish_i (n : BitVec 40) (s : State) : (finish n s).i = s.i := rfl
@[simp] theorem finish_m (n : BitVec 40) (s : State) : (finish n s).m = s.m := rfl
@[simp] theorem finish_val (n : BitVec 40) (s : State) : (finish n s).val = s.val := rfl
@[simp] theorem finish_op (n : BitVec 40) (s : State) : (finish n s).op = s.op := rfl
@[simp] theorem finish_t (n : BitVec 40) (s : State) : (finish n s).t = s.t := rfl
@[simp] theorem finish_freq (n : BitVec 40) (s : State) : (finish n s).freq = s.freq := rfl
@[simp] theorem finish_rem (n : BitVec 40) (s : State) : (finish n s).rem = s.rem := rfl
@[simp] theorem finish_order (n : BitVec 40) (s : State) : (finish n s).order = s.order := rfl
@[simp] theorem finish_rl (n : BitVec 40) (s : State) : (finish n s).rl = s.rl := rfl
@[simp] theorem finish_cs (n : BitVec 40) (s : State) : (finish n s).cs = s.cs := rfl
@[simp] theorem finish_ce (n : BitVec 40) (s : State) : (finish n s).ce = s.ce := rfl
@[simp] theorem finish_ibuf (n : BitVec 40) (s : State) : (finish n s).ibuf = s.ibuf := rfl
@[simp] theorem finish_xbuf (n : BitVec 40) (s : State) : (finish n s).xbuf = s.xbuf := rfl
@[simp] theorem finish_obuf (n : BitVec 40) (s : State) : (finish n s).obuf = s.obuf := rfl

@[simp] theorem perDecodeInit_host (s : State) : (perDecodeInit s).host = s.host := rfl
@[simp] theorem perDecodeInit_phase (s : State) : (perDecodeInit s).phase = .hdr := rfl
@[simp] theorem perDecodeInit_state (s : State) : (perDecodeInit s).state = .busy := rfl
@[simp] theorem perDecodeInit_cause (s : State) : (perDecodeInit s).cause = .none := rfl
@[simp] theorem perDecodeInit_inlen (s : State) : (perDecodeInit s).inlen = s.inlen := rfl
@[simp] theorem perDecodeInit_explen (s : State) : (perDecodeInit s).explen = s.explen := rfl
@[simp] theorem perDecodeInit_olen (s : State) : (perDecodeInit s).olen = 0 := rfl
@[simp] theorem perDecodeInit_tag (s : State) : (perDecodeInit s).tag = Vector.replicate 4 0 := rfl
@[simp] theorem perDecodeInit_seed (s : State) : (perDecodeInit s).seed = 0 := rfl
@[simp] theorem perDecodeInit_xp (s : State) : (perDecodeInit s).xp = 0 := rfl
@[simp] theorem perDecodeInit_j (s : State) : (perDecodeInit s).j = 0 := rfl
@[simp] theorem perDecodeInit_total (s : State) : (perDecodeInit s).total = 0 := rfl
@[simp] theorem perDecodeInit_k (s : State) : (perDecodeInit s).k = 0 := rfl
@[simp] theorem perDecodeInit_i (s : State) : (perDecodeInit s).i = 0 := rfl
@[simp] theorem perDecodeInit_m (s : State) : (perDecodeInit s).m = 0 := rfl
@[simp] theorem perDecodeInit_val (s : State) : (perDecodeInit s).val = 0 := rfl
@[simp] theorem perDecodeInit_op (s : State) : (perDecodeInit s).op = 0 := rfl
@[simp] theorem perDecodeInit_t (s : State) : (perDecodeInit s).t = Table.identity := rfl
@[simp] theorem perDecodeInit_freq (s : State) : (perDecodeInit s).freq = Table.zero := rfl
@[simp] theorem perDecodeInit_rem (s : State) : (perDecodeInit s).rem = Table.zero := rfl
@[simp] theorem perDecodeInit_order (s : State) : (perDecodeInit s).order = Table.zero := rfl
@[simp] theorem perDecodeInit_rl (s : State) : (perDecodeInit s).rl = Table.identity := rfl
@[simp] theorem perDecodeInit_cs (s : State) : (perDecodeInit s).cs = Table.zero := rfl
@[simp] theorem perDecodeInit_ce (s : State) : (perDecodeInit s).ce = Table.zero := rfl
@[simp] theorem perDecodeInit_ibuf (s : State) : (perDecodeInit s).ibuf = s.ibuf := rfl
@[simp] theorem perDecodeInit_xbuf (s : State) : (perDecodeInit s).xbuf = [] := rfl
@[simp] theorem perDecodeInit_obuf (s : State) : (perDecodeInit s).obuf = [] := rfl

@[simp] theorem hardwareReset_host (s : State) : (hardwareReset s).host = s.host := rfl
@[simp] theorem hardwareReset_phase (s : State) : (hardwareReset s).phase = .idle := rfl
@[simp] theorem hardwareReset_eq (s : State) : hardwareReset s = { State.reset with host := s.host } := rfl

end Sys2Proof.Machine
end

