-- ==== Sys2Proof/Laws/Ops.lean ====
section
/-! SUPPORT. What each shared operation can do, said once: if it answers a next value, then the conditions hold and the
value is the one given. -/

namespace Sys2Proof.Machine

@[simp] theorem andThen_next {α β : Type} (a : α) (f : α → Access β) : andThen (.next a) f = f a := rfl

@[simp] theorem andThen_fault {α β : Type} (r : Fault) (f : α → Access β) :
    andThen (.fault r) f = .fault r := rfl

@[simp] theorem andThen_refused {α β : Type} (r : Refusal) (f : α → Access β) :
    andThen (.refused r) f = .refused r := rfl

theorem andThen_eq_next {α β : Type} {x : Access α} {f : α → Access β} {b : β} :
    andThen x f = .next b ↔ ∃ a, x = .next a ∧ f a = .next b := by
  cases x <;> simp [andThen]

theorem readIbuf_eq_next {s : State} {a : Nat} {b : Byte} :
    readIbuf s a = .next b ↔ a < s.inlen.toNat ∧ s.ibuf.read a = some b := by
  unfold readIbuf
  by_cases h : a < s.inlen.toNat
  · cases hr : s.ibuf.read a <;> simp [h]
  · simp [h]

theorem readXbuf_eq_next {s : State} {a : Nat} {b : Byte} :
    readXbuf s a = .next b ↔ a < s.xlen ∧ s.xbuf.read a = some b := by
  unfold readXbuf
  by_cases h : a < s.xlen
  · cases hr : s.xbuf.read a <;> simp [h]
  · simp [h]

theorem readXbuf32_eq_next {s : State} {a : Nat} {v : BitVec 32} :
    readXbuf32 s a = .next v ↔ a + 3 < s.xlen ∧ ∃ b0 b1 b2 b3, s.xbuf.read a = some b0 ∧
      s.xbuf.read (a + 1) = some b1 ∧ s.xbuf.read (a + 2) = some b2 ∧
      s.xbuf.read (a + 3) = some b3 ∧ le32 b0 b1 b2 b3 = v := by
  unfold readXbuf32
  simp only [andThen_eq_next, readXbuf_eq_next]
  constructor
  · rintro ⟨b0, ⟨-, h0⟩, b1, ⟨-, h1⟩, b2, ⟨-, h2⟩, b3, ⟨hl, h3⟩, e⟩
    exact ⟨hl, b0, b1, b2, b3, h0, h1, h2, h3, by simpa using e⟩
  · rintro ⟨hl, b0, b1, b2, b3, h0, h1, h2, h3, e⟩
    exact ⟨b0, ⟨by omega, h0⟩, b1, ⟨by omega, h1⟩, b2, ⟨by omega, h2⟩, b3, ⟨hl, h3⟩, by simpa using e⟩

theorem emitIntermediate_eq_next {v : Byte} {s t : State} :
    emitIntermediate v s = .next t ↔ s.xp.toNat < s.xlen ∧
      t = { s with xbuf := s.xbuf.write s.xp.toNat v, xp := s.xp + 1 } := by
  unfold emitIntermediate
  by_cases h : s.xp.toNat < s.xlen
  · simp only [h, if_true, true_and]
    exact ⟨fun e => by injection e with e; exact e.symm, fun e => by rw [e]⟩
  · simp [h]

theorem emitOutput_eq_next {v : Byte} {s t : State} :
    emitOutput v s = .next t ↔ s.op.toNat < s.total.toNat ∧
      t = { s with obuf := s.obuf.write s.op.toNat v, op := s.op + 1 } := by
  unfold emitOutput
  by_cases h : s.op.toNat < s.total.toNat
  · simp only [h, if_true, true_and]
    exact ⟨fun e => by injection e with e; exact e.symm, fun e => by rw [e]⟩
  · simp [h]

theorem tableIndex_eq_some {r : BitVec 9} {b : Byte} :
    tableIndex r = some b ↔ r.toNat < 256 ∧ b.toNat = r.toNat := by
  unfold tableIndex
  by_cases h : r.toNat < 256
  · simp only [h, if_true, true_and, Option.some.injEq]
    constructor
    · rintro rfl
      simp [Nat.mod_eq_of_lt h]
    · intro e
      apply BitVec.eq_of_toNat_eq
      simp [Nat.mod_eq_of_lt h, e]
  · simp [h]

theorem tableIndex_eq_none {r : BitVec 9} : tableIndex r = none ↔ 256 ≤ r.toNat := by
  unfold tableIndex
  by_cases h : r.toNat < 256
  · simp [h]
  · simp [h]
    omega

/-- The five single-byte reads of the envelope (R64). -/
theorem readEnvelope_eq_next {s : State} {e : Vector Byte 4 × Byte} :
    readEnvelope s = .next e ↔ 4 < s.inlen.toNat ∧ ∃ t0 t1 t2 t3 seed,
      s.ibuf.read 0 = some t0 ∧ s.ibuf.read 1 = some t1 ∧ s.ibuf.read 2 = some t2 ∧
      s.ibuf.read 3 = some t3 ∧ s.ibuf.read 4 = some seed ∧ e = (#v[t0, t1, t2, t3], seed) := by
  unfold readEnvelope
  simp only [andThen_eq_next, readIbuf_eq_next]
  constructor
  · rintro ⟨t0, ⟨-, h0⟩, t1, ⟨-, h1⟩, t2, ⟨-, h2⟩, t3, ⟨-, h3⟩, sd, ⟨hl, h4⟩, e⟩
    injection e with e
    exact ⟨hl, t0, t1, t2, t3, sd, h0, h1, h2, h3, h4, e.symm⟩
  · rintro ⟨hl, t0, t1, t2, t3, sd, h0, h1, h2, h3, h4, rfl⟩
    exact ⟨t0, ⟨by omega, h0⟩, t1, ⟨by omega, h1⟩, t2, ⟨by omega, h2⟩, t3, ⟨by omega, h3⟩, sd,
      ⟨hl, h4⟩, rfl⟩

end Sys2Proof.Machine
end

