-- ==== Sys2Proof/Laws/Exec.lean ====
section
/-! SUPPORT. What each operation can answer as a next state, said once. -/

namespace Sys2Proof.Machine

theorem next_inj {s t : State} : (Host.Outcome.next s : Access State) = .next t ↔ t = s :=
  ⟨fun e => by injection e with e; exact e.symm, fun e => by rw [e]⟩

theorem execStart_eq_next {s t : State} :
    execStart s = .next t ↔ (s.state = .busy ∧ t = s) ∨ (s.state ≠ .busy ∧ t = perDecodeInit s) := by
  unfold execStart
  by_cases h : s.state = .busy
  · rw [if_pos h, next_inj]
    simp [h]
  · rw [if_neg h, next_inj]
    simp [h]

theorem execHdrRd_eq_next {s t : State} :
    execHdrRd s = .next t ↔
      (s.inlen.toNat < 5 ∧ t = raiseTruncated .envelope s) ∨
      (5 ≤ s.inlen.toNat ∧ ∃ e, readEnvelope s = .next e ∧
        t = { s with tag := e.1, seed := e.2, xp := 0, phase := .aRun }) := by
  unfold execHdrRd
  by_cases h : s.inlen.toNat < 5
  · have : ¬ 5 ≤ s.inlen.toNat := by omega
    simp only [Config.envelopeBytes, h, this, if_true, next_inj, true_and, false_and, or_false]
  · have h' : 5 ≤ s.inlen.toNat := by omega
    simp only [Config.envelopeBytes, h, h', if_false, false_and, false_or, true_and, andThen_eq_next, next_inj]

theorem execMtfaKeep_eq_next {s t : State} :
    execMtfaKeep s = .next t ↔ s.xp.toNat < s.xlen ∧
      t = { s with xbuf := s.xbuf.write s.xp.toNat (s.t.entry 0), xp := s.xp + 1 } := by
  unfold execMtfaKeep
  rw [emitIntermediate_eq_next, Table.setEntry_entry]

theorem execMtfaMove_eq_next {c : Byte} {s t : State} :
    execMtfaMove c s = .next t ↔ s.xp.toNat < s.xlen ∧
      t = { s with t := moveToFront s.t c, xbuf := s.xbuf.write s.xp.toNat (s.t.entry c), xp := s.xp + 1 } := by
  unfold execMtfaMove
  rw [emitIntermediate_eq_next]
  rfl

theorem execAEnd_eq_next {s t : State} :
    execAEnd s = .next t ↔
      (s.xlen < 1024 ∧ t = raiseTruncated .header s) ∨
      (1024 ≤ s.xlen ∧ t = { s with j := 0, phase := .bParse }) := by
  unfold execAEnd
  by_cases h : s.xlen < 1024
  · have : ¬ 1024 ≤ s.xlen := by omega
    simp only [Config.headerBytes, h, this, if_true, next_inj, true_and, false_and, or_false]
  · have : 1024 ≤ s.xlen := by omega
    simp only [Config.headerBytes, h, this, if_false, next_inj, true_and, false_and, false_or]

theorem execCntLd_eq_next {s t : State} :
    execCntLd s = .next t ↔ ∃ j f, tableIndex s.j = some j ∧ readCounter s = .next f ∧
      t = { s with freq := s.freq.setEntry j f, j := s.j + 1,
                   phase := if s.j + 1 = 256 then .bSum else s.phase } := by
  unfold execCntLd
  cases h : tableIndex s.j with
  | none => simp
  | some j =>
    simp only [andThen_eq_next, next_inj, Option.some.injEq]
    exact ⟨fun ⟨f, h⟩ => ⟨j, f, rfl, h⟩, fun ⟨_, f, e, h⟩ => e ▸ ⟨f, h⟩⟩

theorem execLenChk_eq_next {s t : State} :
    execLenChk s = .next t ↔
      (((s.explen ≠ 0 ∧ s.explen ≠ sumCounters s.freq) ∨ sumCounters s.freq = 0) ∧
        t = finish 0 { s with total := sumCounters s.freq }) ∨
      ((s.explen = 0 ∨ s.explen = sumCounters s.freq) ∧ sumCounters s.freq ≠ 0 ∧
        t = { s with total := sumCounters s.freq, rem := s.freq, k := 0, phase := .bRank }) := by
  unfold execLenChk
  by_cases h1 : s.explen ≠ 0 ∧ s.explen ≠ sumCounters s.freq
  · simp only [h1, and_self, if_true, next_inj, true_or, true_and, false_and, or_false, ne_eq, not_false_eq_true]
  · have h1' : s.explen = 0 ∨ s.explen = sumCounters s.freq := by tauto
    simp only [h1, h1', if_false, false_or, true_and]
    by_cases h2 : sumCounters s.freq = 0
    · simp only [h2, if_true, next_inj, ne_eq, not_true_eq_false, false_and, or_false, true_and]
    · simp only [h2, if_false, next_inj, ne_eq, not_false_eq_true, false_and, false_or, true_and]

theorem execRankSel_eq_next {s t : State} :
    execRankSel s = .next t ↔ ∃ k, tableIndex s.k = some k ∧
      t = { s with order := s.order.setEntry k (selectSymbol s.rem),
                   rem := s.rem.setEntry (selectSymbol s.rem) 0, k := s.k + 1 } := by
  unfold execRankSel
  cases h : tableIndex s.k with
  | none => simp
  | some k => simp only [next_inj, Option.some.injEq, exists_eq_left']

theorem execRankEnd_eq_next {s t : State} :
    execRankEnd s = .next t ↔ t = { s with i := 0, m := 1024, phase := .bBuild } := by
  unfold execRankEnd
  rw [next_inj]
  rfl

theorem execIntroduce_eq_next {s t : State} :
    execIntroduce s = .next t ↔ ∃ i, tableIndex s.i = some i ∧
      ((s.xlen ≤ s.m.toNat ∧ t = raiseTruncated .slot s) ∨
       (∃ b, readXbuf s s.m.toNat = .next b ∧
        t = { s with
          rl := s.rl.setEntry b (s.order.entry i)
          cs := s.cs.setEntry (s.order.entry i) (s.m + 1)
          m := s.m + (s.freq.entry (s.order.entry i)).setWidth 41
          ce := s.ce.setEntry (s.order.entry i) (s.m + (s.freq.entry (s.order.entry i)).setWidth 41)
          i := s.i + 1 })) := by
  unfold execIntroduce
  cases h : tableIndex s.i with
  | none => simp
  | some i =>
    simp only [Option.some.injEq, exists_eq_left']
    by_cases hm : s.xlen ≤ s.m.toNat
    · have : ∀ b, readXbuf s s.m.toNat ≠ .next b := by
        intro b e
        have := (readXbuf_eq_next.1 e).1
        omega
      simp only [hm, if_true, next_inj, true_and, this, false_and, exists_false, or_false]
    · simp only [hm, if_false, false_and, false_or, readSlot, andThen_eq_next, next_inj]

theorem execExpEnter_eq_next {s t : State} :
    execExpEnter s = .next t ↔ t = { s with val := s.rl.entry 0, op := 0, phase := .bExpand } := by
  unfold execExpEnter
  rw [next_inj]

theorem execExpRetire_eq_next {s t : State} :
    execExpRetire s = .next t ↔ s.op.toNat < s.total.toNat ∧
      ((s.k.toNat ≤ 1 ∧
        t = { s with obuf := s.obuf.write s.op.toNat s.val, op := s.op + 1, k := 0 }) ∨
       (∃ count, tableIndex (s.k - 1) = some count ∧ 2 ≤ s.k.toNat ∧
        t = { s with obuf := s.obuf.write s.op.toNat s.val, op := s.op + 1, k := s.k - 1,
                     rl := shl s.rl count, val := (shl s.rl count).entry 0 })) := by
  unfold execExpRetire
  rw [andThen_eq_next]
  simp only [emitOutput_eq_next]
  constructor
  · rintro ⟨u, ⟨ho, rfl⟩, h⟩
    refine ⟨ho, ?_⟩
    simp only at h
    by_cases hk : s.k.toNat ≤ 1
    · left
      have hz : (if s.k = 0 then 0 else s.k - 1) = 0 := by
        split
        · rfl
        · bv_omega
      rw [hz] at h
      simp only [if_true, next_inj] at h
      exact ⟨hk, h⟩
    · right
      have hz : (if s.k = 0 then 0 else s.k - 1) = s.k - 1 := by
        rw [if_neg]
        rintro e
        rw [e] at hk
        simp at hk
      have hz' : s.k - 1 ≠ 0 := by bv_omega
      rw [hz] at h
      simp only [hz', if_false] at h
      cases hc : tableIndex (s.k - 1) with
      | none => rw [hc] at h; simp at h
      | some count =>
        simp only [hc, next_inj] at h
        exact ⟨count, rfl, by omega, h⟩
  · rintro ⟨ho, h⟩
    refine ⟨_, ⟨ho, rfl⟩, ?_⟩
    simp only
    rcases h with ⟨hk, rfl⟩ | ⟨count, hc, hk, rfl⟩
    · have hz : (if s.k = 0 then 0 else s.k - 1) = 0 := by
        split
        · rfl
        · bv_omega
      rw [hz]
      simp
    · have hz : (if s.k = 0 then 0 else s.k - 1) = s.k - 1 := by
        rw [if_neg]
        rintro e
        rw [e] at hk
        simp at hk
      have hz' : s.k - 1 ≠ 0 := by bv_omega
      rw [hz]
      simp only [hz', if_false, hc]

/-- R152 lowers K by one, K = 0 staying 0, and leaves I. -/
theorem execExpRetire_counts {s t : State} (h : execExpRetire s = .next t) :
    t.k.toNat = s.k.toNat - 1 ∧ t.i = s.i := by
  obtain ⟨-, ⟨hk, rfl⟩ | ⟨c, -, hk, rfl⟩⟩ := execExpRetire_eq_next.1 h
  · exact ⟨(Nat.sub_eq_zero_of_le hk).symm, rfl⟩
  · exact ⟨by bv_omega, rfl⟩

/-- Why I ≤ K of R58 (e) is not in `Inv` for the expansion: from any state that EXP.ENTER can leave, with all K ≥ 1 ranked
symbols introduced, EXP.RETIRE of R152 ends with K < I (log entry 10). -/
theorem execExpRetire_passes_introduced {s t : State} (h : execExpRetire s = .next t)
    (hk : 1 ≤ s.k.toNat) (hi : s.k.toNat ≤ s.i.toNat) : t.k.toNat < t.i.toNat := by
  obtain ⟨h1, h2⟩ := execExpRetire_counts h
  rw [h1, h2]
  omega

theorem execExpStay_eq_next {s t : State} :
    execExpStay s = .next t ↔ s.op.toNat < s.total.toNat ∧
      t = { s with obuf := s.obuf.write s.op.toNat s.val, op := s.op + 1,
                   cs := s.cs.setEntry s.val (s.cs.entry s.val + 1) } := by
  unfold execExpStay
  rw [andThen_eq_next]
  simp only [emitOutput_eq_next]
  constructor
  · rintro ⟨u, ⟨ho, rfl⟩, h⟩
    exact ⟨ho, next_inj.1 h⟩
  · rintro ⟨ho, rfl⟩
    exact ⟨_, ⟨ho, rfl⟩, rfl⟩

theorem execExpDemote_eq_next {idx : Byte} {s t : State} :
    execExpDemote idx s = .next t ↔ s.op.toNat < s.total.toNat ∧
      t = { s with obuf := s.obuf.write s.op.toNat s.val, op := s.op + 1,
                   cs := s.cs.setEntry s.val (s.cs.entry s.val + 1),
                   rl := (shl s.rl idx).setEntry idx s.val,
                   val := ((shl s.rl idx).setEntry idx s.val).entry 0 } := by
  unfold execExpDemote
  rw [andThen_eq_next]
  simp only [emitOutput_eq_next]
  constructor
  · rintro ⟨u, ⟨ho, rfl⟩, h⟩
    exact ⟨ho, next_inj.1 h⟩
  · rintro ⟨ho, rfl⟩
    exact ⟨_, ⟨ho, rfl⟩, rfl⟩

theorem execExpDone_eq_next {s t : State} : execExpDone s = .next t ↔ t = finish s.total s := by
  unfold execExpDone
  rw [next_inj]

end Sys2Proof.Machine
end

