-- ==== Sys2Proof/Laws/PerInstr.lean ====
section
/-! SUPPORT. One statement about every operation as syntax, with one lemma per constructor. -/

namespace Sys2Proof.Laws.RowMatch

/-- The dispatch word of an operation sets only bits that its row of rule R90 fixes or carries, and its phase code is that of
a non-quiescent phase (R88 to R90). -/
def Statement (i : Instr) : Prop :=
  ∀ w, i.dispatchWord = some w →
    w &&& i.examinedBits = w ∧ 1 ≤ w.phaseCode.toNat ∧ w.phaseCode.toNat ≤ 7

theorem start : Statement .start := by
  intro w h
  cases h

theorem hdrRd : Statement .hdrRd := by
  intro w h
  cases h
  decide

theorem mtfaKeep : Statement .mtfaKeep := by
  intro w h
  cases h
  decide

theorem mtfaMove (c : Byte) : Statement (.mtfaMove c) := by
  intro w h
  cases h
  revert c
  decide +kernel

theorem aEnd : Statement .aEnd := by
  intro w h
  cases h
  decide

theorem cntLd : Statement .cntLd := by
  intro w h
  cases h
  decide

theorem lenChk : Statement .lenChk := by
  intro w h
  cases h
  decide

theorem rankSel : Statement .rankSel := by
  intro w h
  cases h
  decide

theorem rankEnd : Statement .rankEnd := by
  intro w h
  cases h
  decide

theorem introduce : Statement .introduce := by
  intro w h
  cases h
  decide

theorem expEnter : Statement .expEnter := by
  intro w h
  cases h
  decide

theorem expRetire : Statement .expRetire := by
  intro w h
  cases h
  decide

theorem expStay : Statement .expStay := by
  intro w h
  cases h
  decide

theorem expDemote (idx : Byte) : Statement (.expDemote idx) := by
  intro w h
  cases h
  revert idx
  decide +kernel

theorem expDone : Statement .expDone := by
  intro w h
  cases h
  decide

end Sys2Proof.Laws.RowMatch
end

