-- ==== Sys2Proof/Laws/Shift.lean ====
section
/-! SUPPORT. The entries after Stage A's shift (R112, R219). -/

namespace Sys2Proof.Machine

/-- After "for k = n downto 1: T[k] <- T[k-1]": entries 1..n come from one rank above, the others stay. -/
theorem entry_shiftDown (t : Table Byte) (n : Nat) (hn : n < 256) (b : Byte) :
    (shiftDown t n).entry b =
      if 1 ≤ b.toNat ∧ b.toNat ≤ n then t.entry (BitVec.ofNat 8 (b.toNat - 1)) else t.entry b := by
  induction n generalizing t with
  | zero =>
    have : ¬(1 ≤ b.toNat ∧ b.toNat ≤ 0) := by omega
    rw [if_neg this]
    rfl
  | succ n ih =>
    have hk : (BitVec.ofNat 8 (n + 1)).toNat = n + 1 := by
      simp only [BitVec.toNat_ofNat]
      omega
    unfold shiftDown
    rw [ih _ (by omega)]
    by_cases h1 : 1 ≤ b.toNat ∧ b.toNat ≤ n
    · have h1' : 1 ≤ b.toNat ∧ b.toNat ≤ n + 1 := by omega
      rw [if_pos h1, if_pos h1', Table.entry_setEntry_other]
      intro e
      have := congrArg BitVec.toNat e
      rw [hk] at this
      simp only [BitVec.toNat_ofNat] at this
      omega
    · rw [if_neg h1]
      by_cases h2 : b.toNat = n + 1
      · have hb : b = BitVec.ofNat 8 (n + 1) := BitVec.eq_of_toNat_eq (by rw [hk, h2])
        have h1' : 1 ≤ b.toNat ∧ b.toNat ≤ n + 1 := by omega
        rw [if_pos h1', hb, Table.entry_setEntry_same, hk]
        rfl
      · have h1' : ¬(1 ≤ b.toNat ∧ b.toNat ≤ n + 1) := by omega
        rw [if_neg h1', Table.entry_setEntry_other]
        intro e
        exact h2 (by rw [e, hk])

/-- Stage A's table step, entry by entry (R112): rank 0 takes T[c], the ranks 1..c take the entry one rank above, the
ranks beyond c stay. -/
theorem entry_moveToFront (t : Table Byte) (c b : Byte) :
    (moveToFront t c).entry b =
      if b.toNat = 0 then t.entry c
      else if b.toNat ≤ c.toNat then t.entry (BitVec.ofNat 8 (b.toNat - 1))
      else t.entry b := by
  unfold moveToFront
  by_cases h0 : b.toNat = 0
  · have : b = 0 := BitVec.eq_of_toNat_eq (by simpa using h0)
    simp [this]
  · rw [if_neg h0, Table.entry_setEntry_other _ _ (fun e => h0 (by simp [e])), entry_shiftDown _ _ c.isLt]
    have : 1 ≤ b.toNat := by omega
    simp [this]

/-- What the ascending shift leaves: every position of the range holds its right neighbour, the others are as before. -/
theorem entry_shiftUpFrom (rl : Table Byte) (p n : Nat) (h : p + n < 256) (b : Byte) :
    (shiftUpFrom rl p n).entry b =
      if p ≤ b.toNat ∧ b.toNat < p + n then rl.entry (b + 1) else rl.entry b := by
  induction n generalizing rl p with
  | zero =>
    rw [shiftUpFrom, if_neg (by omega)]
  | succ n ih =>
    rw [shiftUpFrom, ih _ _ (by omega)]
    have hp : (BitVec.ofNat 8 p).toNat = p := by
      simp only [BitVec.toNat_ofNat]
      omega
    have hbl := b.isLt
    have h1 : (1 : Byte).toNat = 1 := rfl
    have key : ∀ c : Byte, c = BitVec.ofNat 8 p ↔ c.toNat = p :=
      fun c => ⟨fun e => e ▸ hp, fun e => BitVec.eq_of_toNat_eq (by rw [hp, e])⟩
    simp only [Table.entry_setEntry, key]
    by_cases hb : b.toNat = p
    · have : b + 1 = BitVec.ofNat 8 (p + 1) := by
        apply BitVec.eq_of_toNat_eq
        simp only [BitVec.toNat_add, BitVec.toNat_ofNat, h1]
        omega
      rw [if_neg (by omega), if_pos hb, if_pos (by omega), this]
    · by_cases hr : p + 1 ≤ b.toNat ∧ b.toNat < p + 1 + n
      · have : (b + 1).toNat ≠ p := by
          simp only [BitVec.toNat_add, h1]
          omega
        rw [if_pos hr, if_neg this, if_pos (by omega)]
      · rw [if_neg hr, if_neg hb, if_neg (by omega)]

end Sys2Proof.Machine
end

