-- ==== Sys2Proof/Laws/Step.lean ====
section
/-! SUPPORT. What one step is in each phase, when the host has no move pending, and what it can answer. -/

namespace Sys2Proof.Machine

/-- With no host move pending the step is the sequencer's. -/
theorem step_of_no_move {s : State} (h : s.host = []) : step s = sequencerStep s := by
  have : nextTurn s = sequencerTurn s := by unfold nextTurn; rw [h]
  unfold step
  rw [this]
  rfl

/-- The host's move `wait` gives the turn to the sequencer. -/
theorem step_of_wait {s : State} {rest : List HostEvent} (h : s.host = .wait :: rest) :
    step s = sequencerStep { s with host := rest } := by
  have : nextTurn s = sequencerTurn { s with host := rest } := by unfold nextTurn; rw [h]; rfl
  unfold step
  rw [this]
  rfl

/-- The sequencer's turn once the dispatch byte is known and the word decodes. -/
theorem sequencerTurn_of_decode {s : State} {b : Byte} {i : Instr} (hq : s.phase.quiescent = false)
    (hb : dispatchByte s = .next (.ok b))
    (hd : decodeDispatch (DW.form s.phase (flag1 s) (flag0 s) b) = .ok i) :
    sequencerTurn s = .run i s := by
  unfold sequencerTurn
  simp [hq, hb, hd]

theorem sequencerStep_of_decode {s : State} {b : Byte} {i : Instr}
    (hq : s.phase.quiescent = false) (hb : dispatchByte s = .next (.ok b))
    (hd : decodeDispatch (DW.form s.phase (flag1 s) (flag0 s) b) = .ok i) : sequencerStep s = exec i s := by
  rw [sequencerStep, sequencerTurn_of_decode hq hb hd]
  rfl

theorem sequencerStep_quiescent {s : State} (hq : s.phase.quiescent = true) :
    sequencerStep s = .next s := by
  simp [sequencerStep, takeTurn, sequencerTurn, hq]

section
variable {s : State}

theorem sequencerStep_hdr (hp : s.phase = .hdr) : sequencerStep s = execHdrRd s :=
  sequencerStep_of_decode (by simp [hp, Phase.quiescent]) (b := 0) (i := .hdrRd) (by simp [dispatchByte, hp])
    (by simpa [flag0, flag1, hp] using decodeDispatch_hdr 0)

theorem sequencerStep_aRun_symbol (hp : s.phase = .aRun) (hm : aMore s = true) :
    sequencerStep s = andThen (currentSymbol s) fun c => if c = 0 then execMtfaKeep s else execMtfaMove c s := by
  cases hc : currentSymbol s with
  | next c =>
    have hb : dispatchByte s = .next (.ok c) := by simp [dispatchByte, hp, hm, hc]
    by_cases h0 : c = 0
    · subst h0
      have hd := decodeDispatch_aRun_keep
      rw [sequencerStep_of_decode (by simp [hp, Phase.quiescent]) hb (i := .mtfaKeep) (by simpa [flag0, flag1, hp, hm] using hd)]
      simp [exec]
    · have hd := decodeDispatch_aRun_move c h0
      rw [sequencerStep_of_decode (by simp [hp, Phase.quiescent]) hb (i := .mtfaMove c) (by simpa [flag0, flag1, hp, hm] using hd)]
      simp only [andThen_next, h0, if_false, exec]
  | fault r => rw [sequencerStep]; simp [takeTurn, sequencerTurn, dispatchByte, hp, Phase.quiescent, hm, hc]
  | refused r => rw [sequencerStep]; simp [takeTurn, sequencerTurn, dispatchByte, hp, Phase.quiescent, hm, hc]

theorem sequencerStep_aRun_end (hp : s.phase = .aRun) (hm : aMore s = false) : sequencerStep s = execAEnd s :=
  sequencerStep_of_decode (by simp [hp, Phase.quiescent]) (b := 0) (i := .aEnd) (by simp [dispatchByte, hp, hm])
    (by simpa [flag0, flag1, hp, hm] using decodeDispatch_aRun_end 0)

theorem sequencerStep_bParse (hp : s.phase = .bParse) : sequencerStep s = execCntLd s :=
  sequencerStep_of_decode (by simp [hp, Phase.quiescent]) (b := 0) (i := .cntLd) (by simp [dispatchByte, hp])
    (by simpa [flag0, flag1, hp] using decodeDispatch_bParse 0)

theorem sequencerStep_bSum (hp : s.phase = .bSum) : sequencerStep s = execLenChk s :=
  sequencerStep_of_decode (by simp [hp, Phase.quiescent]) (b := 0) (i := .lenChk) (by simp [dispatchByte, hp])
    (by simpa [flag0, flag1, hp] using decodeDispatch_bSum 0)

theorem sequencerStep_bRank_sel (hp : s.phase = .bRank) (ha : anyRemaining s = true) : sequencerStep s = execRankSel s :=
  sequencerStep_of_decode (by simp [hp, Phase.quiescent]) (b := 0) (i := .rankSel) (by simp [dispatchByte, hp])
    (by simpa [flag0, flag1, hp, ha] using decodeDispatch_bRank_sel 0)

theorem sequencerStep_bRank_end (hp : s.phase = .bRank) (ha : anyRemaining s = false) : sequencerStep s = execRankEnd s :=
  sequencerStep_of_decode (by simp [hp, Phase.quiescent]) (b := 0) (i := .rankEnd) (by simp [dispatchByte, hp])
    (by simpa [flag0, flag1, hp, ha] using decodeDispatch_bRank_end 0)

theorem sequencerStep_bBuild_intro (hp : s.phase = .bBuild) (hm : bMore s = true) : sequencerStep s = execIntroduce s :=
  sequencerStep_of_decode (by simp [hp, Phase.quiescent]) (b := 0) (i := .introduce) (by simp [dispatchByte, hp])
    (by simpa [flag0, flag1, hp, hm] using decodeDispatch_bBuild_intro 0)

theorem sequencerStep_bBuild_enter (hp : s.phase = .bBuild) (hm : bMore s = false) : sequencerStep s = execExpEnter s :=
  sequencerStep_of_decode (by simp [hp, Phase.quiescent]) (b := 0) (i := .expEnter) (by simp [dispatchByte, hp])
    (by simpa [flag0, flag1, hp, hm] using decodeDispatch_bBuild_enter 0)

theorem sequencerStep_bExpand_done (hp : s.phase = .bExpand) (hm : eMore s = false) : sequencerStep s = execExpDone s :=
  sequencerStep_of_decode (by simp [hp, Phase.quiescent]) (b := 0) (i := .expDone) (by simp [dispatchByte, hp, hm])
    (by simpa [flag0, flag1, hp, hm, exhausted] using decodeDispatch_bExpand_done 0)

theorem sequencerStep_bExpand_retire (hp : s.phase = .bExpand) (hm : eMore s = true)
    (hx : valExhausted s = true) : sequencerStep s = execExpRetire s :=
  sequencerStep_of_decode (by simp [hp, Phase.quiescent]) (b := 0) (i := .expRetire) (by simp [dispatchByte, hp, hm, hx])
    (by simpa [flag0, flag1, hp, hm, hx, exhausted] using decodeDispatch_bExpand_retire 0)

/-- The step that needs a cursor byte: the fetch beyond XLEN raises cause 4 and selects nothing (R151). -/
theorem sequencerStep_bExpand_cursor (hp : s.phase = .bExpand) (hm : eMore s = true)
    (hx : valExhausted s = false) :
    sequencerStep s =
      if s.xlen ≤ (s.cs.entry s.val).toNat then .next (raiseTruncated .cursor s)
      else andThen (readXbuf s (s.cs.entry s.val).toNat) fun b =>
        if b = 0 then execExpStay s else execExpDemote b s := by
  by_cases hl : s.xlen ≤ (s.cs.entry s.val).toNat
  · rw [sequencerStep, if_pos hl]
    simp [takeTurn, sequencerTurn, dispatchByte, hp, Phase.quiescent, hm, hx, readCursor, hl]
  · rw [if_neg hl]
    cases hb : readXbuf s (s.cs.entry s.val).toNat with
    | next b =>
      have hb' : dispatchByte s = .next (.ok b) := by
        simp [dispatchByte, hp, hm, hx, readCursor, hl, hb]
      by_cases h0 : b = 0
      · subst h0
        have hd := decodeDispatch_bExpand_stay
        rw [sequencerStep_of_decode (by simp [hp, Phase.quiescent]) hb' (i := .expStay)
          (by simpa [flag0, flag1, hp, hm, hx, exhausted] using hd)]
        simp [exec]
      · have hd := decodeDispatch_bExpand_demote b h0
        rw [sequencerStep_of_decode (by simp [hp, Phase.quiescent]) hb' (i := .expDemote b)
          (by simpa [flag0, flag1, hp, hm, hx, exhausted] using hd)]
        simp only [andThen_next, h0, if_false, exec]
    | fault r =>
      rw [sequencerStep]
      simp [takeTurn, sequencerTurn, dispatchByte, hp, Phase.quiescent, hm, hx, readCursor, hl, hb]
    | refused r =>
      rw [sequencerStep]
      simp [takeTurn, sequencerTurn, dispatchByte, hp, Phase.quiescent, hm, hx, readCursor, hl, hb]

end

end Sys2Proof.Machine
end

