-- ==== Sys2Proof/Laws/StepCases.lean ====
section
/-! SUPPORT. Everything one step can do when it answers a next state: one case per operation of rule R90, with the
condition under which the dispatch word selects it, and one per host move. Invariants are proved by cases on it. -/

namespace Sys2Proof.Machine

/-- What the sequencer's step did: the operation it ran and why that one, or the fault of the cursor-byte fetch. -/
inductive SequencerCase (s t : State) : Prop where
  | quiescent (hq : s.phase.quiescent = true) (ht : t = s)
  | hdrRd (hp : s.phase = .hdr) (h : execHdrRd s = .next t)
  | keep (hp : s.phase = .aRun) (hm : aMore s = true) (hc : currentSymbol s = .next 0)
      (h : execMtfaKeep s = .next t)
  | move (c : Byte) (hp : s.phase = .aRun) (hm : aMore s = true) (hc : currentSymbol s = .next c)
      (h0 : c ≠ 0) (h : execMtfaMove c s = .next t)
  | aEnd (hp : s.phase = .aRun) (hm : aMore s = false) (h : execAEnd s = .next t)
  | cntLd (hp : s.phase = .bParse) (h : execCntLd s = .next t)
  | lenChk (hp : s.phase = .bSum) (h : execLenChk s = .next t)
  | rankSel (hp : s.phase = .bRank) (ha : anyRemaining s = true) (h : execRankSel s = .next t)
  | rankEnd (hp : s.phase = .bRank) (ha : anyRemaining s = false) (h : execRankEnd s = .next t)
  | introduce (hp : s.phase = .bBuild) (hm : bMore s = true) (h : execIntroduce s = .next t)
  | enter (hp : s.phase = .bBuild) (hm : bMore s = false) (h : execExpEnter s = .next t)
  | retire (hp : s.phase = .bExpand) (hm : eMore s = true) (hx : valExhausted s = true)
      (h : execExpRetire s = .next t)
  | cursorFault (hp : s.phase = .bExpand) (hm : eMore s = true) (hx : valExhausted s = false)
      (hl : s.xlen ≤ (s.cs.entry s.val).toNat) (ht : t = raiseTruncated .cursor s)
  | stay (hp : s.phase = .bExpand) (hm : eMore s = true) (hx : valExhausted s = false)
      (hb : readXbuf s (s.cs.entry s.val).toNat = .next 0) (h : execExpStay s = .next t)
  | demote (idx : Byte) (hp : s.phase = .bExpand) (hm : eMore s = true) (hx : valExhausted s = false)
      (hb : readXbuf s (s.cs.entry s.val).toNat = .next idx) (h0 : idx ≠ 0)
      (h : execExpDemote idx s = .next t)
  | done (hp : s.phase = .bExpand) (hm : eMore s = false) (h : execExpDone s = .next t)

theorem sequencerStep_cases {s t : State} (h : sequencerStep s = .next t) : SequencerCase s t := by
  cases hp : s.phase with
  | idle =>
    rw [sequencerStep_quiescent (by rw [hp]; rfl), next_inj] at h
    exact .quiescent (by rw [hp]; rfl) h
  | done =>
    rw [sequencerStep_quiescent (by rw [hp]; rfl), next_inj] at h
    exact .quiescent (by rw [hp]; rfl) h
  | fault =>
    rw [sequencerStep_quiescent (by rw [hp]; rfl), next_inj] at h
    exact .quiescent (by rw [hp]; rfl) h
  | hdr => exact .hdrRd hp (sequencerStep_hdr hp ▸ h)
  | aRun =>
    cases hm : aMore s with
    | false => exact .aEnd hp hm (sequencerStep_aRun_end hp hm ▸ h)
    | true =>
      rw [sequencerStep_aRun_symbol hp hm, andThen_eq_next] at h
      obtain ⟨c, hc, h⟩ := h
      by_cases h0 : c = 0
      · rw [if_pos h0] at h
        exact .keep hp hm (h0 ▸ hc) h
      · rw [if_neg h0] at h
        exact .move c hp hm hc h0 h
  | bParse => exact .cntLd hp (sequencerStep_bParse hp ▸ h)
  | bSum => exact .lenChk hp (sequencerStep_bSum hp ▸ h)
  | bRank =>
    cases ha : anyRemaining s with
    | false => exact .rankEnd hp ha (sequencerStep_bRank_end hp ha ▸ h)
    | true => exact .rankSel hp ha (sequencerStep_bRank_sel hp ha ▸ h)
  | bBuild =>
    cases hm : bMore s with
    | false => exact .enter hp hm (sequencerStep_bBuild_enter hp hm ▸ h)
    | true => exact .introduce hp hm (sequencerStep_bBuild_intro hp hm ▸ h)
  | bExpand =>
    cases hm : eMore s with
    | false => exact .done hp hm (sequencerStep_bExpand_done hp hm ▸ h)
    | true =>
      cases hx : valExhausted s with
      | true => exact .retire hp hm hx (sequencerStep_bExpand_retire hp hm hx ▸ h)
      | false =>
        rw [sequencerStep_bExpand_cursor hp hm hx] at h
        by_cases hl : s.xlen ≤ (s.cs.entry s.val).toNat
        · rw [if_pos hl, next_inj] at h
          exact .cursorFault hp hm hx hl h
        · rw [if_neg hl, andThen_eq_next] at h
          obtain ⟨b, hb, h⟩ := h
          by_cases h0 : b = 0
          · rw [if_pos h0] at h
            exact .stay hp hm hx (h0 ▸ hb) h
          · rw [if_neg h0] at h
            exact .demote b hp hm hx hb h0 h

/-- What one step did: the host's next move on the state it was taken from, or a step of the sequencer. -/
inductive StepCase (s t : State) : Prop where
  | sequencer (hh : s.host = []) (h : SequencerCase s t)
  | wait (rest : List HostEvent) (hh : s.host = .wait :: rest) (h : SequencerCase { s with host := rest } t)
  | start (data : Byte) (rest : List HostEvent) (hh : s.host = .writeCtrl data :: rest)
      (h : execStart { s with host := rest } = .next t)
  | noCommand (data : Byte) (rest : List HostEvent) (hh : s.host = .writeCtrl data :: rest)
      (ht : t = { s with host := rest })
  | inlen (v : BitVec 32) (rest : List HostEvent) (hh : s.host = .writeInlen v :: rest)
      (h : hostWriteInlen v { s with host := rest } = .next t)
  | explen (v : BitVec 40) (rest : List HostEvent) (hh : s.host = .writeExplen v :: rest)
      (h : hostWriteExplen v { s with host := rest } = .next t)
  | ibuf (a : BitVec 32) (b : Byte) (rest : List HostEvent) (hh : s.host = .writeIbuf a b :: rest)
      (h : hostWriteIbuf a b { s with host := rest } = .next t)
  | reset (rest : List HostEvent) (hh : s.host = .reset :: rest)
      (ht : t = { State.reset with host := rest })

theorem step_cases {s t : State} (h : step s = .next t) : StepCase s t := by
  cases hh : s.host with
  | nil => exact .sequencer hh (sequencerStep_cases (step_of_no_move hh ▸ h))
  | cons e rest =>
    have hstep : step s = takeTurn (hostTurn e { s with host := rest }) := by
      have : nextTurn s = hostTurn e { s with host := rest } := by unfold nextTurn; rw [hh]
      rw [step, this]
    cases e with
    | wait => exact .wait rest hh (sequencerStep_cases (step_of_wait hh ▸ h))
    | writeCtrl data =>
      rw [hstep] at h
      unfold hostTurn decodeCtrl at h
      by_cases hd : data &&& 0x01 = 0x01
      · simp only [hd, if_true] at h
        exact .start data rest hh h
      · simp only [hd, if_false] at h
        exact .noCommand data rest hh (next_inj.1 h)
    | writeInlen v => exact .inlen v rest hh (hstep.symm.trans h)
    | writeExplen v => exact .explen v rest hh (hstep.symm.trans h)
    | writeIbuf a b => exact .ibuf a b rest hh (hstep.symm.trans h)
    | reset =>
      rw [hstep] at h
      exact .reset rest hh (next_inj.1 h)

theorem hostWriteInlen_eq_next {v : BitVec 32} {s t : State} :
    hostWriteInlen v s = .next t ↔
      (s.state = .busy ∧ t = s) ∨
      (s.state ≠ .busy ∧ v.toNat ≤ Config.maxInlen ∧ t = { s with inlen := v }) := by
  unfold hostWriteInlen
  by_cases hb : s.state = .busy
  · simp only [hb, if_true, next_inj, true_and, ne_eq, not_true_eq_false, false_and, or_false]
  · by_cases hv : Config.maxInlen < v.toNat
    · have : ¬ v.toNat ≤ Config.maxInlen := by omega
      simp [hb, hv, this]
    · have : v.toNat ≤ Config.maxInlen := by omega
      simp only [hb, hv, this, if_false, next_inj, false_and, ne_eq, not_false_eq_true, true_and, false_or]

theorem hostWriteExplen_eq_next {v : BitVec 40} {s t : State} :
    hostWriteExplen v s = .next t ↔
      (s.state = .busy ∧ t = s) ∨ (s.state ≠ .busy ∧ t = { s with explen := v }) := by
  unfold hostWriteExplen
  by_cases hb : s.state = .busy
  · simp only [hb, if_true, next_inj, true_and, ne_eq, not_true_eq_false, false_and, or_false]
  · simp only [hb, if_false, next_inj, false_and, ne_eq, not_false_eq_true, true_and, false_or]

theorem hostWriteIbuf_eq_next {a : BitVec 32} {b : Byte} {s t : State} :
    hostWriteIbuf a b s = .next t ↔ s.state ≠ .busy ∧ a.toNat < Config.maxInlen ∧
      t = { s with ibuf := s.ibuf.write a.toNat b } := by
  unfold hostWriteIbuf
  by_cases hb : s.state = .busy
  · simp [hb]
  · by_cases ha : Config.maxInlen ≤ a.toNat
    · have : ¬ a.toNat < Config.maxInlen := by omega
      simp [hb, ha, this]
    · have : a.toNat < Config.maxInlen := by omega
      simp only [hb, ha, this, if_false, next_inj, ne_eq, not_false_eq_true, true_and]

end Sys2Proof.Machine
end

