-- ==== Sys2Proof/Tests/Slice0.lean ====
section
/-! SUPPORT. The tests of the model, each about one step or one word, and the witness of every statement that has
hypotheses. Expected results are those of the spec's examples; a rule number names the example. -/

namespace Sys2Proof.Tests

-- One theorem at a time: side by side, the many `decide +kernel` below each hold a thread, and its stack, while they wait.
set_option Elab.async false

open Sys2Proof.Machine

/-! ### Small states -/

/-- A state in a phase, with the identity tables of START. -/
def base (p : Phase) : State :=
  { State.reset with phase := p, state := statusOf p, t := Table.identity, rl := Table.identity }

/-- One field of the state an operation or a step answers. -/
def after {α : Type} (o : Access State) (f : State → α) : Option α :=
  match o with
  | .next t => some (f t)
  | .fault _ => none
  | .refused _ => none

/-- A table with the given first entries, the rest as in another table. -/
def overlay {α : Type} (t : Table α) (l : List α) : Table α :=
  l.zipIdx.foldl (fun t p => t.setEntry (BitVec.ofNat 8 p.2) p.1) t

/-- The first entries of a table. -/
def front {α : Type} (t : Table α) (n : Nat) : List α := (List.range n).map fun k => t.entry (BitVec.ofNat 8 k)

/-- A buffer that holds a list of bytes from an address on. -/
def loadFrom (a : Nat) : List Byte → Memory
  | [] => []
  | b :: rest => (a, b) :: loadFrom (a + 1) rest

theorem read_loadFrom (l : List Byte) (k a : Nat) :
    (loadFrom k l).read a = if k ≤ a then l[a - k]? else none := by
  induction l generalizing k with
  | nil => simp [loadFrom]
  | cons b rest ih =>
    rw [loadFrom, Memory.read, ih]
    by_cases h : a = k
    · simp [h]
    · rw [if_neg h]
      by_cases h1 : k + 1 ≤ a
      · rw [if_pos h1, if_pos (by omega), show a - k = (a - (k + 1)) + 1 by omega]
        simp
      · rw [if_neg h1, if_neg (by omega)]

theorem wf_loadFrom (l : List Byte) (k : Nat) : (loadFrom k l).wf := by
  have key : ∀ (l : List Byte) (k : Nat), ∀ a ∈ (loadFrom k l).map Prod.fst, k ≤ a := by
    intro l
    induction l with
    | nil => simp [loadFrom]
    | cons b rest ih =>
      intro k a ha
      simp only [loadFrom, List.map_cons, List.mem_cons] at ha
      rcases ha with rfl | ha
      · exact Nat.le_refl _
      · exact Nat.le_of_succ_le (ih (k + 1) a ha)
  induction l generalizing k with
  | nil => exact List.Pairwise.nil
  | cons b rest ih => exact List.Pairwise.cons (fun a ha => key rest (k + 1) a ha) (ih (k + 1))

theorem covers_loadFrom (l : List Byte) : (loadFrom 0 l).Covers l.length := by
  intro a
  rw [read_loadFrom, if_pos (Nat.zero_le a), Nat.sub_zero]
  by_cases h : a < l.length <;> simp [h]

/-! ### WellFormed: ill-formed operations are refused -/

theorem test_move_zero_is_ill_formed : (Instr.mtfaMove 0).wellFormed = false := by decide

theorem test_demote_zero_is_ill_formed : (Instr.expDemote 0).wellFormed = false := by decide

/-! ### Decode: one word per row, written out from the patterns of R90 -/

theorem test_decode_start : decodeCtrl 0b00000001 = .ok .start := by decide
theorem test_decode_start_reserved_bits : decodeCtrl 0b11111111 = .ok .start := by decide
theorem test_decode_no_command : decodeCtrl 0b11111110 = .error .noCommand := by decide
theorem test_decode_hdrRd : decodeDispatch 0b00010000000000 = .ok .hdrRd := by decide
theorem test_decode_keep : decodeDispatch 0b00100100000000 = .ok .mtfaKeep := by decide
theorem test_decode_move : decodeDispatch 0b00100101000001 = .ok (.mtfaMove 0x41) := by decide
theorem test_decode_aEnd : decodeDispatch 0b00100000000000 = .ok .aEnd := by decide
theorem test_decode_cntLd : decodeDispatch 0b00110000000000 = .ok .cntLd := by decide
theorem test_decode_lenChk : decodeDispatch 0b01000000000000 = .ok .lenChk := by decide
theorem test_decode_rankSel : decodeDispatch 0b01010100000000 = .ok .rankSel := by decide
theorem test_decode_rankEnd : decodeDispatch 0b01010000000000 = .ok .rankEnd := by decide
theorem test_decode_introduce : decodeDispatch 0b01100100000000 = .ok .introduce := by decide
theorem test_decode_expEnter : decodeDispatch 0b01100000000000 = .ok .expEnter := by decide
theorem test_decode_expRetire : decodeDispatch 0b01111100000000 = .ok .expRetire := by decide
theorem test_decode_expStay : decodeDispatch 0b01110100000000 = .ok .expStay := by decide
theorem test_decode_expDemote : decodeDispatch 0b01110111111111 = .ok (.expDemote 255) := by decide
theorem test_decode_expDone : decodeDispatch 0b01110000000000 = .ok .expDone := by decide

/-- The rows of A_RUN fix F1 = 0, and the phases 8, 9 and 10 to 15 select nothing (R89). -/
theorem test_decode_rejects :
    decodeDispatch 0b00101000000000 = .error .unformable ∧
    decodeDispatch 0b10000000000000 = .error .quiescentPhase ∧
    decodeDispatch 0b11110100000000 = .error .reservedPhase := by decide

/-- A table row's word runs from reset as the first step (log entry 7). -/
theorem test_withFetchWord_demote :
    after (step (State.reset.withFetchWord 16 0x1D02)) (fun t => (t.phase, t.op, t.rl.entry 2)) =
      some (.bExpand, 1, 0) := by decide +kernel

/-! ### The operations (examples of R100 to R155) -/

/-- R100: the state after the host's CTRL = 1. -/
theorem test_start :
    after (step { State.reset with
        ibuf := loadFrom 0 [0, 0, 0, 0, 0x41, 0], inlen := 6, host := [.writeCtrl 0x01] })
      (fun t => (t.statusWord, t.phase, t.t.entry 0x41, t.rl.entry 7, t.cs.entry 0x41, t.ce.entry 0x41)) =
      some (0x01, .hdr, 0x41, 7, 0, 0) := by decide +kernel

/-- R101. -/
theorem test_hdrRd :
    after (step { base .hdr with ibuf := loadFrom 0 [0x55, 0x4F, 0x46, 0x21, 0x00], inlen := 1029 })
      (fun t => (t.tag.toList, t.seed, t.phase)) = some ([0x55, 0x4F, 0x46, 0x21], 0, .aRun) := by
  decide +kernel

theorem test_hdrRd_truncated :
    after (step { base .hdr with ibuf := loadFrom 0 [1, 2, 3], inlen := 3 })
      (fun t => (t.statusWord, t.olen)) = some (0x13, 0) := by decide +kernel

/-- R111. -/
theorem test_keep :
    after (step { base .aRun with
        t := overlay Table.identity [0x41, 0, 1, 2], xp := 1, inlen := 6
        ibuf := loadFrom 0 [0, 0, 0, 0, 0x41, 0] })
      (fun t => (t.xbuf.read 1, t.xp, front t.t 4)) = some (some 0x41, 2, [0x41, 0, 1, 2]) := by
  decide +kernel

/-- R112. -/
theorem test_move :
    after (step { base .aRun with seed := 0x41, inlen := 6 })
      (fun t => (t.xbuf.read 0, t.xp, front t.t 3, t.t.entry 0x41, t.t.entry 0x42)) =
      some (some 0x41, 1, [0x41, 0, 1], 0x40, 0x42) := by decide +kernel

/-- R219: the direction of the shift. -/
theorem test_move_direction :
    front (moveToFront (overlay Table.identity [0x0A, 0x0B, 0x0C, 0x0D]) 3) 5 = [0x0D, 0x0A, 0x0B, 0x0C, 4] := by
  decide +kernel

/-- R113: INLEN = 6 and INLEN = 1029. -/
theorem test_aEnd_truncated :
    after (step { base .aRun with xp := 2, inlen := 6 }) (fun t => (t.statusWord, t.olen)) = some (0x23, 0) := by
  decide +kernel

theorem test_aEnd :
    after (step { base .aRun with xp := 1025, inlen := 1029 }) (fun t => (t.j, t.phase)) = some (0, .bParse) := by
  decide +kernel

/-- R126: the byte order of a counter. -/
theorem test_cntLd :
    after (step { base .bParse with inlen := 1028, xbuf := loadFrom 0 [2, 1, 0, 0] })
      (fun t => (t.freq.entry 0, t.j, t.phase)) = some (258, 1, .bParse) := by decide +kernel

theorem test_cntLd_last :
    after (step { base .bParse with inlen := 1028, j := 255, xbuf := loadFrom 1020 [0, 0, 0, 0x80] })
      (fun t => (t.freq.entry 255, t.j, t.phase)) = some (0x80000000, 256, .bSum) := by decide +kernel

/-- R127. -/
theorem test_lenChk :
    after (step { base .bSum with freq := Table.zero.setEntry 0x41 4 })
      (fun t => (t.total, t.k, t.phase, t.rem.entry 0x41)) = some (4, 0, .bRank, 4) := by decide +kernel

theorem test_lenChk_mismatch :
    after (step { base .bSum with freq := Table.zero.setEntry 0x41 4, explen := 5 })
      (fun t => (t.statusWord, t.olen, t.phase)) = some (0x02, 0, .done) := by decide +kernel

/-- R26, R127: the sum does not wrap at 32 bits. -/
theorem test_sum_does_not_wrap :
    sumCounters ((Table.zero.setEntry 0 0x80000000).setEntry 1 0x80000000) = 0x100000000 := by decide +kernel

/-- R128: a tie goes to the smaller symbol. -/
theorem test_rankSel :
    after (step { base .bRank with rem := (Table.zero.setEntry 0x42 2).setEntry 0x41 2 })
      (fun t => (t.order.entry 0, t.rem.entry 0x41, t.rem.entry 0x42, t.k)) = some (0x41, 0, 2, 1) := by
  decide +kernel

/-- R129. -/
theorem test_rankEnd :
    after (step { base .bRank with k := 2 }) (fun t => (t.k, t.i, t.m, t.phase)) =
      some (2, 0, 1024, .bBuild) := by decide +kernel

/-- R131. -/
theorem test_introduce :
    after (step { base .bBuild with
        i := 1, k := 5, order := overlay Table.zero [0x41, 0x42], freq := Table.zero.setEntry 0x42 2
        m := 1029, inlen := 1034, xbuf := loadFrom 1029 [1] })
      (fun t => (t.rl.entry 1, t.cs.entry 0x42, t.m, t.ce.entry 0x42, t.i)) =
      some (0x42, 1030, 1031, 1031, 2) := by decide +kernel

/-- R193: cause 3 when M = XLEN. -/
theorem test_introduce_truncated :
    after (step { base .bBuild with k := 1, m := 1024, inlen := 1028 })
      (fun t => (t.statusWord, t.i, t.m)) = some (0x33, 0, 1024) := by decide +kernel

/-- R132. -/
theorem test_expEnter :
    after (step { base .bBuild with
        i := 5, k := 5, rl := overlay Table.identity [0x41, 0x42, 0x52, 0x43, 0x44] })
      (fun t => (t.val, t.op, t.phase)) = some (0x41, 0, .bExpand) := by decide +kernel

/-- R152. -/
theorem test_expRetire :
    after (step { base .bExpand with
        val := 0x43, k := 5, op := 4, total := 11, cs := Table.zero.setEntry 0x43 1034
        ce := Table.zero.setEntry 0x43 1034
        rl := overlay Table.identity [0x43, 0x41, 0x44, 0x42, 0x52, 0x05] })
      (fun t => (t.obuf.read 4, t.op, t.k, front t.rl 6, t.val)) =
      some (some 0x43, 5, 4, [0x41, 0x44, 0x42, 0x52, 0x52, 0x05], 0x41) := by decide +kernel

/-- R152 (b): K = 0 stays 0. -/
theorem test_expRetire_at_zero :
    after (step { base .bExpand with total := 2 })
      (fun t => (t.obuf.read 0, t.op, t.k, t.val)) = some (some 0, 1, 0, 0) := by decide +kernel

/-- R152 lowers K and leaves I, so that R58's I ≤ K does not outlive EXP.RETIRE (log entry 10). -/
theorem test_retire_passes_introduced :
    after (step { base .bExpand with k := 1, i := 1, total := 1 }) (fun t => (t.k, t.i)) = some (0, 1) := by
  decide +kernel

/-- R153. -/
theorem test_expStay :
    after (step { base .bExpand with
        val := 0x41, total := 4, inlen := 1032, cs := Table.zero.setEntry 0x41 1025
        ce := Table.zero.setEntry 0x41 1028, xbuf := loadFrom 1025 [0] })
      (fun t => (t.obuf.read 0, t.op, t.cs.entry 0x41)) = some (some 0x41, 1, 1026) := by decide +kernel

/-- R154. -/
theorem test_expDemote :
    after (step { base .bExpand with
        val := 0x41, k := 5, total := 11, inlen := 1039, cs := Table.zero.setEntry 0x41 1025
        ce := Table.zero.setEntry 0x41 1029, xbuf := loadFrom 1025 [2]
        rl := overlay Table.identity [0x41, 0x42, 0x52, 0x43, 0x44] })
      (fun t => (t.obuf.read 0, t.op, t.cs.entry 0x41, front t.rl 5, t.val)) =
      some (some 0x41, 1, 1026, [0x42, 0x52, 0x41, 0x43, 0x44], 0x42) := by decide +kernel

/-- R194: cause 4 when CS[VAL] = XLEN. -/
theorem test_cursor_truncated :
    after (step { base .bExpand with
        total := 4, inlen := 1029, cs := Table.zero.setEntry 0 1025, ce := Table.zero.setEntry 0 1028 })
      (fun t => (t.statusWord, t.op, t.olen)) = some (0x43, 0, 0) := by decide +kernel

/-- R155. -/
theorem test_expDone :
    after (step { base .bExpand with op := 11, total := 11 }) (fun t => (t.olen, t.statusWord)) =
      some (11, 0x02) := by decide +kernel

/-- R220: the direction of the shift. -/
theorem test_shl_direction :
    front (shl (overlay Table.identity [0x0A, 0x0B, 0x0C, 0x0D]) 3) 4 = [0x0B, 0x0C, 0x0D, 0x0D] := by
  decide +kernel

/-- The memory keeps its canonical form. -/
theorem test_memory_write_sorts : Memory.write (Memory.write [] 5 1) 3 2 = [(3, 2), (5, 1)] := by decide

/-! ### Witnesses: states and operands that meet the hypotheses of the statements -/

open Sys2Proof.Claims

theorem witness_DecodeOfEncodeIsTheOperation :
    (Instr.mtfaMove 1).wellFormed = true ∧ (Instr.expDemote 255).wellFormed = true := by decide

theorem witness_DecodedWordAgreesWithItsRow : decodeDispatch 0x0901 = .ok (.mtfaMove 1) := by decide

/-- The hypothesis of every `SelectedBy` clause: each row's own pattern meets its mask. -/
theorem witness_SelectedBy : ∀ r ∈ rows, r.pattern &&& r.mask = r.pattern := by decide

theorem witness_FormedWordsSelectExactlyOneOperation :
    ((base .bRank).phase.quiescent = false ∧ dispatchByte (base .bRank) = .next (.ok 0)) ∧
    (0 : DW).phaseCode = 0 ∧ 8 ≤ (0x2000 : DW).phaseCode.toNat := by
  refine ⟨⟨rfl, rfl⟩, ?_, ?_⟩ <;> decide

/-- A_RUN before its last symbol, at INLEN = 6. -/
def lastSymbol : State := { base .aRun with inlen := 6, xp := 1, ibuf := [(5, 7)] }

/-- An expansion state of symbol 0 with the cursor [a, b), `out` output bytes due. -/
def cursorAt (a b : BitVec 41) (out : BitVec 40) : State :=
  { base .bExpand with
    total := out, k := 1, inlen := 1030, cs := Table.zero.setEntry 0 a, ce := Table.zero.setEntry 0 b
    xbuf := [(1025, 9)] }

theorem witness_DispatchByteSources :
    (({ base .aRun with inlen := 5 } : State).phase = .aRun ∧ aMore { base .aRun with inlen := 5 } = true) ∧
    (lastSymbol.phase = .aRun ∧ aMore lastSymbol = true ∧ lastSymbol.xp ≠ 0 ∧
      lastSymbol.ibuf.read (4 + lastSymbol.xp.toNat) = some 7) ∧
    (eMore (cursorAt 1025 1026 1) = true ∧ exhausted (cursorAt 1025 1026 1) = false ∧
      ((cursorAt 1025 1026 1).cs.entry (cursorAt 1025 1026 1).val).toNat < (cursorAt 1025 1026 1).xlen ∧
      (cursorAt 1025 1026 1).xbuf.read 1025 = some 9) ∧
    ((base .hdr).phase ≠ .aRun ∧ (base .hdr).phase ≠ .bExpand) := by decide +kernel

theorem witness_StartInitialisesTheDecode :
    ((0x01 : Byte).getLsbD 0 = true ∧ (0xFF : Byte).getLsbD 0 = true) ∧ (base .hdr).state = .busy ∧
    State.reset.state ≠ .busy := by decide

theorem witness_HdrRdReadsTheEnvelope :
    ({ base .hdr with inlen := 4 } : State).inlen.toNat < 5 ∧
    ∃ s : State, 5 ≤ s.inlen.toNat ∧ s.ibuf.read 0 = some 1 ∧ s.ibuf.read 1 = some 2 ∧
      s.ibuf.read 2 = some 3 ∧ s.ibuf.read 3 = some 4 ∧ s.ibuf.read 4 = some 5 :=
  ⟨by decide, { base .hdr with inlen := 5, ibuf := loadFrom 0 [1, 2, 3, 4, 5] }, by decide⟩

theorem witness_KeepEmitsTheFront :
    ({ base .aRun with inlen := 5 } : State).xp.toNat + 4 < ({ base .aRun with inlen := 5 } : State).inlen.toNat := by
  decide

theorem witness_MoveEmitsAndPromotesRankC :
    ((0x09FF : DW) &&& 0x3F00 = 0x0900 ∧ (0x09FF : DW).byte ≠ 0) ∧ lastSymbol.xp.toNat + 4 < lastSymbol.inlen.toNat ∧
    ((1 : Byte) ≠ 0 ∧ (1 : Byte) ≤ 255) ∧ (254 : Byte) < 255 := by decide

theorem witness_AEndChecksTheHeader :
    ({ base .aRun with inlen := 1027 } : State).inlen.toNat < 1028 ∧
    1028 ≤ ({ base .aRun with inlen := 1028 } : State).inlen.toNat := by decide

theorem witness_CntLdLoadsALittleEndianCounter :
    ∃ s : State, s.j.toNat < 256 ∧ 4 * s.j.toNat + 4 ≤ s.inlen.toNat - 4 ∧
      s.xbuf.read (4 * s.j.toNat) = some 1 ∧ s.xbuf.read (4 * s.j.toNat + 1) = some 2 ∧
      s.xbuf.read (4 * s.j.toNat + 2) = some 3 ∧ s.xbuf.read (4 * s.j.toNat + 3) = some 4 :=
  ⟨{ base .bParse with j := 255, inlen := 1028, xbuf := loadFrom 1020 [1, 2, 3, 4] }, by decide⟩

theorem witness_LenChkSumsAndChecks :
    (exactSum (base .bSum).freq = 0) ∧
    ((1 : BitVec 40) ≠ 0 ∧ (1 : BitVec 40).toNat ≠ exactSum (base .bSum).freq) ∧
    ((4 : BitVec 40).toNat = exactSum (Table.zero.setEntry 0 4) ∧ exactSum (Table.zero.setEntry 0 4) ≠ 0) := by
  decide +kernel

theorem witness_RankSelPicksTheLargestCounter :
    ∃ s : State, s.k.toNat < 256 ∧ ∃ b, s.rem.entry b ≠ 0 :=
  ⟨{ base .bRank with k := 255, rem := Table.zero.setEntry 255 1 }, by decide, 255, by decide +kernel⟩

theorem witness_IntroPlacesTheRankedSymbol :
    (∃ s : State, s.i.toNat < 256 ∧ s.inlen.toNat - 4 ≤ s.m.toNat) ∧
    ∃ s : State, s.i.toNat < 256 ∧ s.order.entry (BitVec.ofNat 8 s.i.toNat) = 0 ∧
      s.m.toNat < s.inlen.toNat - 4 ∧ s.xbuf.read s.m.toNat = some 9 :=
  ⟨⟨{ base .bBuild with i := 255, m := 1024, inlen := 1028 }, by decide +kernel⟩,
    ⟨{ base .bBuild with i := 255, m := 1024, inlen := 1029, xbuf := [(1024, 9)] }, by decide +kernel⟩⟩

theorem witness_RetireEmitsAndShifts :
    (cursorAt 0 0 1).op.toNat < (cursorAt 0 0 1).total.toNat ∧ (cursorAt 0 0 1).k.toNat ≤ 1 ∧
    2 ≤ ({ cursorAt 0 0 1 with k := 2 } : State).k.toNat ∧ ({ cursorAt 0 0 1 with k := 256 } : State).k.toNat ≤ 256 := by
  decide

theorem witness_StayEmitsAndConsumesOneByte : (cursorAt 1025 1026 1).op.toNat < (cursorAt 1025 1026 1).total.toNat := by
  decide

theorem witness_DemoteMovesTheFrontToRankIdx :
    ((0x1D01 : DW) &&& 0x3F00 = 0x1D00 ∧ (0x1D01 : DW).byte ≠ 0) ∧
    (cursorAt 1025 1026 1).op.toNat < (cursorAt 1025 1026 1).total.toNat := by decide

theorem witness_ShlCopiesLeftAndDuplicates : (0 : Byte) < 1 ∧ (255 : Byte) ≤ 255 := by decide

theorem identity_injective : Function.Injective Table.identity.entry := by
  intro a b h
  simpa using h

theorem witness_RankTableStaysAPermutation :
    ∃ (i : Instr) (s t : State), exec i s = .next t ∧ Function.Injective s.t.entry :=
  ⟨.mtfaMove 255, lastSymbol, _, rfl, identity_injective⟩

theorem witness_OperationsWriteOnlyTheirOwnState :
    ∃ t, exec (.expDemote 1) (cursorAt 1025 1026 1) = .next t ∧ Instr.expDemote 1 ≠ .start := ⟨_, rfl, by decide⟩

theorem witness_OperationsStoreOnlyAtXpAndOp :
    (∃ t, exec (.mtfaMove 7) lastSymbol = .next t) ∧ emitsIntermediate (.mtfaMove 7) ∧
    (∃ t, exec .expStay (cursorAt 1025 1026 1) = .next t) ∧ emitsOutput .expStay ∧
    ¬emitsIntermediate .expStay ∧ ¬emitsOutput (.mtfaMove 7) := by
  refine ⟨⟨_, rfl⟩, .inr ⟨7, rfl⟩, ⟨_, rfl⟩, .inr (.inl rfl), ?_, ?_⟩ <;> simp [emitsIntermediate, emitsOutput]

theorem witness_OperationFaultsArePrecise :
    (∃ t, exec .hdrRd { base .hdr with inlen := 4 } = .next t ∧ t.phase = .fault) ∧
    (∃ t, exec .aEnd { base .aRun with inlen := 1027 } = .next t ∧ t.phase = .fault) ∧
    (∃ t, exec .introduce { base .bBuild with m := 1024, inlen := 1028 } = .next t ∧ t.phase = .fault) :=
  ⟨⟨_, rfl, rfl⟩, ⟨_, rfl, rfl⟩, ⟨_, rfl, rfl⟩⟩

theorem witness_CursorFetchFaultsInsteadOfDispatching :
    ((cursorAt 1026 1027 1).host = [] ∧ (cursorAt 1026 1027 1).phase = .bExpand ∧
      eMore (cursorAt 1026 1027 1) = true ∧ exhausted (cursorAt 1026 1027 1) = false ∧
      (cursorAt 1026 1027 1).inlen.toNat - 4 ≤
        ((cursorAt 1026 1027 1).cs.entry (cursorAt 1026 1027 1).val).toNat) ∧
    (eMore (cursorAt 1025 1026 1) = true ∧ exhausted (cursorAt 1025 1026 1) = false ∧
      ((cursorAt 1025 1026 1).cs.entry (cursorAt 1025 1026 1).val).toNat <
        (cursorAt 1025 1026 1).inlen.toNat - 4 ∧
      (cursorAt 1025 1026 1).xbuf.read 1025 = some 9) ∧
    exhausted (cursorAt 1026 1026 1) = true ∧ eMore (cursorAt 1026 1026 0) = false := by decide +kernel

theorem witness_StepRunsTheDecodedOperation :
    ((base .bRank).host = [] ∧ (base .bRank).phase.quiescent = false ∧
      dispatchByte (base .bRank) = .next (.ok 0) ∧
      decodeDispatch (DW.form .bRank (flag1 (base .bRank)) (flag0 (base .bRank)) 0) = .ok .rankEnd) ∧
    (∃ s : State, s.host = [.wait] ∧ s.phase.quiescent = false ∧ dispatchByte s = .next (.ok 0) ∧
      decodeDispatch (DW.form s.phase (flag1 s) (flag0 s) 0) = .ok .rankEnd) ∧
    ∃ s : State, s.host = [.writeCtrl 0xFF] ∧ decodeCtrl 0xFF = .ok .start := by
  refine ⟨⟨rfl, rfl, rfl, ?_⟩, ⟨{ base .bRank with host := [.wait] }, rfl, rfl, rfl, ?_⟩,
    ⟨{ base .idle with host := [.writeCtrl 0xFF] }, rfl, by decide⟩⟩ <;> decide +kernel

theorem witness_QuiescentPhaseChangesNothing :
    (base .fault).host = [] ∧ (base .fault).phase.quiescent = true := ⟨rfl, rfl⟩

theorem witness_PhaseChangesOnlyAlongTheGraph :
    (∃ t, sequencerTurn (base .hdr) = .run .hdrRd (base .hdr) ∧ exec .hdrRd (base .hdr) = .next t) ∧
    (∃ t, sequencerTurn (cursorAt 1026 1027 1) = .settle (.next t)) ∧
    (∃ t, sequencerTurn (base .done) = .settle (.next t)) ∧
    (∃ t, (base .done).state = statusOf (base .done).phase ∧ (base .done).state ≠ .busy ∧
      exec .start (base .done) = .next t) := by
  refine ⟨⟨_, ?_, rfl⟩, ⟨_, rfl⟩, ⟨_, rfl⟩, ⟨_, rfl, by decide, rfl⟩⟩
  exact sequencerTurn_of_decode rfl (b := 0) rfl (by decide +kernel)

theorem witness_CtrlWriteStartsOnlyWhenNotBusy :
    (∃ s : State, s.host = [.writeCtrl 0x01] ∧ (0x01 : Byte).getLsbD 0 = true ∧ s.state ≠ .busy) ∧
    (∃ s : State, s.host = [.writeCtrl 0xFE] ∧ (0xFE : Byte).getLsbD 0 = false) ∧
    ∃ s : State, s.host = [.writeCtrl 0x01] ∧ s.state = .busy :=
  ⟨⟨{ base .idle with host := [.writeCtrl 0x01] }, by decide⟩,
    ⟨{ base .idle with host := [.writeCtrl 0xFE] }, by decide⟩,
    ⟨{ base .hdr with host := [.writeCtrl 0x01] }, by decide⟩⟩

theorem maxInlen_toNat : (BitVec.ofNat 32 Config.maxInlen).toNat = Config.maxInlen := by
  rw [BitVec.toNat_ofNat, Nat.mod_eq_of_lt Config.maxInlen_lt]

/-- At the boundary: INLEN = MAX_INLEN and the IBUF address MAX_INLEN − 1. -/
theorem witness_HostWritesOnlyWhileNotBusy :
    (∃ s : State, s.host = [.writeInlen (BitVec.ofNat 32 Config.maxInlen)] ∧ s.state ≠ .busy ∧
      (BitVec.ofNat 32 Config.maxInlen).toNat ≤ Config.maxInlen) ∧
    (∃ s : State, s.host = [.writeInlen 5] ∧ s.state = .busy) ∧
    (∃ s : State, s.host = [.writeExplen 7] ∧ s.state ≠ .busy) ∧
    (∃ s : State, s.host = [.writeExplen 7] ∧ s.state = .busy) ∧
    (∃ s : State, s.host = [.writeIbuf (BitVec.ofNat 32 (Config.maxInlen - 1)) 1] ∧ s.state ≠ .busy ∧
      (BitVec.ofNat 32 (Config.maxInlen - 1)).toNat < Config.maxInlen) ∧
    ∃ s : State, s.host = [.writeIbuf 0 1] ∧ s.state = .busy := by
  refine ⟨⟨{ base .done with host := [.writeInlen (BitVec.ofNat 32 Config.maxInlen)] }, rfl, by decide, ?_⟩,
    ⟨{ base .hdr with host := [.writeInlen 5] }, by decide⟩,
    ⟨{ base .done with host := [.writeExplen 7] }, by decide⟩,
    ⟨{ base .hdr with host := [.writeExplen 7] }, by decide⟩,
    ⟨{ base .done with host := [.writeIbuf (BitVec.ofNat 32 (Config.maxInlen - 1)) 1] }, rfl, by decide, ?_⟩,
    ⟨{ base .hdr with host := [.writeIbuf 0 1] }, by decide⟩⟩
  · exact Nat.le_of_eq maxInlen_toNat
  · have h5 := Config.five_le_maxInlen
    have hm := Config.maxInlen_lt
    rw [BitVec.toNat_ofNat, Nat.mod_eq_of_lt (by omega)]
    omega

/-- Every window at its edge: the last byte of OBUF, the address OLEN, and an OBUF that may not be read. -/
theorem witness_HostReadsWithinTheirWindows :
    (base .fault).state ≠ .busy ∧ (base .hdr).state = .busy ∧ HostReg.olen ≠ .status ∧
    (∃ s : State, s.state = .done ∧ 0 < s.olen.toNat ∧ s.obuf.read 0 = some 9) ∧
    (∃ s : State, s.state = .done ∧ s.olen.toNat ≤ 1) ∧ (base .bExpand).state ≠ .done :=
  ⟨by decide, by decide, by decide, ⟨{ base .done with olen := 1, obuf := [(0, 9)] }, by decide⟩,
    ⟨{ base .done with olen := 1 }, by decide⟩, by decide⟩

theorem witness_HardwareResetFromAnyPhase : ∃ s : State, s.phase = .bExpand ∧ s.host = [.reset] :=
  ⟨{ base .bExpand with host := [.reset] }, rfl, rfl⟩

theorem witness_BootSequenceLoadsTheInput :
    ∃ s : State, s.state ≠ .busy ∧ [0x41].length ≤ Config.maxInlen ∧ s.host = loadAndStart [0x41] 0 :=
  ⟨{ State.reset with host := loadAndStart [0x41] 0 }, (by decide : State.reset.state ≠ .busy),
    Nat.le_trans (by decide) Config.five_le_maxInlen, rfl⟩

theorem witness_WithFetchWordRunsTheOperation :
    decodeTableWord 8 0x01 = some .start ∧ decodeTableWord 16 0x1DFF = some (.expDemote 255) := by decide

theorem witness_UndefinedAccessesStopByName :
    (base .aRun).inlen.toNat - 4 ≤ (base .aRun).xp.toNat ∧
    (({ base .bParse with j := 255, inlen := 1024 } : State).j.toNat < 256 ∧
      ({ base .bParse with j := 255, inlen := 1024 } : State).inlen.toNat - 4 ≤
        4 * ({ base .bParse with j := 255, inlen := 1024 } : State).j.toNat) ∧
    256 ≤ ({ base .bParse with j := 256 } : State).j.toNat ∧ 256 ≤ ({ base .bRank with k := 256 } : State).k.toNat ∧
    256 ≤ ({ base .bBuild with i := 256 } : State).i.toNat ∧
    (base .bExpand).total.toNat ≤ (base .bExpand).op.toNat := by decide

/-! A state of the expansion that meets the whole invariant: one symbol with the counter 3, an intermediate sequence of `n`
bytes. With n = 1025 its next cursor byte is beyond the sequence; with n = 1027 it is not. -/

/-- The intermediate sequence: the counter of symbol 0 is 3, every other byte is 0. -/
def oneSymbol (n : Nat) : List Byte := 3 :: List.replicate (n - 1) 0

/-- The state at EXP.ENTER's end for that sequence. -/
def expansion (n : Nat) : State :=
  { base .bExpand with
    inlen := BitVec.ofNat 32 (n + 4), xp := BitVec.ofNat 32 n, j := 256, k := 1, i := 1, m := 1027, total := 3
    freq := Table.zero.setEntry 0 3, rem := Table.zero, order := Table.zero
    cs := Table.zero.setEntry 0 1025, ce := Table.zero.setEntry 0 1027
    ibuf := loadFrom 0 (List.replicate (n + 4) 0), xbuf := loadFrom 0 (oneSymbol n) }

theorem expansion_total : Functional.total (Table.zero.setEntry (0 : Byte) (3 : BitVec 32)) = 3 := by decide +kernel

theorem expansion_ranked : countNonzero (Table.zero.setEntry (0 : Byte) (3 : BitVec 32)) = 1 := by decide +kernel

theorem expansion_inv {n : Nat} (h1 : 1025 ≤ n) (h2 : n < 2 ^ 31) : Inv (expansion n) := by
  have hx : (expansion n).xp.toNat = n := by simp only [expansion, BitVec.toNat_ofNat]; omega
  have hl : (expansion n).inlen.toNat = n + 4 := by simp only [expansion, BitVec.toNat_ofNat]; omega
  have hxl : (expansion n).xlen = n := by rw [State.xlen, hl]; omega
  have hc : (loadFrom 0 (oneSymbol n)).Covers n := by
    have := covers_loadFrom (oneSymbol n)
    rwa [show (oneSymbol n).length = n by simp [oneSymbol]; omega] at this
  constructor
  case ibuf_wf => exact wf_loadFrom _ _
  case xbuf_wf => exact wf_loadFrom _ _
  case obuf_wf => exact List.Pairwise.nil
  case status => rfl
  case cause => exact ⟨fun _ (h : Phase.bExpand = .fault) => (by cases h), fun _ => rfl⟩
  case olen => exact fun _ => rfl
  case rankTable => exact fun _ => identity_injective
  case intermediate => exact fun _ => by rw [hx]; exact hc
  case boundary => exact fun _ => ⟨by rw [hx, hxl], by omega⟩
  case untouched => exact fun _ _ h => absurd rfl h
  case total => exact fun _ => ⟨expansion_total.symm, (by decide : 0 < (3 : BitVec 40).toNat)⟩
  case cursors =>
    intro b
    show ((Table.zero.setEntry 0 1025).entry b).toNat ≤ ((Table.zero.setEntry 0 1027).entry b).toNat
    rw [Table.entry_setEntry, Table.entry_setEntry]
    split
    · exact (by decide : (1025 : BitVec 41).toNat ≤ (1027 : BitVec 41).toNat)
    · exact Nat.le_refl _
  case cursorBound =>
    intro _ b
    show ((Table.zero.setEntry 0 1027).entry b).toNat ≤ 1027
    rw [Table.entry_setEntry]
    split
    · exact Nat.le_refl _
    · rw [Table.entry_zero]
      decide
  case positions =>
    exact ⟨(by decide : (256 : BitVec 9).toNat ≤ 256), (by decide : (1 : BitVec 9).toNat ≤ 256),
      (by decide : (1 : BitVec 9).toNat ≤ 256), (by decide : (0 : BitVec 40).toNat ≤ (3 : BitVec 40).toNat)⟩
  case emitted => exact fun _ => by rw [hx, hxl]
  case introduced => exact fun _ => ⟨fun h => absurd rfl h, fun _ => ⟨expansion_ranked.symm, Nat.le_refl 1⟩⟩
  case expand =>
    exact fun _ => ⟨(by decide : (0 : Byte) = Table.identity.entry 0),
      (by decide : (1027 : BitVec 41).toNat = 1024 + (3 : BitVec 40).toNat)⟩
  case output => exact fun _ => ⟨fun a => rfl, fun h => absurd rfl h⟩
  all_goals intro h; simp [expansion, base] at h

theorem expansion_loaded {n : Nat} (h : n < 2 ^ 31) : InputLoaded (expansion n) := by
  intro _ a ha
  have hl : (expansion n).inlen.toNat = n + 4 := by simp only [expansion, BitVec.toNat_ofNat]; omega
  have := covers_loadFrom (List.replicate (n + 4) 0) a
  rw [List.length_replicate] at this
  exact this.trans (decide_eq_true (hl ▸ ha))

theorem witness_CursorFaultOnlyWhenTheRegionIsShort :
    ∃ t, Inv (expansion 1025) ∧ (expansion 1025).host = [] ∧ (expansion 1025).phase = .bExpand ∧
      step (expansion 1025) = .next t ∧ t.phase = .fault := by
  refine ⟨raiseTruncated .cursor (expansion 1025), expansion_inv (by decide) (by decide), rfl, rfl, ?_, rfl⟩
  rw [step_of_no_move rfl, sequencerStep_bExpand_cursor rfl rfl (by decide +kernel), if_pos (by decide +kernel)]

theorem expansion_steps : ∃ t, step (expansion 1027) = .next t ∧ t.phase = .bExpand := by
  have h : (after (step (expansion 1027)) fun t => t.phase) = some .bExpand := by decide +kernel
  cases hs : step (expansion 1027) with
  | next t => exact ⟨t, rfl, by simpa [hs, after] using h⟩
  | fault r => simp [hs, after] at h
  | refused r => simp [hs, after] at h

theorem witness_EveryStepKeepsTheInvariant :
    ∃ t, Inv (expansion 1027) ∧ step (expansion 1027) = .next t :=
  have ⟨t, ht, _⟩ := expansion_steps
  ⟨t, expansion_inv (by decide) (by decide), ht⟩

theorem witness_SequencerNeverStops :
    Inv (expansion 1027) ∧ InputLoaded (expansion 1027) ∧ (expansion 1027).host = [] :=
  ⟨expansion_inv (by decide) (by decide), expansion_loaded (by decide), rfl⟩

theorem witness_WrittenBytesStay :
    ∃ t, Inv (expansion 1027) ∧ (expansion 1027).host = [] ∧ step (expansion 1027) = .next t ∧
      (expansion 1027).xbuf.read 0 = some 3 ∧
      Memory.read [(0, 9)] 0 = some 9 :=
  have ⟨t, ht, _⟩ := expansion_steps
  ⟨t, expansion_inv (by decide) (by decide), rfl, ht, rfl, rfl⟩

theorem expansion_count : CountIdentity (expansion 1027) := by
  constructor
  · exact fun _ => by decide +kernel
  · intro h
    exact absurd h (by decide)

/-- Two ranked symbols, 5 with the counter 2 and 4 with the counter 1, as the ranking leaves them. -/
def twoRanked : State :=
  { base .bBuild with
    m := 1024, k := 2, total := 3, inlen := 1031, order := overlay Table.zero [5, 4]
    freq := (Table.zero.setEntry 5 2).setEntry 4 1, xbuf := [(1024, 0), (1026, 1)] }

theorem twoRanked_ranked : RankedWithSlots twoRanked := by
  refine ⟨rfl, rfl, rfl, rfl, by decide, by decide +kernel, fun m n hm hn => ?_, by decide +kernel,
    by decide +kernel⟩
  have hn' : n < 2 := hn
  obtain ⟨rfl, rfl⟩ : m = 0 ∧ n = 1 := by omega
  decide +kernel

theorem witness_CountIdentityIsKept :
    (RankedWithSlots twoRanked ∧ twoRanked.cs = Table.zero ∧ twoRanked.ce = Table.zero) ∧
    ∃ t, (expansion 1027).host = [] ∧ (expansion 1027).phase = .bExpand ∧ CountIdentity (expansion 1027) ∧
      step (expansion 1027) = .next t ∧ t.phase = .bExpand :=
  have ⟨t, ht, hp⟩ := expansion_steps
  ⟨⟨twoRanked_ranked, rfl, rfl⟩, t, rfl, rfl, expansion_count, ht, hp⟩

theorem witness_LastIterationRetires :
    ∃ s : State, s.host = [] ∧ s.phase = .bExpand ∧ CountIdentity s ∧ s.op.toNat + 1 = s.total.toNat := by
  refine ⟨cursorAt 1026 1026 1, rfl, rfl, ⟨fun _ => by decide +kernel, fun h => absurd h (by decide)⟩, by decide⟩

/-! ### The functional view and whole decodes -/

/-- An input that decodes to the one byte 00: its intermediate sequence is 01 00 00 … (1025 bytes), the counter of symbol 0
being 1 and its SLOT byte 0. -/
def shortInput : List Byte := [0, 0, 0, 0, 1, 1] ++ List.replicate 1023 0

/-- Symbols 0 repeat the byte at rank 0. -/
theorem stageAFrom_zeros (t : Table Byte) (n : Nat) :
    Functional.stageAFrom t (List.replicate n 0) = List.replicate n (t.entry 0) := by
  have h : ∀ t : Table Byte, moveToFront t 0 = t := fun t => Table.setEntry_entry t 0
  induction n with
  | zero => rfl
  | succ n ih => rw [List.replicate_succ, List.replicate_succ, Functional.stageAFrom, h, ih]

theorem short_intermediate : Functional.stageA (shortInput.drop 4) = 1 :: List.replicate 1024 0 := by
  have h : (moveToFront (moveToFront Table.identity 1) 1).entry 0 = 0 := by decide +kernel
  have h1 : Table.identity.entry 1 = 1 := by decide
  have h2 : (moveToFront Table.identity 1).entry 1 = 0 := by decide +kernel
  show Functional.stageAFrom _ (1 :: 1 :: List.replicate 1023 0) = _
  rw [Functional.stageAFrom, Functional.stageAFrom, stageAFrom_zeros, h, h1, h2]
  rfl

theorem getElem_short (k n : Nat) (h : n < k) : (1 :: List.replicate k (0 : Byte))[n + 1]? = some 0 := by
  rw [List.getElem?_cons_succ, List.getElem?_replicate, if_pos h]

theorem getD_short (k n : Nat) : (1 :: List.replicate k (0 : Byte)).getD (n + 1) 0 = 0 := by
  rw [List.getD_cons_succ, List.getD_eq_getElem?_getD, List.getElem?_replicate]
  split <;> rfl

theorem short_counters (k : Nat) :
    Functional.counters (1 :: List.replicate k 0) = Table.zero.setEntry 0 1 := by
  apply Table.ext_entry
  intro b
  rw [Functional.counters, Table.entry_tabulate, Table.entry_setEntry, getD_short, getD_short, getD_short]
  by_cases h : b = 0
  · subst h
    exact (by decide : le32 1 0 0 0 = 1)
  · have h0 : b.toNat ≠ 0 := fun e => h (BitVec.eq_of_toNat_eq e)
    rw [if_neg h, show 4 * b.toNat = (4 * b.toNat - 1) + 1 by omega, getD_short, Table.entry_zero]
    decide

theorem short_ranked : Functional.ranked (Table.zero.setEntry 0 1) = [0] := by decide +kernel

theorem short_total : Functional.total (Table.zero.setEntry (0 : Byte) (1 : BitVec 32)) = 1 := by decide +kernel

theorem stageB_short (k : Nat) (h : 1024 ≤ k) :
    Functional.stageB (1 :: List.replicate k 0) 0 = .data [0] := by
  have hm : (1 :: List.replicate k (0 : Byte))[1024]? = some 0 := getElem_short k 1023 (by omega)
  simp only [Functional.stageB, short_counters, short_total, short_ranked, Functional.introduceAll,
    Functional.introStart, Config.headerBytes, hm]
  have he : ∀ x e, Functional.expand x 1 e = (Functional.advance x e).map fun _ => [e.val] := by
    intro x e
    unfold Functional.expand
    cases Functional.advance x e <;> rfl
  rw [if_neg (by decide), if_neg (by decide), he, Functional.advance, if_pos (by decide +kernel)]
  decide +kernel

theorem test_decode_short_input : Functional.decodeBuffer shortInput 0 = .data [0] := by
  rw [Functional.decodeBuffer, if_neg (by decide +kernel), short_intermediate]
  have h : ∀ k, 1024 ≤ k → (if (1 :: List.replicate k (0 : Byte)).length < Config.headerBytes
      then Functional.Result.fault .header else Functional.stageB (1 :: List.replicate k 0) 0) = .data [0] := by
    intro k hk
    rw [List.length_cons, List.length_replicate, Config.headerBytes, if_neg (by omega), stageB_short k hk]
  exact h 1024 (Nat.le_refl _)

theorem witness_ResultLengthIsTheCounterSum :
    Functional.decodeBuffer shortInput 0 = .data [0] ∧ (0 : Nat) = 0 := ⟨test_decode_short_input, rfl⟩

/-- R110, the source's concrete scenario: 41 00 gives 41 41. -/
theorem test_stageA : Functional.stageA [0x41, 0x00] = [0x41, 0x41] := by decide +kernel

theorem witness_TagIsNotInterpreted :
    ∃ s u : State, TagTwins s u ∧ s.tag ≠ u.tag ∧ s.ibuf ≠ u.ibuf := by
  refine ⟨{ base .hdr with ibuf := [(0, 1)] }, { base .hdr with ibuf := [(0, 2)], tag := #v[1, 2, 3, 4] },
    ⟨rfl, fun a h => ?_, fun a h => ?_⟩, by decide, by decide⟩
  · have h0 : a ≠ 0 := by omega
    simp [Memory.read, h0]
  · by_cases h0 : a = 0 <;> simp [Memory.read, h0]

theorem witness_StartForgetsTheLastDecode :
    (base .done).state ≠ .busy ∧ (base .fault).state ≠ .busy ∧ (base .done).host = (base .fault).host ∧
    (base .done).inlen = (base .fault).inlen ∧ (base .done).explen = (base .fault).explen ∧
    (base .done).ibuf = (base .fault).ibuf := by decide

theorem witness_StageAStepsComputeStageA :
    ∃ (s : State) (buf : List Byte), s.host = [] ∧ s.phase = .aRun ∧ s.xp = 0 ∧ s.t = Table.identity ∧
      s.xbuf = [] ∧ 5 ≤ buf.length ∧ s.inlen.toNat = buf.length ∧ some s.seed = buf[4]? ∧
      ∀ a, a < buf.length → s.ibuf.read a = buf[a]? := by
  refine ⟨{ base .aRun with inlen := 6, seed := 0x41, ibuf := loadFrom 0 [0, 0, 0, 0, 0x41, 0] },
    [0, 0, 0, 0, 0x41, 0], rfl, rfl, rfl, rfl, rfl, by decide, by decide, by decide, fun a _ => ?_⟩
  rw [read_loadFrom]
  simp

theorem witness_RankingSortsTheSymbols :
    ∃ s : State, s.host = [] ∧ s.phase = .bRank ∧ s.k = 0 ∧ s.rem = s.freq ∧ s.freq.entry 7 ≠ 0 :=
  ⟨{ base .bRank with freq := Table.zero.setEntry 7 3, rem := Table.zero.setEntry 7 3 }, rfl, rfl, rfl, rfl,
    by decide +kernel⟩

theorem witness_IntroductionsLayTheWindows : RankedWithSlots twoRanked ∧ 0 < twoRanked.k.toNat :=
  ⟨twoRanked_ranked, by decide⟩

/-- Of StepMachineRefinesDecode and EveryDecodeEndsWithinItsBound. -/
theorem witness_ReadyToStart :
    ∃ (s : State) (buf : List Byte), ReadyToStart s buf 0 ∧ Functional.decodeBuffer buf 0 = .data [0] := by
  refine ⟨{ State.reset with inlen := 1029, ibuf := loadFrom 0 shortInput, host := [.writeCtrl 0x01] }, shortInput,
    ⟨by decide, by decide +kernel, rfl, fun a _ => ?_, rfl⟩, test_decode_short_input⟩
  rw [read_loadFrom]
  simp

/-- An input whose counters of symbols 0 and 1 are both 2³¹, so that they sum to 2³². -/
def largeInput : List Byte := [0, 0, 0, 0, 0, 0, 0, 0x80, 1, 0, 0, 1, 1] ++ List.replicate 1015 0

theorem large_intermediate :
    Functional.stageA (largeInput.drop 4) = [0, 0, 0, 0x80, 0, 0, 0, 0x80] ++ List.replicate 1016 0 := by
  have h : ∀ (l : List Byte) (t : Table Byte), Functional.stageAFrom t (l ++ List.replicate 1015 0) =
      Functional.stageAFrom t l ++ List.replicate 1015 ((l.foldl moveToFront t).entry 0) := by
    intro l
    induction l with
    | nil => exact fun t => stageAFrom_zeros t 1015
    | cons c rest ih => exact fun t => congrArg (t.entry c :: ·) (ih _)
  show Functional.stageAFrom _ ([0, 0, 0, 0x80, 1, 0, 0, 1, 1] ++ List.replicate 1015 0) = _
  rw [h, (by decide +kernel : (([0, 0, 0, 0x80, 1, 0, 0, 1, 1] : List Byte).foldl moveToFront Table.identity).entry 0 = 0),
    (by decide +kernel : Functional.stageAFrom Table.identity [0, 0, 0, 0x80, 1, 0, 0, 1, 1]
      = [0, 0, 0, 0x80, 0, 0, 0, 0x80] ++ [0])]
  rfl

theorem large_counters :
    Functional.counters ([0, 0, 0, 0x80, 0, 0, 0, 0x80] ++ List.replicate 1016 0)
      = (Table.zero.setEntry 0 0x80000000).setEntry 1 0x80000000 := by
  have hz : ∀ n, 8 ≤ n → ([0, 0, 0, 0x80, 0, 0, 0, 0x80] ++ List.replicate 1016 (0 : Byte)).getD n 0 = 0 := by
    intro n h
    rw [List.getD_eq_getElem?_getD, List.getElem?_append_right h, List.getElem?_replicate]
    split <;> rfl
  apply Table.ext_entry
  intro b
  rw [Functional.counters, Table.entry_tabulate, Table.entry_setEntry, Table.entry_setEntry]
  by_cases h1 : b = 1
  · subst h1; rfl
  by_cases h0 : b = 0
  · subst h0; rfl
  have hb : 2 ≤ b.toNat := by bv_omega
  rw [if_neg h1, if_neg h0, hz _ (by omega), hz _ (by omega), hz _ (by omega), hz _ (by omega), Table.entry_zero]
  rfl

theorem witness_LargeSumsGiveNoOutput :
    1028 ≤ largeInput.length ∧ largeInput.length ≤ 2 ^ 31 + 1027 ∧
    2 ^ 32 = exactSum (Functional.counters (Functional.stageA (largeInput.drop 4))) := by
  have hl : largeInput.length = 1028 := by rw [largeInput, List.length_append, List.length_replicate]; rfl
  rw [hl, large_intermediate, large_counters]
  exact ⟨Nat.le_refl _, by decide, by decide +kernel⟩

end Sys2Proof.Tests
end

/-! PROOF. The phase graph, the condition flags and the host's command START (spec file 10_state.md). -/

namespace Sys2Proof

/-! ### The phase whose dispatch words select an operation -/

/-- The phase in which the sequencer selects an operation, the PHASE column of rule R90; START is the host's. -/
def Instr.phase : Instr → Option Phase
  | .start => none
  | .hdrRd => some .hdr
  | .mtfaKeep => some .aRun
  | .mtfaMove _ => some .aRun
  | .aEnd => some .aRun
  | .cntLd => some .bParse
  | .lenChk => some .bSum
  | .rankSel => some .bRank
  | .rankEnd => some .bRank
  | .introduce => some .bBuild
  | .expEnter => some .bBuild
  | .expRetire => some .bExpand
  | .expStay => some .bExpand
  | .expDemote _ => some .bExpand
  | .expDone => some .bExpand

theorem Phase.code_injective : Function.Injective Phase.code := by
  intro p q
  cases p <;> cases q <;> decide

theorem DW.phaseCode_form (p : Phase) (f1 f0 : Bool) (b : Byte) : (DW.form p f1 f0 b).phaseCode = p.code := by
  calc (DW.form p f1 f0 b).extractLsb' 10 4
      = (p.code ++ BitVec.ofBool f1 ++ BitVec.ofBool f0).extractLsb' 2 4 :=
        BitVec.extractLsb'_append_eq_of_le (by decide)
    _ = (p.code ++ BitVec.ofBool f1).extractLsb' 1 4 := BitVec.extractLsb'_append_eq_of_le (by decide)
    _ = p.code := BitVec.extractLsb'_append_eq_left

/-- A row whose mask covers bits 13:10 matches only words that carry its phase code. -/
theorem Row.phaseCode_eq_of_accepts {r : Row} {w : DW} (hm : r.mask.phaseCode = 15) (h : r.accepts w = true) :
    w.phaseCode = r.pattern.phaseCode := by
  have hp : w &&& r.mask = r.pattern := by simpa [Row.accepts] using h
  have hx : (w &&& r.mask).phaseCode = w.phaseCode &&& r.mask.phaseCode := BitVec.extractLsb'_and
  rw [← hp, hx, hm]
  exact BitVec.and_allOnes.symm

theorem mask_phaseCode_of_mem_rows {r : Row} (h : r ∈ rows) : r.mask.phaseCode = 15 := by
  revert r
  decide

theorem build_phase_of_mem_rows {r : Row} (h : r ∈ rows) (b : Byte) :
    (r.build b).phase.map Phase.code = some r.pattern.phaseCode := by
  unfold rows at h
  fin_cases h <;> rfl

/-- The operation a word selects is one of the phase that the word carries (R88, R90). -/
theorem decodeDispatch_phase {w : DW} {i : Instr} (h : decodeDispatch w = .ok i) :
    i.phase.map Phase.code = some w.phaseCode := by
  unfold decodeDispatch at h
  split at h
  next r hr =>
    injection h with h
    have hmem : r ∈ rows := List.mem_of_find?_eq_some hr
    have hacc : r.accepts w = true := List.find?_some (p := fun r : Row => r.accepts w) hr
    rw [← h, build_phase_of_mem_rows hmem, Row.phaseCode_eq_of_accepts (mask_phaseCode_of_mem_rows hmem) hacc]
  next => cases h

theorem decodeDispatch_form_phase {p : Phase} {f1 f0 : Bool} {b : Byte} {i : Instr}
    (h : decodeDispatch (DW.form p f1 f0 b) = .ok i) : i.phase = some p := by
  have hc := decodeDispatch_phase h
  rw [DW.phaseCode_form] at hc
  exact Option.map_injective Phase.code_injective hc

/-! ### The command of a CTRL write -/

/-- Bit 0 of CTRL write data alone decides the command (R51). -/
theorem decodeCtrl_eq (data : Byte) :
    decodeCtrl data = if data.getLsbD 0 = true then .ok .start else .error .noCommand := by
  have hbit : data &&& 0x01 = (BitVec.ofBool (data.getLsbD 0)).setWidth 8 :=
    BitVec.and_one_eq_setWidth_ofBool_getLsbD
  unfold decodeCtrl
  rw [hbit]
  cases data.getLsbD 0 <;> rfl

end Sys2Proof

namespace Sys2Proof.Machine

open Sys2Proof.Claims

/-! ### What a turn can be -/

theorem readCursor_eq_error {s : State} {c : Cause} (h : readCursor s = .next (.error c)) : c = .cursor := by
  unfold readCursor at h
  split at h
  · injection h with h
    injection h with h
    exact h.symm
  · obtain ⟨b, -, hb⟩ := andThen_eq_next.1 h
    cases hb

/-- The only exception of a dispatch byte is the cursor fetch of the expansion (R151). -/
theorem dispatchByte_eq_error {s : State} {c : Cause} (h : dispatchByte s = .next (.error c)) :
    s.phase = .bExpand ∧ c = .cursor := by
  unfold dispatchByte at h
  split at h
  case h_1 =>
    split at h
    · obtain ⟨b, -, hb⟩ := andThen_eq_next.1 h
      cases hb
    · cases h
  case h_2 hp =>
    split at h
    · exact ⟨hp, readCursor_eq_error h⟩
    · cases h
  all_goals cases h

theorem sequencerTurn_eq_run {s u : State} {i : Instr} (h : sequencerTurn s = .run i u) :
    u = s ∧ ∃ b, dispatchByte s = .next (.ok b) ∧
      decodeDispatch (DW.form s.phase (flag1 s) (flag0 s) b) = .ok i := by
  unfold sequencerTurn at h
  split at h
  · cases h
  · split at h
    next b hb =>
      split at h
      next hd =>
        injection h with hi hs
        exact ⟨hs.symm, b, hb, hi ▸ hd⟩
      next => cases h
    all_goals cases h

/-- The sequencer runs an operation only in the phase that selects it (R33, R90). -/
theorem phase_of_sequencerTurn_eq_run {s u : State} {i : Instr} (h : sequencerTurn s = .run i u) :
    i.phase = some s.phase := by
  obtain ⟨-, b, -, hd⟩ := sequencerTurn_eq_run h
  exact decodeDispatch_form_phase hd

theorem sequencerTurn_eq_settle_next {s t : State} (h : sequencerTurn s = .settle (.next t)) :
    (s.phase.quiescent = true ∧ t = s) ∨
    ∃ c, dispatchByte s = .next (.error c) ∧ t = raiseTruncated c s := by
  unfold sequencerTurn at h
  split at h
  next hq =>
    injection h with h
    exact .inl ⟨hq, next_inj.1 h⟩
  next =>
    split at h
    next b hb => split at h <;> cases h
    next c hc =>
      injection h with h
      exact .inr ⟨c, hc, next_inj.1 h⟩
    all_goals cases h

theorem step_of_writeCtrl {s : State} {data : Byte} {rest : List HostEvent} (h : s.host = .writeCtrl data :: rest) :
    step s = if data.getLsbD 0 = true then execStart { s with host := rest } else .next { s with host := rest } := by
  have hn : nextTurn s = hostTurn (.writeCtrl data) { s with host := rest } := by unfold nextTurn; rw [h]
  rw [step, hn, hostTurn, decodeCtrl_eq]
  cases data.getLsbD 0 <;> rfl

/-! ### The phase graph -/

/-- CNT.LD stays in B_PARSE below J = 255 and opens B_SUM at J = 255, the last counter (R126). -/
theorem execCntLd_phase {s t : State} (hp : s.phase = .bParse) (h : execCntLd s = .next t) :
    (s.j.toNat < 255 ∧ t.phase = .bParse) ∨ (s.j.toNat = 255 ∧ t.phase = .bSum) := by
  obtain ⟨j, f, hj, -, rfl⟩ := execCntLd_eq_next.1 h
  obtain ⟨hlt, -⟩ := tableIndex_eq_some.1 hj
  by_cases hl : s.j + 1 = 256
  · exact .inr ⟨by bv_omega, if_pos hl⟩
  · exact .inl ⟨by bv_omega, (if_neg hl).trans hp⟩

/-- An operation that the phase selects and that answers a next state takes one of its edges (R33). -/
theorem exec_takes_phaseEdge {i : Instr} {s t : State} (hp : i.phase = some s.phase) (h : exec i s = .next t) :
    PhaseEdge i s t := by
  cases i <;> simp only [Instr.phase, reduceCtorEq, Option.some.injEq] at hp <;> refine ⟨hp.symm, ?_⟩
  case hdrRd =>
    obtain ⟨-, rfl⟩ | ⟨-, e, -, rfl⟩ := execHdrRd_eq_next.1 h
    · exact .inr ⟨rfl, rfl⟩
    · exact .inl rfl
  case mtfaKeep =>
    obtain ⟨-, rfl⟩ := execMtfaKeep_eq_next.1 h
    exact hp.symm
  case mtfaMove c =>
    obtain ⟨-, rfl⟩ := execMtfaMove_eq_next.1 h
    exact hp.symm
  case aEnd =>
    obtain ⟨-, rfl⟩ | ⟨-, rfl⟩ := execAEnd_eq_next.1 h
    · exact .inr ⟨rfl, rfl⟩
    · exact .inl rfl
  case cntLd => exact execCntLd_phase hp.symm h
  case lenChk =>
    obtain ⟨-, rfl⟩ | ⟨-, -, rfl⟩ := execLenChk_eq_next.1 h
    · exact .inr rfl
    · exact .inl rfl
  case rankSel =>
    obtain ⟨k, -, rfl⟩ := execRankSel_eq_next.1 h
    exact hp.symm
  case rankEnd =>
    obtain rfl := execRankEnd_eq_next.1 h
    rfl
  case introduce =>
    obtain ⟨n, -, ⟨-, rfl⟩ | ⟨b, -, rfl⟩⟩ := execIntroduce_eq_next.1 h
    · exact .inr ⟨rfl, rfl⟩
    · exact .inl hp.symm
  case expEnter =>
    obtain rfl := execExpEnter_eq_next.1 h
    rfl
  case expRetire =>
    obtain ⟨-, ⟨-, rfl⟩ | ⟨count, -, -, rfl⟩⟩ := execExpRetire_eq_next.1 h <;> exact hp.symm
  case expStay =>
    obtain ⟨-, rfl⟩ := execExpStay_eq_next.1 h
    exact hp.symm
  case expDemote idx =>
    obtain ⟨-, rfl⟩ := execExpDemote_eq_next.1 h
    exact hp.symm
  case expDone =>
    obtain rfl := execExpDone_eq_next.1 h
    rfl

/-- STATUS.STATE is not BUSY exactly in the quiescent phases (R34, R52). -/
theorem statusOf_ne_busy_iff {p : Phase} : statusOf p ≠ .busy ↔ p = .idle ∨ p = .done ∨ p = .fault := by
  cases p <;> decide

theorem execStart_takes_phaseEdge {s t : State} (hs : s.state = statusOf s.phase) (hb : s.state ≠ .busy)
    (h : execStart s = .next t) : PhaseEdge .start s t := by
  obtain ⟨hb', -⟩ | ⟨-, rfl⟩ := execStart_eq_next.1 h
  · exact absurd hb' hb
  · exact ⟨statusOf_ne_busy_iff.1 (hs ▸ hb), rfl⟩

/-- Settles O30. The dispatch word carries PHASE, so an operation runs only in its own phase, and there its result
leaves by one of its edges. -/
theorem phaseChangesOnlyAlongTheGraph : Obligations.PhaseChangesOnlyAlongTheGraph := by
  refine ⟨fun s t i hrun hexec => exec_takes_phaseEdge (phase_of_sequencerTurn_eq_run hrun) hexec, ?_,
    fun s t hs hb hexec => execStart_takes_phaseEdge hs hb hexec⟩
  intro s t h
  obtain ⟨hq, rfl⟩ | ⟨c, hc, rfl⟩ := sequencerTurn_eq_settle_next h
  · exact .inl ⟨hq, rfl⟩
  · obtain ⟨hp, rfl⟩ := dispatchByte_eq_error hc
    exact .inr ⟨hp, rfl, rfl⟩

/-! ### The condition flags -/

theorem aMore_iff {s : State} : aMore s = true ↔ s.xp.toNat < s.inlen.toNat - 4 := decide_eq_true_iff

theorem bMore_iff {s : State} : bMore s = true ↔ s.i.toNat < s.k.toNat := decide_eq_true_iff

theorem eMore_iff {s : State} : eMore s = true ↔ s.op.toNat < s.total.toNat := decide_eq_true_iff

theorem valExhausted_iff {s : State} :
    valExhausted s = true ↔ (s.ce.entry s.val).toNat ≤ (s.cs.entry s.val).toNat := decide_eq_true_iff

theorem exhausted_iff {s : State} :
    exhausted s = true ↔ eMore s = true ∧ (s.ce.entry s.val).toNat ≤ (s.cs.entry s.val).toNat := by
  rw [exhausted, Bool.and_eq_true, valExhausted_iff]

/-- F0 by the phase that defines it (R87). -/
theorem flag0_eq (s : State) :
    flag0 s = if s.phase = .aRun then aMore s else if s.phase = .bRank then anyRemaining s
      else if s.phase = .bBuild then bMore s else if s.phase = .bExpand then eMore s else false := by
  unfold flag0
  cases s.phase <;> rfl

/-- F1 by the phase that defines it (R40, R87). -/
theorem flag1_eq (s : State) : flag1 s = if s.phase = .bExpand then exhausted s else false := by
  unfold flag1
  cases s.phase <;> rfl

/-- Settles O5: each flag by its own equation, F0 and F1 by the phase that defines them. -/
theorem flagsAreTheStatedConditions : Obligations.FlagsAreTheStatedConditions :=
  fun s => ⟨aMore_iff, anyRemaining_iff, bMore_iff, eMore_iff, exhausted_iff, flag0_eq s, flag1_eq s⟩

/-! ### The host's write of CTRL -/

/-- Settles O31: bit 0 alone makes the write a START, and START is without effect while BUSY (R100). -/
theorem ctrlWriteStartsOnlyWhenNotBusy : Obligations.CtrlWriteStartsOnlyWhenNotBusy := by
  intro s data rest h
  rw [step_of_writeCtrl h]
  refine ⟨fun hd _ => if_pos hd, ?_⟩
  rintro (hd | hb)
  · rw [hd]
    rfl
  · split
    · exact execStart_eq_next.2 (.inl ⟨hb, rfl⟩)
    · rfl

end Sys2Proof.Machine

/-! PROOF. START and the envelope reader, and that the tag is not interpreted (spec file 40_envelope.md). -/

namespace Sys2Proof.Claims

open Sys2Proof.Machine

/-! ### Two inputs, and two states, that differ only in the tag (R102) -/

/-- Two input buffers with the same bytes from address 4 on, and bytes loaded at the same addresses below it. -/
def TagInputs (m m' : Memory) : Prop :=
  (∀ a, 4 ≤ a → m'.read a = m.read a) ∧ ∀ a, a < 4 → (m'.read a).isSome = (m.read a).isSome

theorem tagTwins_iff {s u : State} :
    TagTwins s u ↔ ∃ tag ibuf, TagInputs s.ibuf ibuf ∧ u = { s with tag := tag, ibuf := ibuf } := by
  constructor
  · rintro ⟨hu, hin⟩
    exact ⟨u.tag, u.ibuf, hin, hu⟩
  · rintro ⟨tag, ibuf, hin, rfl⟩
    exact ⟨rfl, hin⟩

theorem TagTwins.refl (s : State) : TagTwins s s := ⟨rfl, fun _ _ => rfl, fun _ _ => rfl⟩

theorem TagTwins.host_eq {s u : State} (h : TagTwins s u) : u.host = s.host := by
  obtain ⟨tag, ibuf, -, rfl⟩ := tagTwins_iff.1 h
  rfl

theorem TagTwins.val_eq {s u : State} (h : TagTwins s u) : u.val = s.val := by
  obtain ⟨tag, ibuf, -, rfl⟩ := tagTwins_iff.1 h
  rfl

theorem TagInputs.write {m m' : Memory} (h : TagInputs m m') (a : Nat) (v : Byte) :
    TagInputs (m.write a v) (m'.write a v) := by
  obtain ⟨hge, hlt⟩ := h
  refine ⟨fun c hc => ?_, fun c hc => ?_⟩ <;> rw [Memory.read_write, Memory.read_write] <;> split
  · rfl
  · exact hge c hc
  · rfl
  · exact hlt c hc

end Sys2Proof.Claims

namespace Sys2Proof.Machine

open Sys2Proof.Claims

/-! ### Outcomes that agree up to a relation -/

/-- The outcomes of two runs of one thing: related values, or the same stop. -/
inductive Agree {α : Type} (R : α → α → Prop) : Access α → Access α → Prop where
  | next {a b : α} (h : R a b) : Agree R (.next a) (.next b)
  | fault (r : Fault) : Agree R (.fault r) (.fault r)
  | refused (r : Refusal) : Agree R (.refused r) (.refused r)

namespace Agree

variable {α β : Type} {R : α → α → Prop} {S : β → β → Prop}

theorem refl (hR : ∀ a, R a a) (x : Access α) : Agree R x x := by
  cases x with
  | next a => exact .next (hR a)
  | fault r => exact .fault r
  | refused r => exact .refused r

theorem andThen {x y : Access α} {f g : α → Access β} (h : Agree R x y)
    (hf : ∀ a b, R a b → Agree S (f a) (g b)) : Agree S (andThen x f) (andThen y g) := by
  cases h with
  | next h => exact hf _ _ h
  | fault r => exact .fault r
  | refused r => exact .refused r

/-- One access, and two ways to go on with its value. -/
theorem andThen_same {f g : α → Access β} (x : Access α) (hf : ∀ a, Agree S (f a) (g a)) :
    Agree S (Machine.andThen x f) (Machine.andThen x g) :=
  (refl (R := Eq) (fun _ => rfl) x).andThen fun a _ e => e ▸ hf a

theorem ite {c : Prop} [Decidable c] {x y x' y' : Access α} (ht : Agree R x x') (hf : Agree R y y') :
    Agree R (if c then x else y) (if c then x' else y') := by
  by_cases h : c
  · rw [if_pos h, if_pos h]
    exact ht
  · rw [if_neg h, if_neg h]
    exact hf

end Agree

/-! ### The operands -/

section
variable {s : State} {ibuf : Memory} (h : TagInputs s.ibuf ibuf) (tag : Vector Byte 4)
include h

theorem readIbuf_tagInputs {a : Nat} (ha : 4 ≤ a) :
    readIbuf { s with tag := tag, ibuf := ibuf } a = readIbuf s a := by
  obtain ⟨hge, -⟩ := h
  unfold readIbuf
  dsimp only
  rw [hge a ha]

/-- Below address 4 the byte may differ, but not whether it can be read. -/
theorem readIbuf_agree (a : Nat) :
    Agree (fun _ _ => True) (readIbuf s a) (readIbuf { s with tag := tag, ibuf := ibuf } a) := by
  by_cases ha : 4 ≤ a
  · rw [readIbuf_tagInputs h tag ha]
    exact .refl (fun _ => trivial) _
  · obtain ⟨-, hlt⟩ := h
    have hs : (ibuf.read a).isSome = (s.ibuf.read a).isSome := hlt a (Nat.lt_of_not_le ha)
    refine .ite ?_ (.fault _)
    dsimp only
    cases hr : s.ibuf.read a <;> cases hr' : ibuf.read a <;> rw [hr, hr'] at hs
    · exact .refused _
    · cases hs
    · cases hs
    · exact .next trivial

/-- The two envelopes have the same seed (R101). -/
theorem readEnvelope_agree :
    Agree (fun e e' => e.2 = e'.2) (readEnvelope s) (readEnvelope { s with tag := tag, ibuf := ibuf }) := by
  unfold readEnvelope
  refine (readIbuf_agree h tag 0).andThen fun t0 u0 _ => (readIbuf_agree h tag 1).andThen fun t1 u1 _ =>
    (readIbuf_agree h tag 2).andThen fun t2 u2 _ => (readIbuf_agree h tag 3).andThen fun t3 u3 _ => ?_
  rw [readIbuf_tagInputs h tag (Nat.le_refl 4)]
  exact .andThen_same _ fun _ => .next rfl

theorem currentSymbol_tagInputs : currentSymbol { s with tag := tag, ibuf := ibuf } = currentSymbol s := by
  unfold currentSymbol
  rw [readIbuf_tagInputs h tag (Nat.le_add_right 4 _)]

/-- The dispatch byte is never one of the tag bytes (R87). -/
theorem dispatchByte_tagInputs : dispatchByte { s with tag := tag, ibuf := ibuf } = dispatchByte s := by
  unfold dispatchByte
  rw [currentSymbol_tagInputs h tag]
  rfl

end

/-! ### The operations -/

section
variable {s u : State} (h : TagTwins s u)
include h

theorem raiseTruncated_tagTwins (c : Cause) : TagTwins (raiseTruncated c s) (raiseTruncated c u) := by
  obtain ⟨tag, ibuf, hin, rfl⟩ := tagTwins_iff.1 h
  exact ⟨rfl, hin⟩

theorem emitIntermediate_tagTwins (v : Byte) : Agree TagTwins (emitIntermediate v s) (emitIntermediate v u) := by
  obtain ⟨tag, ibuf, hin, rfl⟩ := tagTwins_iff.1 h
  exact .ite (.next ⟨rfl, hin⟩) (.fault _)

theorem emitOutput_tagTwins (v : Byte) : Agree TagTwins (emitOutput v s) (emitOutput v u) := by
  obtain ⟨tag, ibuf, hin, rfl⟩ := tagTwins_iff.1 h
  exact .ite (.next ⟨rfl, hin⟩) (.fault _)

/-- START overwrites the tag register and keeps the two inputs (R100). -/
theorem execStart_tagTwins : Agree TagTwins (execStart s) (execStart u) := by
  obtain ⟨tag, ibuf, hin, rfl⟩ := tagTwins_iff.1 h
  exact .ite (.next h) (.next ⟨rfl, hin⟩)

/-- HDR.RD copies each input's own tag bytes into TAG and nowhere else (R101). -/
theorem execHdrRd_tagTwins : Agree TagTwins (execHdrRd s) (execHdrRd u) := by
  obtain ⟨tag, ibuf, hin, rfl⟩ := tagTwins_iff.1 h
  refine .ite (.next (raiseTruncated_tagTwins h .envelope)) ((readEnvelope_agree hin tag).andThen ?_)
  rintro ⟨t, seed⟩ ⟨t', seed'⟩ rfl
  exact .next ⟨rfl, hin⟩

theorem execMtfaKeep_tagTwins : Agree TagTwins (execMtfaKeep s) (execMtfaKeep u) := by
  obtain ⟨tag, ibuf, hin, rfl⟩ := tagTwins_iff.1 h
  refine emitIntermediate_tagTwins ?_ _
  exact ⟨rfl, hin⟩

theorem execMtfaMove_tagTwins (c : Byte) : Agree TagTwins (execMtfaMove c s) (execMtfaMove c u) := by
  obtain ⟨tag, ibuf, hin, rfl⟩ := tagTwins_iff.1 h
  refine emitIntermediate_tagTwins ?_ _
  exact ⟨rfl, hin⟩

theorem execAEnd_tagTwins : Agree TagTwins (execAEnd s) (execAEnd u) := by
  obtain ⟨tag, ibuf, hin, rfl⟩ := tagTwins_iff.1 h
  exact .ite (.next (raiseTruncated_tagTwins h .header)) (.next ⟨rfl, hin⟩)

theorem execCntLd_tagTwins : Agree TagTwins (execCntLd s) (execCntLd u) := by
  obtain ⟨tag, ibuf, hin, rfl⟩ := tagTwins_iff.1 h
  unfold execCntLd
  dsimp only
  cases tableIndex s.j with
  | none => exact .fault _
  | some j => exact .andThen_same (readCounter s) fun f => .next ⟨rfl, hin⟩

theorem execLenChk_tagTwins : Agree TagTwins (execLenChk s) (execLenChk u) := by
  obtain ⟨tag, ibuf, hin, rfl⟩ := tagTwins_iff.1 h
  exact .ite (.next ⟨rfl, hin⟩) (.ite (.next ⟨rfl, hin⟩) (.next ⟨rfl, hin⟩))

theorem execRankSel_tagTwins : Agree TagTwins (execRankSel s) (execRankSel u) := by
  obtain ⟨tag, ibuf, hin, rfl⟩ := tagTwins_iff.1 h
  unfold execRankSel
  dsimp only
  cases tableIndex s.k with
  | none => exact .fault _
  | some k => exact .next ⟨rfl, hin⟩

theorem execRankEnd_tagTwins : Agree TagTwins (execRankEnd s) (execRankEnd u) := by
  obtain ⟨tag, ibuf, hin, rfl⟩ := tagTwins_iff.1 h
  exact .next ⟨rfl, hin⟩

theorem execIntroduce_tagTwins : Agree TagTwins (execIntroduce s) (execIntroduce u) := by
  obtain ⟨tag, ibuf, hin, rfl⟩ := tagTwins_iff.1 h
  unfold execIntroduce
  dsimp only
  cases tableIndex s.i with
  | none => exact .fault _
  | some i =>
    exact .ite (.next (raiseTruncated_tagTwins h .slot))
      (.andThen_same (readSlot s) fun b => .next ⟨rfl, hin⟩)

theorem execExpEnter_tagTwins : Agree TagTwins (execExpEnter s) (execExpEnter u) := by
  obtain ⟨tag, ibuf, hin, rfl⟩ := tagTwins_iff.1 h
  exact .next ⟨rfl, hin⟩

theorem execExpRetire_tagTwins : Agree TagTwins (execExpRetire s) (execExpRetire u) := by
  unfold execExpRetire
  rw [h.val_eq]
  refine (emitOutput_tagTwins h s.val).andThen fun a b hab => ?_
  obtain ⟨tag, ibuf, hin, rfl⟩ := tagTwins_iff.1 hab
  refine .ite (.next ⟨rfl, hin⟩) ?_
  dsimp only
  cases tableIndex (if a.k = 0 then 0 else a.k - 1) with
  | none => exact .fault _
  | some count => exact .next ⟨rfl, hin⟩

theorem execExpStay_tagTwins : Agree TagTwins (execExpStay s) (execExpStay u) := by
  unfold execExpStay
  rw [h.val_eq]
  refine (emitOutput_tagTwins h s.val).andThen fun a b hab => ?_
  obtain ⟨tag, ibuf, hin, rfl⟩ := tagTwins_iff.1 hab
  exact .next ⟨rfl, hin⟩

theorem execExpDemote_tagTwins (idx : Byte) : Agree TagTwins (execExpDemote idx s) (execExpDemote idx u) := by
  unfold execExpDemote
  rw [h.val_eq]
  refine (emitOutput_tagTwins h s.val).andThen fun a b hab => ?_
  obtain ⟨tag, ibuf, hin, rfl⟩ := tagTwins_iff.1 hab
  exact .next ⟨rfl, hin⟩

theorem execExpDone_tagTwins : Agree TagTwins (execExpDone s) (execExpDone u) := by
  obtain ⟨tag, ibuf, hin, rfl⟩ := tagTwins_iff.1 h
  exact .next ⟨rfl, hin⟩

/-- No operation interprets the tag (R102). -/
theorem exec_tagTwins (i : Instr) : Agree TagTwins (exec i s) (exec i u) := by
  cases i with
  | start => exact execStart_tagTwins h
  | hdrRd => exact execHdrRd_tagTwins h
  | mtfaKeep => exact execMtfaKeep_tagTwins h
  | mtfaMove c => exact execMtfaMove_tagTwins h c
  | aEnd => exact execAEnd_tagTwins h
  | cntLd => exact execCntLd_tagTwins h
  | lenChk => exact execLenChk_tagTwins h
  | rankSel => exact execRankSel_tagTwins h
  | rankEnd => exact execRankEnd_tagTwins h
  | introduce => exact execIntroduce_tagTwins h
  | expEnter => exact execExpEnter_tagTwins h
  | expRetire => exact execExpRetire_tagTwins h
  | expStay => exact execExpStay_tagTwins h
  | expDemote idx => exact execExpDemote_tagTwins h idx
  | expDone => exact execExpDone_tagTwins h

end

/-! ### The turns -/

/-- Turns that run the same operation on twin states, or settle on outcomes that agree. -/
inductive TurnTwins : Turn → Turn → Prop where
  | run (i : Instr) {s u : State} (h : TagTwins s u) : TurnTwins (.run i s) (.run i u)
  | settle {x y : Access State} (h : Agree TagTwins x y) : TurnTwins (.settle x) (.settle y)

theorem takeTurn_tagTwins {x y : Turn} (h : TurnTwins x y) : Agree TagTwins (takeTurn x) (takeTurn y) := by
  cases h with
  | run i h => exact exec_tagTwins h i
  | settle h => exact h

section
variable {s u : State} (h : TagTwins s u)
include h

/-- Phase, flags and dispatch byte are the same, so the same operation is selected. -/
theorem sequencerTurn_tagTwins : TurnTwins (sequencerTurn s) (sequencerTurn u) := by
  obtain ⟨tag, ibuf, hin, rfl⟩ := tagTwins_iff.1 h
  have hf0 : flag0 { s with tag := tag, ibuf := ibuf } = flag0 s := rfl
  have hf1 : flag1 { s with tag := tag, ibuf := ibuf } = flag1 s := rfl
  unfold sequencerTurn
  rw [dispatchByte_tagInputs hin tag, hf0, hf1]
  dsimp only
  cases s.phase.quiescent with
  | true => exact .settle (.next h)
  | false =>
    rcases dispatchByte s with (c | b) | r | r
    · exact .settle (.next (raiseTruncated_tagTwins h c))
    · dsimp only
      cases decodeDispatch (DW.form s.phase (flag1 s) (flag0 s) b) with
      | ok i => exact .run i h
      | error e => exact .settle (.fault _)
    · exact .settle (.fault r)
    · exact .settle (.refused r)

theorem hostWriteInlen_tagTwins (v : BitVec 32) : Agree TagTwins (hostWriteInlen v s) (hostWriteInlen v u) := by
  obtain ⟨tag, ibuf, hin, rfl⟩ := tagTwins_iff.1 h
  exact .ite (.next h) (.ite (.refused _) (.next ⟨rfl, hin⟩))

theorem hostWriteExplen_tagTwins (v : BitVec 40) : Agree TagTwins (hostWriteExplen v s) (hostWriteExplen v u) := by
  obtain ⟨tag, ibuf, hin, rfl⟩ := tagTwins_iff.1 h
  exact .ite (.next h) (.next ⟨rfl, hin⟩)

theorem hostWriteIbuf_tagTwins (a : BitVec 32) (b : Byte) :
    Agree TagTwins (hostWriteIbuf a b s) (hostWriteIbuf a b u) := by
  obtain ⟨tag, ibuf, hin, rfl⟩ := tagTwins_iff.1 h
  exact .ite (.refused _) (.ite (.refused _) (.next ⟨rfl, hin.write a.toNat b⟩))

theorem hardwareReset_tagTwins : TagTwins (hardwareReset s) (hardwareReset u) := by
  obtain ⟨tag, ibuf, hin, rfl⟩ := tagTwins_iff.1 h
  exact .refl _

theorem hostTurn_tagTwins (e : HostEvent) : TurnTwins (hostTurn e s) (hostTurn e u) := by
  cases e with
  | wait => exact sequencerTurn_tagTwins h
  | writeCtrl data =>
    unfold hostTurn
    dsimp only
    cases decodeCtrl data with
    | ok i => exact .run i h
    | error e => exact .settle (.next h)
  | writeInlen v => exact .settle (hostWriteInlen_tagTwins h v)
  | writeExplen v => exact .settle (hostWriteExplen_tagTwins h v)
  | writeIbuf a b => exact .settle (hostWriteIbuf_tagTwins h a b)
  | reset => exact .settle (.next (hardwareReset_tagTwins h))

theorem nextTurn_tagTwins : TurnTwins (nextTurn s) (nextTurn u) := by
  unfold nextTurn
  rw [h.host_eq]
  cases s.host with
  | nil => exact sequencerTurn_tagTwins h
  | cons e rest =>
    obtain ⟨tag, ibuf, hin, rfl⟩ := tagTwins_iff.1 h
    refine hostTurn_tagTwins ?_ e
    exact ⟨rfl, hin⟩

theorem step_tagTwins : Agree TagTwins (step s) (step u) := takeTurn_tagTwins (nextTurn_tagTwins h)

end

/-- Settles O49. Twin states take twin turns, and no operation and no host move carries the tag anywhere but to TAG. -/
theorem tagIsNotInterpreted : Obligations.TagIsNotInterpreted := by
  intro s u h
  have hstep : Agree TagTwins (step s) (step u) := step_tagTwins h
  generalize step s = x, step u = y at hstep ⊢
  cases hstep with
  | next h => exact h
  | fault r => rfl
  | refused r => rfl

/-! ### START and HDR.RD (R100, R101) -/

/-- Settles O7: while not BUSY, START answers the per-decode initial state, each field of
which is a lemma of Laws/State.lean and each table entry one of Laws/Table.lean. -/
theorem startInitialisesTheDecode : Obligations.StartInitialisesTheDecode := by
  refine ⟨fun data hd => (decodeCtrl_eq data).trans (if_pos hd),
    fun s hb => execStart_eq_next.2 (.inl ⟨hb, rfl⟩),
    fun s hb => ⟨perDecodeInit s, execStart_eq_next.2 (.inr ⟨hb, rfl⟩), ?_⟩⟩
  simp

/-- Every word with PHASE = HDR matches the HDR.RD row, which stands at the head of `rows` (R90). -/
theorem hdrRd_selected : SelectedBy 0x3C00 0x0400 .hdrRd := by
  intro w hw
  have hfind : rows.find? (·.accepts w) = some ⟨0x0400, 0x3C00, fun _ => .hdrRd⟩ :=
    List.find?_cons_of_pos (beq_iff_eq.2 hw)
  unfold decodeDispatch
  rw [hfind]

/-- Settles O8: the length check comes before the five reads, which are those of the envelope. -/
theorem hdrRdReadsTheEnvelope : Obligations.HdrRdReadsTheEnvelope := by
  refine ⟨hdrRd_selected, fun s hlen => execHdrRd_eq_next.2 (.inl ⟨hlen, rfl⟩), ?_⟩
  intro s t0 t1 t2 t3 c hlen h0 h1 h2 h3 h4
  have henv : readEnvelope s = .next (#v[t0, t1, t2, t3], c) :=
    readEnvelope_eq_next.2 ⟨hlen, t0, t1, t2, t3, c, h0, h1, h2, h3, h4, rfl⟩
  exact execHdrRd_eq_next.2 (.inr ⟨hlen, _, henv, rfl⟩)

end Sys2Proof.Machine

/-! PROOF. Stage A: the three operations of A_RUN, and that it inverts the forward move-to-front transform
(spec file 41_stage_a_mtf.md). -/

namespace Sys2Proof

/-! ### The first row that matches -/

/-- A word selects the operation of a row it matches when no row before it matches (R89). -/
theorem decodeDispatch_of_first_row {w : DW} {r : Row} {before after : List Row} (hrows : rows = before ++ r :: after)
    (hbefore : ∀ q ∈ before, q.accepts w = false) (hw : w &&& r.mask = r.pattern) :
    decodeDispatch w = .ok (r.build w.byte) := by
  have hfind : rows.find? (·.accepts w) = some r :=
    List.find?_eq_some_iff_append.2 ⟨beq_iff_eq.2 hw, before, after, hrows, by simpa using hbefore⟩
  unfold decodeDispatch
  rw [hfind]

/-- A row that conflicts with every row before it, on some bit that both fix, takes every word that matches it. -/
theorem selectedBy_of_row {pattern mask : DW} {i : Instr} {before after : List Row}
    (hrows : rows = before ++ ⟨pattern, mask, fun _ => i⟩ :: after)
    (hbefore : ∀ q ∈ before, pattern &&& q.mask ≠ q.pattern &&& mask) : Claims.SelectedBy mask pattern i :=
  fun _ hw => decodeDispatch_of_first_row hrows (fun q hq => Row.accepts_eq_false hw (hbefore q hq)) hw

/-- The row of MTFA.KEEP fixes all 14 bits, B = 0 among them (R90). -/
theorem DW.byte_eq_zero_of_keep {w : DW} (h : w &&& 0x3FFF = 0x0900) : w.byte = 0 := by
  have hw : w &&& 0x3FFF = w := BitVec.and_allOnes
  rw [← hw, h]
  rfl

/-- The MTFA.KEEP row, which stands before the MTFA.MOVE row, takes only the words with B = 0 (R89). -/
theorem mtfaMove_selected {w : DW} (hw : w &&& 0x3F00 = 0x0900) (hb : w.byte ≠ 0) :
    decodeDispatch w = .ok (.mtfaMove w.byte) := by
  refine decodeDispatch_of_first_row (r := ⟨0x0900, 0x3F00, .mtfaMove⟩) (before := rows.take 2) rfl ?_ hw
  intro q hq
  obtain rfl | rfl : q = ⟨0x0400, 0x3C00, fun _ => .hdrRd⟩ ∨ q = ⟨0x0900, 0x3FFF, fun _ => .mtfaKeep⟩ := by
    simpa [rows] using hq
  · exact Row.accepts_eq_false hw (by decide)
  · exact beq_eq_false_iff_ne.2 fun hkeep => hb (DW.byte_eq_zero_of_keep hkeep)

/-! ### The first entry with a property -/

theorem Table.entry_ofNat {α : Type} (t : Table α) {n : Nat} (hn : n < 256) :
    t.entry (BitVec.ofNat 8 n) = t.toList[n]'(by simpa using hn) := by
  simp [Table.entry, Nat.mod_eq_of_lt hn]

theorem Table.entry_findIdx {α : Type} {t : Table α} {p : α → Bool} (h : ∃ b, p (t.entry b) = true) :
    p (t.entry (BitVec.ofNat 8 (t.toList.findIdx p))) = true := by
  obtain ⟨b, hb⟩ := h
  have hlt : t.toList.findIdx p < t.toList.length :=
    List.findIdx_lt_length_of_exists ⟨t.entry b, Table.mem_toList.2 ⟨b, rfl⟩, hb⟩
  rw [Table.entry_ofNat t (by simpa using hlt)]
  exact List.findIdx_getElem (w := hlt)

end Sys2Proof

namespace Sys2Proof.Machine

/-! ### Stage A's table step -/

theorem entry_moveToFront_zero (t : Table Byte) (c : Byte) : (moveToFront t c).entry 0 = t.entry c :=
  (entry_moveToFront t c 0).trans (if_pos rfl)

theorem entry_moveToFront_of_le (t : Table Byte) {c k : Byte} (hk : k ≠ 0) (hkc : k ≤ c) :
    (moveToFront t c).entry k = t.entry (k - 1) := by
  have hpred : BitVec.ofNat 8 (k.toNat - 1) = k - 1 := by bv_omega
  rw [entry_moveToFront, if_neg (by bv_omega), if_pos (BitVec.le_def.1 hkc), hpred]

theorem entry_moveToFront_of_lt (t : Table Byte) {c k : Byte} (hck : c < k) :
    (moveToFront t c).entry k = t.entry k := by
  rw [entry_moveToFront, if_neg (by bv_omega), if_neg (by bv_omega)]

/-- Where the value at rank b goes when rank c moves to the front: one rank down from before rank c, to rank 0 from
rank c itself, and nowhere from beyond it (R110). -/
theorem moveToFront_keeps_value (t : Table Byte) (c b : Byte) :
    ∃ b', (moveToFront t c).entry b' = t.entry b := by
  obtain hlt | heq | hgt := Nat.lt_trichotomy b.toNat c.toNat
  · refine ⟨b + 1, ?_⟩
    rw [entry_moveToFront_of_le t (by bv_omega) (by bv_omega), BitVec.add_sub_cancel]
  · obtain rfl := BitVec.eq_of_toNat_eq heq
    exact ⟨0, entry_moveToFront_zero t b⟩
  · exact ⟨b, entry_moveToFront_of_lt t hgt⟩

/-- A list that holds every byte still does after a move to the front (R41). -/
theorem moveToFront_surjective {t : Table Byte} (h : Function.Surjective t.entry) (c : Byte) :
    Function.Surjective (moveToFront t c).entry := by
  intro x
  obtain ⟨b, rfl⟩ := h x
  exact moveToFront_keeps_value t c b

theorem identity_surjective : Function.Surjective Table.identity.entry := fun b => ⟨b, Table.entry_identity b⟩

/-! ### The forward transform and its inverse (R116) -/

/-- The value at the rank of a byte that the list holds is that byte. -/
theorem entry_rankOf {t : Table Byte} {x : Byte} (h : ∃ b, t.entry b = x) :
    t.entry (Functional.rankOf t x) = x := by
  obtain ⟨b, hb⟩ := h
  exact beq_iff_eq.1 (Table.entry_findIdx (p := (· == x)) ⟨b, beq_iff_eq.2 hb⟩)

/-- Coder and decoder keep the same list: from any list that holds every byte, Stage A gives back what was coded. -/
theorem stageAFrom_mtfEncodeFrom {t : Table Byte} (h : Function.Surjective t.entry) (xs : List Byte) :
    Functional.stageAFrom t (Functional.mtfEncodeFrom t xs) = xs := by
  induction xs generalizing t with
  | nil => rfl
  | cons x xs ih =>
    rw [Functional.mtfEncodeFrom, Functional.stageAFrom, entry_rankOf (h x), ih (moveToFront_surjective h _)]

/-- Settles O45: the coder starts from the identity list, which holds every byte. -/
theorem stageAInvertsMoveToFront : Obligations.StageAInvertsMoveToFront :=
  fun xs => stageAFrom_mtfEncodeFrom identity_surjective xs

/-! ### MTFA.KEEP, MTFA.MOVE and A.END (R111 to R113) -/

theorem lt_xlen_iff {s : State} {a : Nat} : a < s.xlen ↔ a + 4 < s.inlen.toNat := Nat.lt_sub_iff_add_lt

/-- Settles O10. MTFA.MOVE answers `moveToFront`, whose entries are the three `entry_moveToFront_…` equations. -/
theorem moveEmitsAndPromotesRankC : Obligations.MoveEmitsAndPromotesRankC :=
  ⟨fun _ hw hb => mtfaMove_selected hw hb, fun s c hxp => ⟨moveToFront s.t c,
    execMtfaMove_eq_next.2 ⟨lt_xlen_iff.2 hxp, rfl⟩, entry_moveToFront_zero s.t c,
    fun _ hk hkc => entry_moveToFront_of_le s.t hk hkc, fun _ hck => entry_moveToFront_of_lt s.t hck⟩⟩

/-- Settles O9: the move to the front of rank 0 writes T[0] back. -/
theorem keepEmitsTheFront : Obligations.KeepEmitsTheFront :=
  ⟨selectedBy_of_row (before := rows.take 1) rfl (by decide),
    fun _ hxp => execMtfaKeep_eq_next.2 ⟨lt_xlen_iff.2 hxp, rfl⟩⟩

/-- Settles O11: INLEN is XLEN and the four tag bytes, so 1028 is the header's 1024 with them. -/
theorem aEndChecksTheHeader : Obligations.AEndChecksTheHeader := by
  refine ⟨selectedBy_of_row (before := rows.take 3) rfl (by decide), fun s hlen => ?_, fun s hlen => ?_⟩
  · have hx : s.xlen < 1024 := by unfold State.xlen; omega
    exact execAEnd_eq_next.2 (.inl ⟨hx, rfl⟩)
  · have hx : 1024 ≤ s.xlen := Nat.le_sub_of_add_le hlen
    exact execAEnd_eq_next.2 (.inr ⟨hx, rfl⟩)

end Sys2Proof.Machine

/-! PROOF. Stage B, steps 1 to 3: the counters' sum, the ranking and the introductions
(spec file 42_stage_b_setup.md). -/

namespace Sys2Proof

/-- Entry m after a write of entry n, both by number. -/
theorem Table.entry_setEntry_ofNat {α : Type} (t : Table α) {m n : Nat} (hm : m < 256) (hn : n < 256) (v : α) :
    (t.setEntry (BitVec.ofNat 8 n) v).entry (BitVec.ofNat 8 m) = if m = n then v else t.entry (BitVec.ofNat 8 m) := by
  have hmn : BitVec.ofNat 8 m = BitVec.ofNat 8 n ↔ m = n := by
    rw [← BitVec.toNat_inj, BitVec.toNat_ofNat, BitVec.toNat_ofNat, Nat.mod_eq_of_lt hm, Nat.mod_eq_of_lt hn]
  simp only [Table.entry_setEntry, hmn]

end Sys2Proof

namespace Sys2Proof.Machine

open Sys2Proof.Claims

theorem tableIndex_of_lt {r : BitVec 9} (h : r.toNat < 256) : tableIndex r = some (BitVec.ofNat 8 r.toNat) :=
  tableIndex_eq_some.2 ⟨h, Nat.mod_eq_of_lt h⟩

/-! ### Runs of several steps -/

theorem runSteps_succ (n : Nat) (s : State) : runSteps (n + 1) s = andThen (step s) (runSteps n) := by
  have hcore : core.step s = step s := rfl
  simp only [runSteps, Host.Core.run]
  cases h : step s <;> simp only [hcore, h] <;> rfl

theorem runSteps_one (s : State) : runSteps 1 s = step s := by
  rw [runSteps_succ]
  cases step s <;> rfl

/-- A run goes on from the state that its first steps reach. -/
theorem runSteps_add {m : Nat} {s u : State} (h : runSteps m s = .next u) (n : Nat) :
    runSteps (m + n) s = runSteps n u := by
  induction m generalizing s with
  | zero => rw [Nat.zero_add, next_inj.1 h]
  | succ m ih =>
    rw [runSteps_succ] at h
    obtain ⟨v, hv, h⟩ := andThen_eq_next.1 h
    rw [Nat.succ_add, runSteps_succ, hv, andThen_next, ih h]

/-- A property of the number of steps made and the state reached: what holds at the start and is carried on by each
of the first N steps holds after them. -/
theorem runSteps_of_invariant {P : Nat → State → Prop} {N : Nat} {s : State} (h0 : P 0 s)
    (hstep : ∀ n u, n < N → P n u → ∃ t, step u = .next t ∧ P (n + 1) t) :
    ∃ t, runSteps N s = .next t ∧ P N t := by
  induction N with
  | zero => exact ⟨s, rfl, h0⟩
  | succ N ih =>
    obtain ⟨u, hu, hPu⟩ := ih fun n u hn => hstep n u (Nat.lt_succ_of_lt hn)
    obtain ⟨t, ht, hPt⟩ := hstep N u (Nat.lt_succ_self N) hPu
    exact ⟨t, (runSteps_add hu 1).trans ((runSteps_one u).trans ht), hPt⟩

/-! ### LEN.CHK (R127) -/

theorem exactSum_eq_total (f : Table (BitVec 32)) : exactSum f = Functional.total f := by
  rw [exactSum, Functional.total, Table.toList_eq_map, List.map_map]
  rfl

theorem ofNat_exactSum (f : Table (BitVec 32)) : BitVec.ofNat 40 (exactSum f) = sumCounters f := by
  rw [exactSum_eq_total, ← sumCounters_toNat, BitVec.ofNat_toNat, BitVec.setWidth_eq]

/-- Settles O13: TOTAL's 40 bits hold the sum, so comparing with TOTAL is comparing with the exact sum. -/
theorem lenChkSumsAndChecks : Obligations.LenChkSumsAndChecks := by
  refine ⟨selectedBy_of_row (before := rows.take 5) rfl (by decide), fun s => ?_⟩
  have hlt : exactSum s.freq < 2 ^ 40 := exactSum_eq_total s.freq ▸ total_lt s.freq
  have hsum : (sumCounters s.freq).toNat = exactSum s.freq :=
    (sumCounters_toNat s.freq).trans (exactSum_eq_total s.freq).symm
  have heq : s.explen.toNat = exactSum s.freq ↔ s.explen = sumCounters s.freq := by
    rw [← hsum, BitVec.toNat_inj]
  have hzero : exactSum s.freq = 0 ↔ sumCounters s.freq = 0 := by
    rw [← hsum, ← BitVec.toNat_inj]
    rfl
  simp only [ofNat_exactSum, ne_eq, heq, hzero]
  exact ⟨hlt, fun hend => execLenChk_eq_next.2 (.inl ⟨hend, rfl⟩),
    fun hlen hsome => execLenChk_eq_next.2 (.inr ⟨hlen, hsome, rfl⟩)⟩

/-! ### The order of the ranking (R130) -/

/-- The larger counter ranks first and, among equal counters, the smaller symbol (R130). -/
def RanksBefore (f : Table (BitVec 32)) (a b : Byte) : Prop :=
  f.entry b < f.entry a ∨ (f.entry b = f.entry a ∧ a < b)

/-- The order of two symbols depends on their own counters alone. -/
theorem RanksBefore.congr {f g : Table (BitVec 32)} {a b : Byte} (h : RanksBefore f a b)
    (ha : f.entry a = g.entry a) (hb : f.entry b = g.entry b) : RanksBefore g a b := by
  unfold RanksBefore at h ⊢
  rwa [← ha, ← hb]

/-- The scan picks the symbol that ranks before every other (R128, R227). -/
theorem selectSymbol_ranksBefore (rem : Table (BitVec 32)) {b : Byte} (h : b ≠ selectSymbol rem) :
    RanksBefore rem (selectSymbol rem) b := by
  have hsel := entry_selectSymbol rem
  by_cases hmax : rem.entry b = maxCounter rem
  · have hnlt : ¬ b < selectSymbol rem := fun hlt =>
      BitVec.ne_of_lt (lt_maxCounter_of_lt_selectSymbol rem b hlt) hmax
    exact .inr ⟨hmax.trans hsel.symm, by bv_omega⟩
  · have hle := entry_le_maxCounter rem b
    exact .inl (by bv_omega)

/-! ### The ranking as a list (R128 to R130) -/

/-- The scans of the ranking from a table of remaining counters: the symbols they select, in order, until a scan finds
nothing left (R128, R129). -/
inductive Scans : Table (BitVec 32) → List Byte → Prop where
  | done {rem : Table (BitVec 32)} (h : ∀ b, rem.entry b = 0) : Scans rem []
  | select {rem : Table (BitVec 32)} {xs : List Byte} (h : rem.entry (selectSymbol rem) ≠ 0)
      (hxs : Scans (rem.setEntry (selectSymbol rem) 0) xs) : Scans rem (selectSymbol rem :: xs)

theorem countNonzero_eq_zero {f : Table (BitVec 32)} (h : ∀ b, f.entry b = 0) : countNonzero f = 0 := by
  refine List.countP_eq_zero.2 fun v hv => ?_
  obtain ⟨b, rfl⟩ := Table.mem_toList.1 hv
  simp [h b]

/-- The scans of the functional view, as many as there are counters left or more. -/
theorem scans_rankUpTo {n : Nat} {rem : Table (BitVec 32)} (hn : countNonzero rem ≤ n) :
    Scans rem (Functional.rankUpTo n rem) := by
  induction n generalizing rem with
  | zero => exact .done fun b => by_contra fun hb => absurd (countNonzero_pos hb) (by omega)
  | succ n ih =>
    unfold Functional.rankUpTo
    split
    next hall => exact .done fun b => by simpa using List.all_eq_true.1 hall _ (Table.mem_toList.2 ⟨b, rfl⟩)
    next hall =>
      obtain ⟨b, hb⟩ : ∃ b, rem.entry b ≠ 0 := by
        by_contra! hzero
        refine hall (List.all_eq_true.2 fun v hv => ?_)
        obtain ⟨b, rfl⟩ := Table.mem_toList.1 hv
        exact beq_iff_eq.2 (hzero b)
      have hsel := entry_selectSymbol_ne_zero hb
      have hcount := countNonzero_setEntry_zero rem (selectSymbol rem) hsel
      exact .select hsel (ih (by omega))

theorem scans_ranked (f : Table (BitVec 32)) : Scans f (Functional.ranked f) := scans_rankUpTo (countNonzero_le f)

namespace Scans

variable {rem : Table (BitVec 32)} {xs : List Byte}

theorem length_eq (h : Scans rem xs) : xs.length = countNonzero rem := by
  induction h with
  | done hzero => exact (countNonzero_eq_zero hzero).symm
  | select hsel _ ih => rw [List.length_cons, ih, countNonzero_setEntry_zero _ _ hsel]

/-- The scans select exactly the symbols with a counter left. -/
theorem mem_iff (h : Scans rem xs) {b : Byte} : b ∈ xs ↔ rem.entry b ≠ 0 := by
  induction h with
  | done hzero => simp [hzero b]
  | @select rem xs hsel _ ih =>
    rw [List.mem_cons, ih, Table.entry_setEntry]
    by_cases hb : b = selectSymbol rem
    · simpa [hb] using hsel
    · simp [hb]

/-- Each selected symbol ranks before every later one: a scan ranks its symbol before all others, and changes no counter
of those that are still to come. -/
theorem pairwise (h : Scans rem xs) : xs.Pairwise (RanksBefore rem) := by
  induction h with
  | done => exact .nil
  | @select rem xs _ hxs ih =>
    have hother : ∀ b ∈ xs, b ≠ selectSymbol rem := by
      rintro b hb rfl
      exact hxs.mem_iff.1 hb (Table.entry_setEntry_same _ _ _)
    have hkept : ∀ b ∈ xs, (rem.setEntry (selectSymbol rem) 0).entry b = rem.entry b := fun b hb =>
      Table.entry_setEntry_other _ _ (hother b hb)
    refine .cons (fun b hb => selectSymbol_ranksBefore rem (hother b hb)) ?_
    exact ih.imp_of_mem fun ha hb hab => hab.congr (hkept _ ha) (hkept _ hb)

end Scans

/-! ### The steps of B_RANK -/

/-- ORDER with a list of symbols written from entry k on (R128). -/
def appendSymbols (order : Table Byte) (k : Nat) : List Byte → Table Byte
  | [] => order
  | x :: xs => appendSymbols (order.setEntry (BitVec.ofNat 8 k) x) (k + 1) xs

theorem entry_appendSymbols_of_lt (order : Table Byte) {k n : Nat} {xs : List Byte} (hxs : k + xs.length ≤ 256)
    (hn : n < k) : (appendSymbols order k xs).entry (BitVec.ofNat 8 n) = order.entry (BitVec.ofNat 8 n) := by
  induction xs generalizing order k with
  | nil => rfl
  | cons x xs ih =>
    rw [List.length_cons] at hxs
    rw [appendSymbols, ih _ (by omega) (by omega), Table.entry_setEntry_ofNat _ (by omega) (by omega)]
    exact if_neg (Nat.ne_of_lt hn)

theorem entry_appendSymbols (order : Table Byte) {k n : Nat} {xs : List Byte} (hxs : k + xs.length ≤ 256)
    (hn : n < xs.length) : (appendSymbols order k xs).entry (BitVec.ofNat 8 (k + n)) = xs[n] := by
  induction xs generalizing order k n with
  | nil => exact absurd hn (Nat.not_lt_zero n)
  | cons x xs ih =>
    rw [List.length_cons] at hxs hn
    rw [appendSymbols]
    cases n with
    | zero =>
      exact (entry_appendSymbols_of_lt _ (by omega) (Nat.lt_succ_self k)).trans (Table.entry_setEntry_same _ _ x)
    | succ n =>
      rw [show k + (n + 1) = k + 1 + n by omega, ih _ (by omega) (by omega)]
      rfl

/-- The state after RANK.SEL (R128). -/
def afterSelect (s : State) : State :=
  { s with
    order := s.order.setEntry (BitVec.ofNat 8 s.k.toNat) (selectSymbol s.rem)
    rem := s.rem.setEntry (selectSymbol s.rem) 0
    k := s.k + 1 }

/-- The state in which RANK.END leaves the machine when the scans from this one select `xs` (R129, R130). -/
def afterRanking (s : State) (xs : List Byte) : State :=
  { s with
    order := appendSymbols s.order s.k.toNat xs
    rem := Table.zero
    k := s.k + BitVec.ofNat 9 xs.length
    i := 0, m := 1024, phase := .bBuild }

theorem step_bRank_select {s : State} (hh : s.host = []) (hp : s.phase = .bRank) (hk : s.k.toNat < 256)
    (hrem : s.rem.entry (selectSymbol s.rem) ≠ 0) : step s = .next (afterSelect s) := by
  rw [step_of_no_move hh, sequencerStep_bRank_sel hp (anyRemaining_iff.2 ⟨_, hrem⟩)]
  exact execRankSel_eq_next.2 ⟨_, tableIndex_of_lt hk, rfl⟩

theorem step_bRank_end {s : State} (hh : s.host = []) (hp : s.phase = .bRank) (hrem : ∀ b, s.rem.entry b = 0) :
    step s = .next (afterRanking s []) := by
  have hany : anyRemaining s = false := Bool.eq_false_iff.2 fun h =>
    have ⟨b, hb⟩ := anyRemaining_iff.1 h
    hb (hrem b)
  have hzero : Table.zero = s.rem := Table.ext_entry fun b => by rw [hrem, Table.entry_zero]
  have hk : s.k + BitVec.ofNat 9 0 = s.k := BitVec.add_zero s.k
  rw [step_of_no_move hh, sequencerStep_bRank_end hp hany, execRankEnd_eq_next, afterRanking, appendSymbols,
    List.length_nil, hk, hzero]

theorem afterRanking_afterSelect {s : State} (hk : s.k.toNat < 256) (xs : List Byte) :
    afterRanking (afterSelect s) xs = afterRanking s (selectSymbol s.rem :: xs) := by
  have hpos : (s.k + 1).toNat = s.k.toNat + 1 := by bv_omega
  have hcount : s.k + 1 + BitVec.ofNat 9 xs.length = s.k + BitVec.ofNat 9 (xs.length + 1) := by
    rw [BitVec.add_assoc, BitVec.ofNat_add, BitVec.add_comm 1]
    rfl
  simp only [afterRanking, afterSelect, appendSymbols, List.length_cons, hpos, hcount]

/-- The rest of the ranking: one step per scan, and RANK.END. -/
theorem runSteps_ranking {s : State} {xs : List Byte} (hh : s.host = []) (hp : s.phase = .bRank) (hxs : Scans s.rem xs)
    (hk : s.k.toNat + xs.length ≤ 256) : runSteps (xs.length + 1) s = .next (afterRanking s xs) := by
  generalize hrem : s.rem = rem at hxs
  induction hxs generalizing s with
  | done hzero => exact (runSteps_one s).trans (step_bRank_end hh hp (hrem ▸ hzero))
  | select hsel _ ih =>
    subst hrem
    rw [List.length_cons] at hk ⊢
    have hk' : (afterSelect s).k.toNat = s.k.toNat + 1 := show (s.k + 1).toNat = _ by bv_omega
    have hrest := ih (s := afterSelect s) hh hp (by omega) rfl
    rw [runSteps_succ, step_bRank_select hh hp (by omega) hsel, andThen_next, hrest,
      afterRanking_afterSelect (by omega)]

/-- After a ranking from K = 0, ORDER[0, K) lists the selected symbols. -/
theorem afterRanking_lists {s : State} {xs : List Byte} (hk : s.k = 0) (hxs : xs.length ≤ 256) :
    (afterRanking s xs).k.toNat = xs.length ∧
      ∀ n (hn : n < xs.length), (afterRanking s xs).order.entry (BitVec.ofNat 8 n) = xs[n] := by
  constructor
  · have hsum : s.k + BitVec.ofNat 9 xs.length = BitVec.ofNat 9 xs.length := by rw [hk]; exact BitVec.zero_add _
    change (s.k + BitVec.ofNat 9 xs.length).toNat = xs.length
    rw [hsum, BitVec.toNat_ofNat, Nat.mod_eq_of_lt (by omega)]
  · intro n hn
    change (appendSymbols s.order s.k.toNat xs).entry _ = _
    have hentry := entry_appendSymbols s.order (k := 0) (by omega) hn
    rw [Nat.zero_add] at hentry
    rw [hk]
    exact hentry

/-- Settles O52: the steps write the list of the scans to ORDER, and that list is sorted. -/
theorem rankingSortsTheSymbols : Obligations.RankingSortsTheSymbols := by
  intro s hh hp hk hrem
  have hscans : Scans s.freq (Functional.ranked s.freq) := scans_ranked s.freq
  generalize Functional.ranked s.freq = xs at hscans
  have hlen : xs.length ≤ 256 := hscans.length_eq ▸ countNonzero_le s.freq
  obtain ⟨hcount, horder⟩ := afterRanking_lists hk hlen
  refine ⟨afterRanking s xs, ?_, rfl, rfl, hcount.trans hscans.length_eq, fun b => ?_, fun m n hmn hn => ?_⟩
  · rw [hcount]
    exact runSteps_ranking hh hp (hrem ▸ hscans) (by rw [hk]; simpa using hlen)
  · rw [← hscans.mem_iff, List.mem_iff_getElem, hcount]
    refine exists_congr fun n => ⟨fun ⟨hn, e⟩ => ⟨hn, (horder n hn).trans e⟩, fun ⟨hn, e⟩ => ⟨hn, ?_⟩⟩
    exact (horder n hn).symm.trans e
  · rw [hcount] at hn
    rw [horder m (hmn.trans hn), horder n hn]
    exact List.pairwise_iff_getElem.1 hscans.pairwise m n (hmn.trans hn) hn hmn

/-! ### The steps of B_BUILD (R131 to R133) -/

/-- The state after an INTRO of the symbol `sym` whose SLOT byte is b (R131). -/
def afterIntro (s : State) (b sym : Byte) : State :=
  { s with
    rl := s.rl.setEntry b sym
    cs := s.cs.setEntry sym (s.m + 1)
    m := s.m + (s.freq.entry sym).setWidth 41
    ce := s.ce.setEntry sym (s.m + (s.freq.entry sym).setWidth 41)
    i := s.i + 1 }

theorem execIntroduce_of_slot {s : State} {b : Byte} (hi : s.i.toNat < 256) (hm : s.m.toNat < s.xlen)
    (hb : s.xbuf.read s.m.toNat = some b) :
    execIntroduce s = .next (afterIntro s b (s.order.entry (BitVec.ofNat 8 s.i.toNat))) :=
  execIntroduce_eq_next.2 ⟨_, tableIndex_of_lt hi, .inr ⟨b, readXbuf_eq_next.2 ⟨hm, hb⟩, rfl⟩⟩

/-- Settles O16: the two cases of INTRO, M beyond XBUF and the SLOT byte read. -/
theorem introPlacesTheRankedSymbol : Obligations.IntroPlacesTheRankedSymbol := by
  refine ⟨selectedBy_of_row (before := rows.take 8) rfl (by decide), fun s hi => ⟨fun hm => ?_, ?_⟩⟩
  · exact execIntroduce_eq_next.2 ⟨_, tableIndex_of_lt hi, .inl ⟨hm, rfl⟩⟩
  · rintro b sym rfl hm hb
    exact execIntroduce_of_slot hi hm hb

theorem step_bBuild_intro {s : State} {b : Byte} (hh : s.host = []) (hp : s.phase = .bBuild) (hi : s.i.toNat < 256)
    (hk : s.i.toNat < s.k.toNat) (hm : s.m.toNat < s.xlen) (hb : s.xbuf.read s.m.toNat = some b) :
    step s = .next (afterIntro s b (s.order.entry (BitVec.ofNat 8 s.i.toNat))) := by
  rw [step_of_no_move hh, sequencerStep_bBuild_intro hp (bMore_iff.2 hk)]
  exact execIntroduce_of_slot hi hm hb

theorem step_bBuild_enter {s : State} (hh : s.host = []) (hp : s.phase = .bBuild) (hk : s.k.toNat ≤ s.i.toNat) :
    step s = .next { s with val := s.rl.entry 0, op := 0, phase := .bExpand } := by
  have hmore : bMore s = false := Bool.eq_false_iff.2 fun h => absurd (bMore_iff.1 h) (Nat.not_lt.2 hk)
  rw [step_of_no_move hh, sequencerStep_bBuild_enter hp hmore]
  exact execExpEnter_eq_next.2 rfl

/-- TOTAL bounds every window start, so M's 41 bits hold it (R26, R29). -/
theorem windowSum_lt {s : State} {n : Nat} (hs : RankedWithSlots s) (hn : n ≤ s.k.toNat) :
    windowSum s.freq s.order n < 2 ^ 40 :=
  calc windowSum s.freq s.order n ≤ windowSum s.freq s.order s.k.toNat := windowSum_mono s.freq s.order hn
    _ = s.total.toNat := hs.total.symm
    _ < 2 ^ 40 := s.total.isLt

/-- What the first n introductions from s leave: only RL, the cursors, M and I differ, M is at the start of window n,
the cursors of the n introduced symbols are their windows less the first byte, and every other cursor is as it was. -/
structure Introduced (s : State) (n : Nat) (u : State) : Prop where
  frame : u = { s with rl := u.rl, cs := u.cs, ce := u.ce, m := u.m, i := u.i }
  index : u.i.toNat = n
  position : u.m.toNat = 1024 + windowSum s.freq s.order n
  start : ∀ j, j < n → (u.cs.entry (s.order.entry (BitVec.ofNat 8 j))).toNat = 1024 + windowSum s.freq s.order j + 1
  stop : ∀ j, j < n → (u.ce.entry (s.order.entry (BitVec.ofNat 8 j))).toNat = 1024 + windowSum s.freq s.order (j + 1)
  others : ∀ b, (∀ j, j < n → s.order.entry (BitVec.ofNat 8 j) ≠ b) →
    u.cs.entry b = s.cs.entry b ∧ u.ce.entry b = s.ce.entry b

namespace Introduced

variable {s u : State} {n : Nat}

theorem host_eq (hs : RankedWithSlots s) (h : Introduced s n u) : u.host = [] := by
  rw [h.frame]
  exact hs.host

theorem phase_eq (hs : RankedWithSlots s) (h : Introduced s n u) : u.phase = .bBuild := by
  rw [h.frame]
  exact hs.phase

theorem k_eq (h : Introduced s n u) : u.k = s.k := by rw [h.frame]

theorem of_none (hs : RankedWithSlots s) : Introduced s 0 s where
  frame := rfl
  index := by rw [hs.first]; rfl
  position := by rw [hs.cursor]; rfl
  start _ hj := absurd hj (Nat.not_lt_zero _)
  stop _ hj := absurd hj (Nat.not_lt_zero _)
  others _ _ := ⟨rfl, rfl⟩

/-- The introduction of the next ranked symbol. It is none of those introduced before, so their cursors stay. -/
theorem succ (hs : RankedWithSlots s) (h : Introduced s n u) (hn : n < s.k.toNat) (b : Byte) :
    Introduced s (n + 1) (afterIntro u b (s.order.entry (BitVec.ofNat 8 n))) := by
  obtain ⟨frame, index, position, start, stop, others⟩ := h
  have hfreq : u.freq = s.freq := by rw [frame]
  have hcount := hs.count
  have hend : windowSum s.freq s.order (n + 1) < 2 ^ 40 := windowSum_lt hs (Nat.succ_le_of_lt hn)
  have hwindow := windowSum_succ s.freq s.order n
  generalize hsym : s.order.entry (BitVec.ofNat 8 n) = sym at hwindow ⊢
  have hnext : (u.m + (u.freq.entry sym).setWidth 41).toNat = 1024 + windowSum s.freq s.order (n + 1) := by
    rw [hfreq, BitVec.toNat_add, BitVec.toNat_setWidth_of_le (by omega)]
    omega
  have hold : ∀ j, j < n → s.order.entry (BitVec.ofNat 8 j) ≠ sym := fun j hj => hsym ▸ hs.distinct j n hj hn
  refine ⟨?_, ?_, hnext, fun j hj => ?_, fun j hj => ?_, fun c hc => ?_⟩
  · rw [afterIntro, frame]
  · change (u.i + 1).toNat = n + 1
    bv_omega
  · change ((u.cs.setEntry sym (u.m + 1)).entry _).toNat = _
    obtain hlt | rfl := Nat.lt_succ_iff_lt_or_eq.1 hj
    · rw [Table.entry_setEntry_other _ _ (hold j hlt), start j hlt]
    · rw [hsym, Table.entry_setEntry_same]
      bv_omega
  · change ((u.ce.setEntry sym _).entry _).toNat = _
    obtain hlt | rfl := Nat.lt_succ_iff_lt_or_eq.1 hj
    · rw [Table.entry_setEntry_other _ _ (hold j hlt), stop j hlt]
    · rw [hsym, Table.entry_setEntry_same, hnext]
  · change (u.cs.setEntry sym _).entry c = _ ∧ (u.ce.setEntry sym _).entry c = _
    have hne : c ≠ sym := fun e => hc n (Nat.lt_succ_self n) (hsym.trans e.symm)
    rw [Table.entry_setEntry_other _ _ hne, Table.entry_setEntry_other _ _ hne]
    exact others c fun j hj => hc j (Nat.lt_succ_of_lt hj)

theorem exists_step (hs : RankedWithSlots s) (h : Introduced s n u) (hn : n < s.k.toNat) :
    ∃ t, step u = .next t ∧ Introduced s (n + 1) t := by
  obtain ⟨hlt, hread⟩ := hs.slots n hn
  obtain ⟨b, hb⟩ := Option.isSome_iff_exists.1 hread
  have horder : u.order = s.order := by rw [h.frame]
  have hm : u.m.toNat < u.xlen := by rw [h.position, h.frame]; exact hlt
  have hb' : u.xbuf.read u.m.toNat = some b := by rw [h.position, h.frame]; exact hb
  have hi : u.i.toNat < 256 := by rw [h.index]; exact hn.trans_le hs.count
  have hmore : u.i.toNat < u.k.toNat := by rw [h.index, h.k_eq]; exact hn
  have hstep := step_bBuild_intro (h.host_eq hs) (h.phase_eq hs) hi hmore hm hb'
  rw [h.index, horder] at hstep
  exact ⟨_, hstep, h.succ hs hn b⟩

end Introduced

/-- The K introductions, one step each. -/
theorem runSteps_introductions {s : State} (hs : RankedWithSlots s) :
    ∃ u, runSteps s.k.toNat s = .next u ∧ Introduced s s.k.toNat u :=
  runSteps_of_invariant (Introduced.of_none hs) fun _ _ hn h => h.exists_step hs hn

/-- Settles O53: the introductions, which leave the windows, and EXP.ENTER, which leaves M and the cursors. -/
theorem introductionsLayTheWindows : Obligations.IntroductionsLayTheWindows := by
  intro s hs
  obtain ⟨u, hrun, hu⟩ := runSteps_introductions hs
  have henter := step_bBuild_enter (hu.host_eq hs) (hu.phase_eq hs) (by rw [hu.k_eq, hu.index])
  refine ⟨_, (runSteps_add hrun 1).trans ((runSteps_one u).trans henter), rfl, ?_, fun n hn => ?_⟩
  · rw [hs.total]
    exact hu.position
  · have hstart := hu.start n hn
    have hstop := hu.stop n hn
    refine ⟨hstart, hstop, ?_⟩
    rw [hstart, hstop, windowSum_succ]
    omega

end Sys2Proof.Machine

/-! PROOF. Stage B, step 4: the shift SHL, EXP.STAY and EXP.DEMOTE, and the cursor-byte fetch
(spec file 43_stage_b_expand.md). -/

namespace Sys2Proof

/-! ### The rows of EXP.STAY and EXP.DEMOTE (R90) -/

/-- The row of EXP.STAY fixes all 14 bits, B = 0 among them (R90). -/
theorem DW.byte_eq_zero_of_stay {w : DW} (h : w &&& 0x3FFF = 0x1D00) : w.byte = 0 := by
  have hw : w &&& 0x3FFF = w := BitVec.and_allOnes
  rw [← hw, h]
  rfl

/-- Of the rows before EXP.DEMOTE only EXP.STAY's has its phase and flags, and it takes only the word with B = 0 (R89). -/
theorem expDemote_selected {w : DW} (hw : w &&& 0x3F00 = 0x1D00) (hb : w.byte ≠ 0) :
    decodeDispatch w = .ok (.expDemote w.byte) := by
  have hconflict : ∀ q ∈ rows.take 11, 0x1D00 &&& q.mask ≠ q.pattern &&& 0x3F00 := by decide
  refine decodeDispatch_of_first_row (r := ⟨0x1D00, 0x3F00, .expDemote⟩)
    (before := rows.take 11 ++ [⟨0x1D00, 0x3FFF, fun _ => .expStay⟩]) rfl (fun q hq => ?_) hw
  obtain hother | hstay := List.mem_append.1 hq
  · exact Row.accepts_eq_false hw (hconflict q hother)
  · obtain rfl := List.mem_singleton.1 hstay
    exact beq_eq_false_iff_ne.2 fun hzero => hb (DW.byte_eq_zero_of_stay hzero)

end Sys2Proof

namespace Sys2Proof.Machine

/-! ### SHL and the demotion, entry by entry (R150, R154) -/

theorem entry_shl (rl : Table Byte) (m p : Byte) :
    (shl rl m).entry p = if p < m then rl.entry (p + 1) else rl.entry p := by
  have hm : 0 + m.toNat < 256 := (Nat.zero_add m.toNat).symm ▸ m.isLt
  have hrange : (0 ≤ p.toNat ∧ p.toNat < 0 + m.toNat) ↔ p < m := by
    rw [Nat.zero_add, BitVec.lt_def]
    exact and_iff_right (Nat.zero_le _)
  rw [shl, entry_shiftUpFrom rl 0 m.toNat hm]
  simp only [hrange]

/-- Settles O20: each entry by `entry_shl`, and SHL(0) is the empty loop. -/
theorem shlCopiesLeftAndDuplicates : Obligations.ShlCopiesLeftAndDuplicates :=
  fun rl m => ⟨fun p hp => (entry_shl rl m p).trans (if_pos hp),
    fun p hp => (entry_shl rl m p).trans (if_neg (BitVec.not_lt.2 hp)), rfl⟩

/-- A demotion creates no duplicate: the entry that SHL leaves twice is overwritten (R154). -/
theorem entry_shl_setEntry (rl : Table Byte) (idx v p : Byte) :
    ((shl rl idx).setEntry idx v).entry p =
      if p < idx then rl.entry (p + 1) else if p = idx then v else rl.entry p := by
  by_cases hp : p = idx
  · subst hp
    rw [Table.entry_setEntry_same, if_neg (BitVec.lt_irrefl p), if_pos rfl]
  · rw [Table.entry_setEntry_other _ _ hp, entry_shl, if_neg hp]

/-! ### EXP.STAY and EXP.DEMOTE (R153, R154) -/

/-- Settles O18: the row of EXP.STAY is the first that its one word matches. -/
theorem stayEmitsAndConsumesOneByte : Obligations.StayEmitsAndConsumesOneByte :=
  ⟨selectedBy_of_row (before := rows.take 11) rfl (by decide), fun _ hop => execExpStay_eq_next.2 ⟨hop, rfl⟩⟩

/-- Settles O19. The new rank list is SHL(idx) with the old VAL stored at idx. -/
theorem demoteMovesTheFrontToRankIdx : Obligations.DemoteMovesTheFrontToRankIdx :=
  ⟨fun _ hw hb => expDemote_selected hw hb, fun s idx hop => ⟨(shl s.rl idx).setEntry idx s.val,
    execExpDemote_eq_next.2 ⟨hop, rfl⟩, entry_shl_setEntry s.rl idx s.val⟩⟩

/-! ### The cursor-byte fetch (R151) -/

/-- While an output byte is due, X is the comparison of VAL's cursor with its end (R40). -/
theorem exhausted_of_eMore {s : State} (h : eMore s = true) : exhausted s = valExhausted s := by
  rw [exhausted, h, Bool.true_and]

/-- Settles O26. The step in B_EXPAND by E_MORE and X; with E_MORE and not X it turns on the fetch at CS[VAL]. -/
theorem cursorFetchFaultsInsteadOfDispatching : Obligations.CursorFetchFaultsInsteadOfDispatching := by
  intro s hh hp
  rw [step_of_no_move hh]
  refine ⟨fun hm hx hout => ?_, fun b hm hx hin hb => ?_, fun hx => ?_, fun hm => sequencerStep_bExpand_done hp hm⟩
  · rw [exhausted_of_eMore hm] at hx
    rw [sequencerStep_bExpand_cursor hp hm hx]
    exact if_pos hout
  · rw [exhausted_of_eMore hm] at hx
    have hinside : ¬s.xlen ≤ (s.cs.entry s.val).toNat := Nat.not_le.2 hin
    have hread : readXbuf s (s.cs.entry s.val).toNat = .next b := readXbuf_eq_next.2 ⟨hin, hb⟩
    rw [sequencerStep_bExpand_cursor hp hm hx, if_neg hinside, hread]
    rfl
  · obtain ⟨hm, hend⟩ := exhausted_iff.1 hx
    exact sequencerStep_bExpand_retire hp hm (valExhausted_iff.2 hend)

end Sys2Proof.Machine

/-! PROOF. The step machine refines the functional decode, phase by phase from the last to the first
(spec file 44_pipeline_top.md). -/

namespace Sys2Proof.Machine

open Sys2Proof.Claims

/-! ### What a run ends in -/

/-- The steps from this state reach an end at which exactly this result is observable (R172, R173). -/
def Yields (s : State) (r : Functional.Result) : Prop :=
  ∃ n t, runSteps n s = .next t ∧ t.host = [] ∧ observe t = some r

namespace Yields

variable {s u : State} {r : Functional.Result}

theorem of_run {n : Nat} (hrun : runSteps n s = .next u) (h : Yields u r) : Yields s r := by
  obtain ⟨m, t, hm, ht⟩ := h
  exact ⟨n + m, t, (runSteps_add hrun m).trans hm, ht⟩

theorem of_step (hstep : step s = .next u) (h : Yields u r) : Yields s r :=
  of_run ((runSteps_one s).trans hstep) h

theorem of_end (hh : s.host = []) (hr : observe s = some r) : Yields s r := ⟨0, s, rfl, hh, hr⟩

theorem of_fault {c : Cause} (hh : s.host = []) (hstep : step s = .next (raiseTruncated c s)) :
    Yields s (.fault c) :=
  of_step hstep (of_end hh rfl)

end Yields

/-! ### Buffers that hold a byte sequence -/

/-- The buffer holds the bytes of the list from address 0 on, and no other byte. -/
def Memory.Holds (m : Memory) (l : List Byte) : Prop := ∀ a, m.read a = l[a]?

theorem Memory.holds_nil : Memory.Holds [] [] := fun _ => rfl

/-- A byte stored right after the bytes held extends the sequence by that byte. -/
theorem Memory.Holds.append {m : Memory} {l : List Byte} (h : m.Holds l) {n : Nat} (hn : n = l.length) (v : Byte) :
    (m.write n v).Holds (l ++ [v]) := by
  intro a
  rw [Memory.read_write, hn]
  by_cases ha : a = l.length
  · rw [if_pos ha, ha, List.getElem?_concat_length]
  · rw [if_neg ha, h a, List.getElem?_append]
    by_cases hlt : a < l.length
    · rw [if_pos hlt]
    · rw [if_neg hlt, List.getElem?_eq_none (by omega), List.getElem?_eq_none (by rw [List.length_singleton]; omega)]

theorem mapM_getElem?_range (l : List Byte) {n : Nat} (hn : n ≤ l.length) :
    (List.range n).mapM (fun a => l[a]?) = some (l.take n) := by
  induction n with
  | zero => rfl
  | succ n ih =>
    rw [List.range_succ, List.mapM_append, ih (by omega), List.take_add_one]
    simp [List.getElem?_eq_getElem (show n < l.length by omega)]

/-- What is observable in DONE: the sequence OBUF holds, OLEN being its length (R172 (c)). -/
theorem observe_of_holds {s : State} {out : List Byte} (hp : s.phase = .done) (hlen : s.olen.toNat = out.length)
    (hout : s.obuf.Holds out) : observe s = some (.data out) := by
  have hbytes : outputBytes s = some out := by
    rw [outputBytes, funext hout, hlen, mapM_getElem?_range out (Nat.le_refl _), List.take_length]
  rw [observe, hp]
  exact congrArg (Option.map Functional.Result.data) hbytes

/-- With OLEN = 0, DONE is the empty result. -/
theorem observe_of_empty {s : State} (hp : s.phase = .done) (hlen : s.olen = 0) : observe s = some (.data []) := by
  rw [observe, hp, outputBytes, hlen]
  rfl

/-- No host move is pending, and XBUF holds the complete intermediate sequence (R48, R71). -/
structure Intermediate (s : State) (x : List Byte) : Prop where
  host : s.host = []
  length : s.xlen = x.length
  bytes : s.xbuf.Holds x

namespace Intermediate

variable {s : State} {x : List Byte} {a : Nat}

theorem read_eq {b : Byte} (h : Intermediate s x) (hb : x[a]? = some b) : a < s.xlen ∧ s.xbuf.read a = some b :=
  ⟨h.length ▸ (List.getElem?_eq_some_iff.1 hb).1, (h.bytes a).trans hb⟩

theorem xlen_le (h : Intermediate s x) (ha : x[a]? = none) : s.xlen ≤ a :=
  h.length ▸ List.getElem?_eq_none_iff.1 ha

theorem read_getD (h : Intermediate s x) (ha : a < x.length) : s.xbuf.read a = some (x.getD a 0) := by
  rw [h.bytes, List.getD_eq_getElem?_getD, List.getElem?_eq_getElem ha]
  rfl

end Intermediate

/-! ### The cursor table in natural numbers -/

/-- The machine's cursor table and the functional one agree. -/
def CursorsAgree (t : Table (BitVec 41)) (f : Table Nat) : Prop := ∀ b, (t.entry b).toNat = f.entry b

theorem CursorsAgree.setEntry {t : Table (BitVec 41)} {f : Table Nat} (h : CursorsAgree t f) {v : BitVec 41} {n : Nat}
    (hv : v.toNat = n) (b : Byte) : CursorsAgree (t.setEntry b v) (f.setEntry b n) := by
  intro c
  rw [Table.entry_setEntry, Table.entry_setEntry]
  by_cases hc : c = b
  · rwa [if_pos hc, if_pos hc]
  · rw [if_neg hc, if_neg hc, h c]

theorem cursorsAgree_zero : CursorsAgree Table.zero (Vector.replicate 256 0) := by
  intro b
  rw [Table.entry_zero]
  simp [Table.entry]

/-! ### Step 4: the expansion (R158) -/

/-- The result of the iterations still due, after the bytes emitted so far. -/
def expandResult (x out : List Byte) (n : Nat) (e : Functional.Expansion) : Functional.Result :=
  (Functional.expand x n e).elim (.fault .cursor) fun rest => .data (out ++ rest)

theorem expandResult_zero (x out : List Byte) (e : Functional.Expansion) : expandResult x out 0 e = .data out :=
  congrArg Functional.Result.data (List.append_nil out)

theorem expandResult_of_fault {x : List Byte} {e : Functional.Expansion} (h : Functional.advance x e = none)
    (out : List Byte) (n : Nat) : expandResult x out (n + 1) e = .fault .cursor := by
  rw [expandResult, Functional.expand, h]
  rfl

theorem expandResult_of_advance {x : List Byte} {e e' : Functional.Expansion} (h : Functional.advance x e = some e')
    (out : List Byte) (n : Nat) : expandResult x out (n + 1) e = expandResult x (out ++ [e.val]) n e' := by
  simp only [expandResult, Functional.expand, h]
  cases Functional.expand x n e' with
  | none => rfl
  | some rest => exact congrArg Functional.Result.data (List.append_assoc out [e.val] rest).symm

theorem advance_eq_none {x : List Byte} {e : Functional.Expansion} (h : Functional.advance x e = none) :
    e.cs.entry e.val < e.ce.entry e.val ∧ x[e.cs.entry e.val]? = none := by
  unfold Functional.advance at h
  split at h
  · split at h <;> cases h
  next hlt =>
    split at h
    next hx => exact ⟨Nat.not_le.1 hlt, hx⟩
    next => split at h <;> cases h

/-- What an iteration that does not fault does after its emission (R158): the front symbol is retired, the last or one of
several, or it stays, or it is demoted. -/
theorem advance_eq_some {x : List Byte} {e e' : Functional.Expansion} (h : Functional.advance x e = some e') :
    (e.ce.entry e.val ≤ e.cs.entry e.val ∧
      ((e.k ≤ 1 ∧ e' = { e with k := 0 }) ∨
       (2 ≤ e.k ∧ e' = { e with k := e.k - 1, rl := shl e.rl (BitVec.ofNat 8 (e.k - 1)),
                                val := (shl e.rl (BitVec.ofNat 8 (e.k - 1))).entry 0 }))) ∨
    (e.cs.entry e.val < e.ce.entry e.val ∧ ∃ idx, x[e.cs.entry e.val]? = some idx ∧
      ((idx = 0 ∧ e' = { e with cs := e.cs.setEntry e.val (e.cs.entry e.val + 1) }) ∨
       (idx ≠ 0 ∧ e' = { e with cs := e.cs.setEntry e.val (e.cs.entry e.val + 1)
                                rl := (shl e.rl idx).setEntry idx e.val
                                val := ((shl e.rl idx).setEntry idx e.val).entry 0 }))) := by
  unfold Functional.advance at h
  split at h
  next hle =>
    refine .inl ⟨hle, ?_⟩
    split at h
    · exact .inl ⟨by omega, (Option.some.inj h).symm⟩
    · exact .inr ⟨by omega, (Option.some.inj h).symm⟩
  next hlt =>
    split at h
    · cases h
    next idx hx =>
      refine .inr ⟨Nat.not_le.1 hlt, idx, hx, ?_⟩
      split at h
      next h0 => exact .inl ⟨h0, (Option.some.inj h).symm⟩
      next h0 => exact .inr ⟨h0, (Option.some.inj h).symm⟩

/-- The machine in the expansion, the bytes `out` emitted, and the functional step 4 between two iterations agree. -/
structure Expanding (s : State) (x out : List Byte) (e : Functional.Expansion) : Prop extends Intermediate s x where
  phase : s.phase = .bExpand
  rl : s.rl = e.rl
  val : s.val = e.val
  cs : CursorsAgree s.cs e.cs
  ce : CursorsAgree s.ce e.ce
  k : s.k.toNat = e.k
  k_le : e.k ≤ 256
  op : s.op.toNat = out.length
  obuf : s.obuf.Holds out

namespace Expanding

variable {s : State} {x out : List Byte} {e e' : Functional.Expansion}

theorem exhausted_eq (h : Expanding s x out e) (hm : s.op.toNat < s.total.toNat) :
    exhausted s = decide (e.ce.entry e.val ≤ e.cs.entry e.val) := by
  rw [exhausted_of_eMore (eMore_iff.2 hm), Bool.eq_iff_iff, valExhausted_iff, decide_eq_true_iff, h.val, h.cs, h.ce]

/-- Emitting VAL appends it to the output (R49). -/
theorem emit (h : Expanding s x out e) (hm : s.op.toNat < s.total.toNat) :
    (s.op + 1).toNat = (out ++ [e.val]).length ∧ (s.obuf.write s.op.toNat s.val).Holds (out ++ [e.val]) := by
  refine ⟨?_, h.val ▸ h.obuf.append h.op s.val⟩
  have hop := h.op
  rw [List.length_append, List.length_singleton]
  bv_omega

/-- A cursor before its end does not wrap when it advances. -/
theorem cursor_succ (h : Expanding s x out e) (hlt : e.cs.entry e.val < e.ce.entry e.val) :
    CursorsAgree (s.cs.setEntry s.val (s.cs.entry s.val + 1)) (e.cs.setEntry e.val (e.cs.entry e.val + 1)) := by
  have hcs := h.cs e.val
  have hce := h.ce e.val
  rw [h.val]
  exact h.cs.setEntry (by bv_omega) e.val

theorem step_fault (h : Expanding s x out e) (hm : s.op.toNat < s.total.toNat) (hadv : Functional.advance x e = none) :
    step s = .next (raiseTruncated .cursor s) := by
  obtain ⟨hlt, hnone⟩ := advance_eq_none hadv
  obtain ⟨hfault, -⟩ := cursorFetchFaultsInsteadOfDispatching s h.host h.phase
  rw [← h.cs, ← h.val] at hnone
  exact hfault (eMore_iff.2 hm) ((h.exhausted_eq hm).trans (decide_eq_false (Nat.not_le.2 hlt))) (h.xlen_le hnone)

/-- The step in the expansion that fetches the cursor byte `idx` (R151). -/
theorem step_cursor (h : Expanding s x out e) (hm : s.op.toNat < s.total.toNat)
    (hlt : e.cs.entry e.val < e.ce.entry e.val) {idx : Byte} (hidx : x[e.cs.entry e.val]? = some idx) :
    step s = if idx = 0 then execExpStay s else execExpDemote idx s := by
  obtain ⟨-, hfetch, -⟩ := cursorFetchFaultsInsteadOfDispatching s h.host h.phase
  rw [← h.cs, ← h.val] at hidx
  obtain ⟨hin, hread⟩ := h.read_eq hidx
  exact hfetch idx (eMore_iff.2 hm) ((h.exhausted_eq hm).trans (decide_eq_false (Nat.not_le.2 hlt))) hin hread

theorem step_retire (h : Expanding s x out e) (hm : s.op.toNat < s.total.toNat)
    (hle : e.ce.entry e.val ≤ e.cs.entry e.val) : step s = execExpRetire s := by
  obtain ⟨-, -, hretire, -⟩ := cursorFetchFaultsInsteadOfDispatching s h.host h.phase
  exact hretire ((h.exhausted_eq hm).trans (decide_eq_true hle))

/-- One step of the machine is one iteration of step 4 (R152 to R154, R158). -/
theorem exists_step (h : Expanding s x out e) (hm : s.op.toNat < s.total.toNat)
    (hadv : Functional.advance x e = some e') :
    ∃ t, step s = .next t ∧ t.total = s.total ∧ Expanding t x (out ++ [e.val]) e' := by
  obtain ⟨hop, hobuf⟩ := h.emit hm
  have hx := h.toIntermediate
  have hk := h.k
  have hk256 := h.k_le
  obtain ⟨hle, ⟨hk1, rfl⟩ | ⟨hk2, rfl⟩⟩ | ⟨hlt, idx, hidx, ⟨h0, rfl⟩ | ⟨h0, rfl⟩⟩ := advance_eq_some hadv
  · refine ⟨_, (h.step_retire hm hle).trans (execExpRetire_eq_next.2 ⟨hm, .inl ⟨hk ▸ hk1, rfl⟩⟩), rfl, ?_⟩
    exact ⟨⟨hx.host, hx.length, hx.bytes⟩, h.phase, h.rl, h.val, h.cs, h.ce, rfl, Nat.zero_le _, hop, hobuf⟩
  · have hpred : (s.k - 1).toNat = e.k - 1 := by bv_omega
    have hindex : tableIndex (s.k - 1) = some (BitVec.ofNat 8 (e.k - 1)) := hpred ▸ tableIndex_of_lt (by omega)
    refine ⟨_, (h.step_retire hm hle).trans
      (execExpRetire_eq_next.2 ⟨hm, .inr ⟨_, hindex, hk ▸ hk2, rfl⟩⟩), rfl, ?_⟩
    refine ⟨⟨hx.host, hx.length, hx.bytes⟩, h.phase, ?_, ?_, h.cs, h.ce, hpred, (Nat.sub_le _ _).trans hk256, hop, hobuf⟩
    · rw [h.rl]
    · rw [h.rl]
  · refine ⟨_, ((h.step_cursor hm hlt hidx).trans (if_pos h0)).trans (execExpStay_eq_next.2 ⟨hm, rfl⟩), rfl, ?_⟩
    exact ⟨⟨hx.host, hx.length, hx.bytes⟩, h.phase, h.rl, h.val, h.cursor_succ hlt, h.ce, hk, hk256, hop, hobuf⟩
  · refine ⟨_, ((h.step_cursor hm hlt hidx).trans (if_neg h0)).trans (execExpDemote_eq_next.2 ⟨hm, rfl⟩), rfl, ?_⟩
    refine ⟨⟨hx.host, hx.length, hx.bytes⟩, h.phase, ?_, ?_, h.cursor_succ hlt, h.ce, hk, hk256, hop, hobuf⟩
    · rw [h.rl, h.val]
    · rw [h.rl, h.val]

/-- EXP.DONE ends the decode with the bytes emitted (R155). -/
theorem yields_done (h : Expanding s x out e) (hend : out.length = s.total.toNat) : Yields s (.data out) := by
  obtain ⟨-, -, -, hdone⟩ := cursorFetchFaultsInsteadOfDispatching s h.host h.phase
  have hmore : eMore s = false := Bool.eq_false_iff.2 fun hm =>
    absurd (h.op.trans hend) (Nat.ne_of_lt (eMore_iff.1 hm))
  exact .of_step (hdone hmore) (.of_end h.host (observe_of_holds rfl hend.symm h.obuf))

/-- The expansion ends in what the iterations still due give (R158). -/
theorem yields {n : Nat} (h : Expanding s x out e) (hn : out.length + n = s.total.toNat) :
    Yields s (expandResult x out n e) := by
  induction n generalizing s out e with
  | zero =>
    rw [expandResult_zero]
    exact h.yields_done hn
  | succ n ih =>
    have hop := h.op
    have hm : s.op.toNat < s.total.toNat := by omega
    cases hadv : Functional.advance x e with
    | none =>
      rw [expandResult_of_fault hadv]
      exact .of_fault h.host (h.step_fault hm hadv)
    | some e' =>
      obtain ⟨t, hstep, htotal, ht⟩ := h.exists_step hm hadv
      rw [expandResult_of_advance hadv]
      refine .of_step hstep (ih ht ?_)
      rw [htotal, List.length_append, List.length_singleton]
      omega

end Expanding

/-! ### Step 3: the introductions (R125) -/

/-- The result of the introductions still due, of K ranked symbols, and of the expansion after them. -/
def introduceResult (x : List Byte) (freq : Table (BitVec 32)) (k : Nat) (xs : List Byte) (st : Functional.Intro) :
    Functional.Result :=
  (Functional.introduceAll x freq xs st).elim (.fault .slot) fun st =>
    expandResult x [] (Functional.total freq) { rl := st.rl, cs := st.cs, ce := st.ce, k := k, val := st.rl.entry 0 }

/-- The introduction of one symbol with its SLOT byte (R125). -/
def introduceOne (freq : Table (BitVec 32)) (st : Functional.Intro) (b sym : Byte) : Functional.Intro where
  rl := st.rl.setEntry b sym
  cs := st.cs.setEntry sym (st.m + 1)
  ce := st.ce.setEntry sym (st.m + (freq.entry sym).toNat)
  m := st.m + (freq.entry sym).toNat

theorem introduceResult_of_fault {x : List Byte} {st : Functional.Intro} (h : x[st.m]? = none)
    (freq : Table (BitVec 32)) (k : Nat) (sym : Byte) (xs : List Byte) :
    introduceResult x freq k (sym :: xs) st = .fault .slot := by
  rw [introduceResult, Functional.introduceAll, h]
  rfl

theorem introduceResult_of_slot {x : List Byte} {st : Functional.Intro} {b : Byte} (h : x[st.m]? = some b)
    (freq : Table (BitVec 32)) (k : Nat) (sym : Byte) (xs : List Byte) :
    introduceResult x freq k (sym :: xs) st = introduceResult x freq k xs (introduceOne freq st b sym) := by
  rw [introduceResult, Functional.introduceAll, h]
  rfl

/-- The sum of the counters of a list of symbols. -/
def counterSum (freq : Table (BitVec 32)) (xs : List Byte) : Nat := (xs.map fun b => (freq.entry b).toNat).sum

theorem counterSum_cons (freq : Table (BitVec 32)) (sym : Byte) (xs : List Byte) :
    counterSum freq (sym :: xs) = (freq.entry sym).toNat + counterSum freq xs := List.sum_cons

/-- The ranked symbols' counters add up to TOTAL (R67). -/
theorem Scans.counterSum_eq {rem : Table (BitVec 32)} {xs : List Byte} (h : Scans rem xs) :
    counterSum rem xs = Functional.total rem := by
  induction h with
  | done hzero => exact (total_eq_zero hzero).symm
  | @select rem xs _ hxs ih =>
    have hkept : counterSum (rem.setEntry (selectSymbol rem) 0) xs = counterSum rem xs := by
      refine congrArg List.sum (List.map_congr_left fun b hb => ?_)
      rw [Table.entry_setEntry_other]
      rintro rfl
      exact hxs.mem_iff.1 hb (Table.entry_setEntry_same _ _ _)
    have htotal := total_setEntry rem (selectSymbol rem) 0
    have hzero : (0 : BitVec 32).toNat = 0 := rfl
    rw [counterSum_cons]
    omega

/-- The machine in B_BUILD, the symbols `xs` still to be introduced, and the functional step 3 agree. -/
structure Introducing (s : State) (x : List Byte) (freq : Table (BitVec 32)) (xs : List Byte) (st : Functional.Intro) :
    Prop extends Intermediate s x where
  phase : s.phase = .bBuild
  freq_eq : s.freq = freq
  total : s.total.toNat = Functional.total freq
  rl : s.rl = st.rl
  cs : CursorsAgree s.cs st.cs
  ce : CursorsAgree s.ce st.ce
  m : s.m.toNat = st.m
  count : s.i.toNat + xs.length = s.k.toNat
  k_le : s.k.toNat ≤ 256
  order : ∀ n (hn : n < xs.length), s.order.entry (BitVec.ofNat 8 (s.i.toNat + n)) = xs[n]
  windows : st.m + counterSum freq xs = 1024 + Functional.total freq
  obuf : s.obuf.Holds []

namespace Introducing

variable {s : State} {x xs : List Byte} {freq : Table (BitVec 32)} {st : Functional.Intro} {sym b : Byte}

theorem index_lt (h : Introducing s x freq (sym :: xs) st) : s.i.toNat < s.k.toNat := by
  have hcount := h.count
  rw [List.length_cons] at hcount
  omega

theorem next_symbol (h : Introducing s x freq (sym :: xs) st) :
    s.order.entry (BitVec.ofNat 8 s.i.toNat) = sym := h.order 0 (Nat.succ_pos _)

theorem step_fault (h : Introducing s x freq (sym :: xs) st) (hx : x[st.m]? = none) :
    step s = .next (raiseTruncated .slot s) := by
  have hk := h.k_le
  have hi : s.i.toNat < 256 := h.index_lt.trans_le hk
  rw [step_of_no_move h.host, sequencerStep_bBuild_intro h.phase (bMore_iff.2 h.index_lt)]
  exact execIntroduce_eq_next.2 ⟨_, tableIndex_of_lt hi, .inl ⟨h.xlen_le (h.m ▸ hx), rfl⟩⟩

/-- One INTRO is one introduction of step 3; the windows end at 1024 + TOTAL, so M does not wrap (R29, R131). -/
theorem step_intro (h : Introducing s x freq (sym :: xs) st) (hx : x[st.m]? = some b) :
    step s = .next (afterIntro s b sym) ∧ Introducing (afterIntro s b sym) x freq xs (introduceOne freq st b sym) := by
  have hk := h.k_le
  have hi := h.index_lt
  have hm := h.m
  have hcount := h.count
  have hwindows := h.windows
  have htotal := total_lt freq
  rw [counterSum_cons] at hwindows
  rw [List.length_cons] at hcount
  have hnext : (s.m + (s.freq.entry sym).setWidth 41).toNat = st.m + (freq.entry sym).toNat := by
    rw [h.freq_eq, BitVec.toNat_add, BitVec.toNat_setWidth_of_le (by omega)]
    omega
  have hindex : (s.i + 1).toNat = s.i.toNat + 1 := by bv_omega
  obtain ⟨hin, hread⟩ := h.read_eq (h.m ▸ hx)
  constructor
  · have hstep := step_bBuild_intro h.host h.phase (hi.trans_le hk) hi hin hread
    rwa [h.next_symbol] at hstep
  · refine ⟨⟨h.host, h.length, h.bytes⟩, h.phase, h.freq_eq, h.total, congrArg (Table.setEntry · b sym) h.rl,
      h.cs.setEntry (by bv_omega) sym, h.ce.setEntry hnext sym, hnext, ?_, hk, fun n hn => ?_, ?_, h.obuf⟩
    · change (s.i + 1).toNat + xs.length = s.k.toNat
      omega
    · change s.order.entry (BitVec.ofNat 8 ((s.i + 1).toNat + n)) = xs[n]
      rw [hindex, Nat.add_assoc, Nat.add_comm 1 n]
      exact h.order (n + 1) (Nat.succ_lt_succ hn)
    · change st.m + (freq.entry sym).toNat + counterSum freq xs = _
      omega

/-- EXP.ENTER opens the expansion with VAL at the front of RL and nothing emitted (R132). -/
theorem yields_enter (h : Introducing s x freq [] st) : Yields s (introduceResult x freq s.k.toNat [] st) := by
  have henter := step_bBuild_enter h.host h.phase (Nat.le_of_eq h.count.symm)
  refine .of_step henter (Expanding.yields (out := []) ?_ ?_)
  · exact ⟨⟨h.host, h.length, h.bytes⟩, rfl, h.rl, congrArg (Table.entry · 0) h.rl, h.cs, h.ce, rfl, h.k_le, rfl, h.obuf⟩
  · exact (Nat.zero_add _).trans h.total.symm

/-- The introductions still due and what follows them end in what step 3 and step 4 give. -/
theorem yields (h : Introducing s x freq xs st) : Yields s (introduceResult x freq s.k.toNat xs st) := by
  induction xs generalizing s st with
  | nil => exact h.yields_enter
  | cons sym xs ih =>
    cases hx : x[st.m]? with
    | none =>
      rw [introduceResult_of_fault hx]
      exact .of_fault h.host (h.step_fault hx)
    | some b =>
      obtain ⟨hstep, hnext⟩ := h.step_intro hx
      rw [introduceResult_of_slot hx]
      exact .of_step hstep (ih hnext)

end Introducing

/-! ### Steps 1 and 2: the counters, the length check and the ranking (R125) -/

theorem stageB_of_mismatch {x : List Byte} {n : Nat}
    (h : (n ≠ 0 ∧ n ≠ Functional.total (Functional.counters x)) ∨ Functional.total (Functional.counters x) = 0) :
    Functional.stageB x n = .data [] := by
  unfold Functional.stageB
  obtain hlen | hzero := h
  · exact if_pos hlen
  · simp only [hzero, if_true, ite_self]

theorem stageB_of_match {x : List Byte} {n : Nat} (hlen : n = 0 ∨ n = Functional.total (Functional.counters x))
    (hsome : Functional.total (Functional.counters x) ≠ 0) :
    Functional.stageB x n = introduceResult x (Functional.counters x) (Functional.ranked (Functional.counters x)).length
      (Functional.ranked (Functional.counters x)) Functional.introStart := by
  have hpass : ¬(n ≠ 0 ∧ n ≠ Functional.total (Functional.counters x)) := fun ⟨hn, hne⟩ => hlen.elim hn hne
  simp only [Functional.stageB, if_neg hpass, if_neg hsome, introduceResult, expandResult]
  cases Functional.introduceAll x (Functional.counters x) (Functional.ranked (Functional.counters x))
      Functional.introStart with
  | none => rfl
  | some st =>
    simp only [Option.elim_some]
    generalize Functional.expand x _ _ = out
    cases out <;> rfl

/-- Stage B has the intermediate sequence, at least the header, and what START left of its own state (R100, R113). -/
structure Opened (s : State) (x : List Byte) (explen : BitVec 40) : Prop extends Intermediate s x where
  explen_eq : s.explen = explen
  header : 1024 ≤ x.length
  rl : s.rl = Table.identity
  cs : s.cs = Table.zero
  ce : s.ce = Table.zero
  obuf : s.obuf = []

namespace Opened

variable {s : State} {x : List Byte} {explen : BitVec 40}

/-- After the ranking the introductions begin, at the first of the ranked symbols (R128 to R130). -/
theorem introducing_afterRanking (h : Opened s x explen) {xs : List Byte} (hxs : Scans s.freq xs) (hk : s.k = 0)
    (htotal : s.total.toNat = Functional.total s.freq) :
    Introducing (afterRanking s xs) x s.freq xs Functional.introStart := by
  have hlen : xs.length ≤ 256 := hxs.length_eq ▸ countNonzero_le s.freq
  obtain ⟨hcount, horder⟩ := afterRanking_lists hk hlen
  have hfirst : (afterRanking s xs).i.toNat = 0 := rfl
  refine ⟨⟨h.host, h.length, h.bytes⟩, rfl, rfl, htotal, h.rl, ?_, ?_, rfl, ?_, hcount ▸ hlen, fun n hn => ?_, ?_, ?_⟩
  · exact h.cs ▸ cursorsAgree_zero
  · exact h.ce ▸ cursorsAgree_zero
  · rw [hcount, hfirst, Nat.zero_add]
  · rw [hfirst, Nat.zero_add]
    exact horder n hn
  · rw [hxs.counterSum_eq]
    rfl
  · exact h.obuf ▸ Memory.holds_nil

theorem yields_bRank (h : Opened s x explen) (hp : s.phase = .bRank) (hk : s.k = 0) (hrem : s.rem = s.freq)
    (htotal : s.total.toNat = Functional.total s.freq) :
    Yields s (introduceResult x s.freq (Functional.ranked s.freq).length (Functional.ranked s.freq)
      Functional.introStart) := by
  have hscans := scans_ranked s.freq
  have hlen : (Functional.ranked s.freq).length ≤ 256 := hscans.length_eq ▸ countNonzero_le s.freq
  have hrun := runSteps_ranking (xs := Functional.ranked s.freq) h.host hp (by rwa [hrem])
    (by rw [hk]; exact (Nat.zero_add _).trans_le hlen)
  have hyields := (h.introducing_afterRanking hscans hk htotal).yields
  rw [(afterRanking_lists hk hlen).1] at hyields
  exact .of_run hrun hyields

/-- LEN.CHK ends the decode with no data, or the ranking begins (R127). -/
theorem yields_bSum (h : Opened s x explen) (hp : s.phase = .bSum) (hfreq : s.freq = Functional.counters x) :
    Yields s (Functional.stageB x explen.toNat) := by
  have hstep : step s = exec .lenChk s := (step_of_no_move h.host).trans (sequencerStep_bSum hp)
  obtain rfl := h.explen_eq
  obtain ⟨-, hends, hgoes⟩ := lenChkSumsAndChecks.2 s
  have hzero : s.explen = 0 ↔ s.explen.toNat = 0 := (BitVec.toNat_inj (y := 0)).symm
  rw [ne_eq, hzero, exactSum_eq_total] at hends hgoes
  by_cases hend : (s.explen.toNat ≠ 0 ∧ s.explen.toNat ≠ Functional.total s.freq) ∨ Functional.total s.freq = 0
  · rw [stageB_of_mismatch (hfreq ▸ hend)]
    exact .of_step (hstep.trans (hends hend)) (.of_end h.host (observe_of_empty rfl rfl))
  · have hlen : s.explen.toNat = 0 ∨ s.explen.toNat = Functional.total s.freq := by omega
    have hsome : Functional.total s.freq ≠ 0 := fun e => hend (.inr e)
    rw [stageB_of_match (hfreq ▸ hlen) (hfreq ▸ hsome), ← hfreq]
    refine .of_step (hstep.trans (hgoes hlen hsome)) (yields_bRank (explen := s.explen) ?_ rfl rfl rfl ?_)
    · exact ⟨⟨h.host, h.length, h.bytes⟩, rfl, h.header, h.rl, h.cs, h.ce, h.obuf⟩
    · exact Nat.mod_eq_of_lt (total_lt s.freq)

end Opened

/-- After n counters of the header are loaded (R126). -/
structure Parsing (s : State) (x : List Byte) (explen : BitVec 40) (n : Nat) : Prop extends Opened s x explen where
  phase : s.phase = if n = 256 then .bSum else .bParse
  index : s.j.toNat = n
  loaded : ∀ b : Byte, b.toNat < n → s.freq.entry b = (Functional.counters x).entry b

namespace Parsing

variable {s : State} {x : List Byte} {explen : BitVec 40} {n : Nat}

theorem readCounter_eq (h : Parsing s x explen n) (hn : n < 256) :
    readCounter s = .next ((Functional.counters x).entry (BitVec.ofNat 8 n)) := by
  have hheader := h.header
  have hlength := h.length
  have hread : ∀ k, k < 4 → s.xbuf.read (4 * n + k) = some (x.getD (4 * n + k) 0) := fun k hk =>
    h.read_getD (by omega)
  rw [readCounter, h.index, readXbuf32_eq_next]
  refine ⟨by omega, _, _, _, _, hread 0 (by omega), hread 1 (by omega), hread 2 (by omega), hread 3 (by omega), ?_⟩
  rw [Functional.counters, Table.entry_tabulate, BitVec.toNat_ofNat, Nat.mod_eq_of_lt hn]
  rfl

theorem exists_step (h : Parsing s x explen n) (hn : n < 256) :
    ∃ t, step s = .next t ∧ Parsing t x explen (n + 1) := by
  have hj := h.index
  have hp : s.phase = .bParse := h.phase.trans (if_neg (Nat.ne_of_lt hn))
  have hindex : tableIndex s.j = some (BitVec.ofNat 8 n) := hj ▸ tableIndex_of_lt (hj ▸ hn)
  have hlast : s.j + 1 = 256 ↔ n + 1 = 256 := by bv_omega
  have hstep : step s = execCntLd s := by rw [step_of_no_move h.host, sequencerStep_bParse hp]
  refine ⟨_, hstep.trans (execCntLd_eq_next.2 ⟨_, _, hindex, h.readCounter_eq hn, rfl⟩),
    ⟨⟨⟨h.host, h.length, h.bytes⟩, h.explen_eq, h.header, h.rl, h.cs, h.ce, h.obuf⟩, ?_, ?_, fun b hb => ?_⟩⟩
  · simp only [hlast, hp]
  · change (s.j + 1).toNat = n + 1
    bv_omega
  · change (s.freq.setEntry _ _).entry b = _
    rw [Table.entry_setEntry]
    by_cases hb' : b = BitVec.ofNat 8 n
    · rw [if_pos hb', hb']
    · have hne : b.toNat ≠ n := fun e => hb' (by rw [← e, BitVec.ofNat_toNat, BitVec.setWidth_eq])
      rw [if_neg hb', h.loaded b (by omega)]

/-- From the first counter on, Stage B ends in what R125 and R158 give. -/
theorem yields (h : Parsing s x explen 0) : Yields s (Functional.stageB x explen.toNat) := by
  obtain ⟨t, hrun, ht⟩ := runSteps_of_invariant (P := fun n u => Parsing u x explen n) h fun _ _ hn hu => hu.exists_step hn
  exact .of_run hrun (ht.toOpened.yields_bSum ht.phase (Table.ext_entry fun b => ht.loaded b b.isLt))

end Parsing

/-! ### Stage A and the envelope (R101, R110) -/

theorem moveToFront_zero (t : Table Byte) : moveToFront t 0 = t := Table.setEntry_entry t 0

/-- Stage A gives one byte per symbol (R115). -/
theorem length_stageAFrom (t : Table Byte) (xs : List Byte) : (Functional.stageAFrom t xs).length = xs.length := by
  induction xs generalizing t with
  | nil => rfl
  | cons c xs ih => exact congrArg (· + 1) (ih _)

/-- The length of the intermediate sequence is XLEN (R53). -/
theorem length_stageA_symbols (buf : List Byte) : (Functional.stageA (buf.drop 4)).length = buf.length - 4 := by
  rw [Functional.stageA, length_stageAFrom, List.length_drop]

/-- The host's input as a decode finds it: INLEN is its length, and IBUF holds it (R175). -/
structure Loaded (s : State) (buf : List Byte) : Prop where
  inlen : s.inlen.toNat = buf.length
  bytes : ∀ a, a < buf.length → s.ibuf.read a = buf[a]?

theorem Loaded.read_eq {s : State} {buf : List Byte} (h : Loaded s buf) {a : Nat} (ha : a < buf.length) :
    s.ibuf.read a = some buf[a] := (h.bytes a ha).trans (List.getElem?_eq_getElem ha)

theorem Loaded.xlen_eq {s : State} {buf : List Byte} (h : Loaded s buf) : s.xlen = buf.length - 4 :=
  congrArg (· - 4) h.inlen

/-- After n symbols of Stage A: the first n bytes of the intermediate sequence are in XBUF, and the rest is what the
table T gives on the symbols to come (R110, R114). The other fields are as START left them. -/
structure Decoding (s : State) (buf : List Byte) (explen : BitVec 40) (n : Nat) : Prop extends Loaded s buf where
  host : s.host = []
  phase : s.phase = .aRun
  seed : some s.seed = buf[4]?
  xp : s.xp.toNat = n
  emitted : s.xbuf.Holds ((Functional.stageA (buf.drop 4)).take n)
  rest : (Functional.stageA (buf.drop 4)).drop n = Functional.stageAFrom s.t (buf.drop (4 + n))
  explen_eq : s.explen = explen
  rl : s.rl = Table.identity
  cs : s.cs = Table.zero
  ce : s.ce = Table.zero
  obuf : s.obuf = []

namespace Decoding

variable {s : State} {buf : List Byte} {explen : BitVec 40} {n : Nat}

theorem currentSymbol_eq (h : Decoding s buf explen n) (hn : 4 + n < buf.length) :
    currentSymbol s = .next buf[4 + n] := by
  have hinlen := h.inlen
  unfold currentSymbol
  split
  next h0 =>
    have hn0 : n = 0 := h.xp.symm.trans (congrArg BitVec.toNat h0)
    subst hn0
    rw [Option.some.inj (h.seed.trans (List.getElem?_eq_getElem hn))]
  next =>
    rw [h.xp]
    exact readIbuf_eq_next.2 ⟨by omega, h.read_eq hn⟩

/-- MTFA.KEEP is MTFA.MOVE at rank 0 (R111, R112). -/
theorem step_symbol (h : Decoding s buf explen n) (hn : 4 + n < buf.length) :
    step s = .next { s with t := moveToFront s.t buf[4 + n], xp := s.xp + 1,
                            xbuf := s.xbuf.write s.xp.toNat (s.t.entry buf[4 + n]) } := by
  have hx : s.xp.toNat < s.xlen := by rw [h.xp, h.xlen_eq]; omega
  rw [step_of_no_move h.host, sequencerStep_aRun_symbol h.phase (aMore_iff.2 hx), h.currentSymbol_eq hn, andThen_next]
  by_cases h0 : buf[4 + n] = 0
  · rw [if_pos h0, h0, moveToFront_zero]
    exact execMtfaKeep_eq_next.2 ⟨hx, rfl⟩
  · rw [if_neg h0]
    exact execMtfaMove_eq_next.2 ⟨hx, rfl⟩

theorem exists_step (h : Decoding s buf explen n) (hn : n < buf.length - 4) :
    ∃ t, step s = .next t ∧ Decoding t buf explen (n + 1) := by
  have hn' : 4 + n < buf.length := by omega
  have hinlen := h.inlen
  have hxp := h.xp
  have hlen := length_stageA_symbols buf
  have hrest := h.rest
  rw [List.drop_eq_getElem_cons hn', Functional.stageAFrom, List.drop_eq_getElem_cons (hlen ▸ hn)] at hrest
  obtain ⟨hbyte, hrest⟩ := List.cons.inj hrest
  refine ⟨_, h.step_symbol hn', ⟨⟨h.inlen, h.bytes⟩, h.host, h.phase, h.seed, ?_, ?_, hrest, h.explen_eq, h.rl, h.cs, h.ce,
    h.obuf⟩⟩
  · change (s.xp + 1).toNat = n + 1
    bv_omega
  · rw [List.take_succ_eq_append_getElem (hlen ▸ hn), hbyte]
    refine h.emitted.append ?_ _
    rw [hxp, List.length_take, hlen]
    omega

/-- A.END, with all symbols processed: cause 2, or Stage B opens (R113). -/
theorem yields_aEnd (h : Decoding s buf explen (buf.length - 4)) (hlen : 5 ≤ buf.length) :
    Yields s (Functional.decodeBuffer buf explen.toNat) := by
  have hxlen := length_stageA_symbols buf
  have hinlen := h.inlen
  have hmore : aMore s = false := Bool.eq_false_iff.2 fun hm => by
    have hlt := aMore_iff.1 hm
    rw [h.xp, h.inlen] at hlt
    omega
  have hstep : step s = exec .aEnd s := (step_of_no_move h.host).trans (sequencerStep_aRun_end h.phase hmore)
  obtain ⟨-, hfault, hopens⟩ := aEndChecksTheHeader
  have hdecode : Functional.decodeBuffer buf explen.toNat =
      if (Functional.stageA (buf.drop 4)).length < 1024 then .fault .header
      else Functional.stageB (Functional.stageA (buf.drop 4)) explen.toNat := if_neg (Nat.not_lt.2 hlen)
  rw [hdecode]
  by_cases hshort : (Functional.stageA (buf.drop 4)).length < 1024
  · rw [if_pos hshort]
    exact .of_fault h.host (hstep.trans (hfault s (by omega)))
  · rw [if_neg hshort]
    refine .of_step (hstep.trans (hopens s (by omega))) (Parsing.yields ?_)
    have hall := h.emitted
    rw [← hxlen, List.take_length] at hall
    exact ⟨⟨⟨h.host, h.xlen_eq.trans hxlen.symm, hall⟩, h.explen_eq, Nat.not_lt.1 hshort, h.rl, h.cs, h.ce, h.obuf⟩,
      rfl, rfl, fun b hb => absurd hb (Nat.not_lt_zero _)⟩

theorem yields (h : Decoding s buf explen 0) (hlen : 5 ≤ buf.length) :
    Yields s (Functional.decodeBuffer buf explen.toNat) := by
  obtain ⟨t, hrun, ht⟩ :=
    runSteps_of_invariant (P := fun n u => Decoding u buf explen n) h fun _ _ hn hu => hu.exists_step hn
  exact .of_run hrun (ht.yields_aEnd hlen)

end Decoding

/-- From the state START leaves, the steps end in `Decode(buf, E)` (R101, R171). -/
theorem yields_perDecodeInit {s : State} {buf : List Byte} {explen : BitVec 40} (h : Loaded s buf) (hh : s.host = [])
    (he : s.explen = explen) : Yields (perDecodeInit s) (Functional.decodeBuffer buf explen.toNat) := by
  obtain ⟨-, hfault, hreads⟩ := hdrRdReadsTheEnvelope
  have hstep : step (perDecodeInit s) = exec .hdrRd (perDecodeInit s) :=
    (step_of_no_move (s := perDecodeInit s) hh).trans (sequencerStep_hdr rfl)
  by_cases hlen : buf.length < 5
  · have hdecode : Functional.decodeBuffer buf explen.toNat = .fault .envelope := if_pos hlen
    rw [hdecode]
    exact .of_fault hh (hstep.trans (hfault _ (h.inlen ▸ hlen)))
  · have hlen' : 5 ≤ buf.length := Nat.not_lt.1 hlen
    have henvelope := hreads (perDecodeInit s) buf[0] buf[1] buf[2] buf[3] buf[4] (h.inlen ▸ hlen')
      (h.read_eq _) (h.read_eq _) (h.read_eq _) (h.read_eq _) (h.read_eq _)
    refine .of_step (hstep.trans henvelope) (Decoding.yields ?_ hlen')
    exact ⟨⟨h.inlen, h.bytes⟩, hh, rfl, (List.getElem?_eq_getElem hlen').symm, rfl, Memory.holds_nil, rfl, he, rfl, rfl,
      rfl, rfl⟩

/-- Settles O54. The CTRL move performs START, and from the state it leaves the phases, one by one, compute the steps of
the functional decode. -/
theorem stepMachineRefinesDecode : Obligations.StepMachineRefinesDecode := by
  rintro s buf explen ⟨hbusy, hinlen, hexplen, hbytes, hhost⟩
  have hstart : step s = .next (perDecodeInit { s with host := [] }) := by
    rw [step_of_writeCtrl hhost]
    exact execStart_eq_next.2 (.inr ⟨hbusy, rfl⟩)
  obtain ⟨n, t, hrun, hend⟩ := yields_perDecodeInit (s := { s with host := [] }) ⟨hinlen, hbytes⟩ rfl hexplen
  refine ⟨n + 1, t, ?_, Nat.succ_pos n, hend⟩
  rw [runSteps_succ, hstart, andThen_next, hrun]

end Sys2Proof.Machine

/-! PROOF. Hardware reset, asserted by the host's reset move in any phase (spec file 70_reset_and_hazards.md). -/

namespace Sys2Proof.Machine

/-- The host's move `reset` answers the reset state, whatever the phase (R215). -/
theorem step_of_reset {s : State} {rest : List HostEvent} (h : s.host = .reset :: rest) :
    step s = .next (hardwareReset { s with host := rest }) := by
  have hn : nextTurn s = hostTurn .reset { s with host := rest } := by unfold nextTurn; rw [h]
  rw [step, hn]
  rfl

/-- STATE = IDLE and CAUSE = none make STATUS zero (R52, R215). -/
theorem hardwareReset_statusWord (s : State) : (hardwareReset s).statusWord = 0 :=
  (by decide : Cause.none.code ++ 0#2 ++ RunState.idle.code = 0)

/-- Settles O34: the host's move comes before the sequencer's turn, so the phase it finds is not consulted. -/
theorem hardwareResetFromAnyPhase : Obligations.HardwareResetFromAnyPhase := by
  intro s rest h
  exact ⟨_, step_of_reset h, hardwareReset_phase _, hardwareReset_statusWord _, rfl, rfl, rfl, hardwareReset_host _⟩

end Sys2Proof.Machine

/-! PROOF. The encoding: the decoder, the encoder and the rows of the operation map agree (spec file 30_encoding.md). -/

namespace Sys2Proof

/-! ### A matching row is the selected one (R89) -/

/-- The rows before a row cannot take its words: they differ from it in a bit that both fix, or they fix a single word, whose
B = 0 the side condition of the later row excludes (R89). -/
theorem rows_disjoint : rows.Pairwise fun q r =>
    r.pattern &&& q.mask ≠ q.pattern &&& r.mask ∨
      (q.mask = BitVec.allOnes 14 ∧ q.pattern.byte = 0 ∧ (r.build 0).wellFormed = false) := by
  decide

/-- A row that matches a word is the one the decoder finds, once its side condition holds (R89). -/
theorem decodeDispatch_of_row {r : Row} {w : DW} (hr : r ∈ rows) (hw : w &&& r.mask = r.pattern)
    (hwf : (r.build w.byte).wellFormed = true) : decodeDispatch w = .ok (r.build w.byte) := by
  obtain ⟨before, after, hrows⟩ := List.append_of_mem hr
  have hdisjoint := rows_disjoint
  rw [hrows] at hdisjoint
  obtain ⟨-, -, hdisjoint⟩ := List.pairwise_append.1 hdisjoint
  refine decodeDispatch_of_first_row hrows (fun q hq => ?_) hw
  obtain hconflict | ⟨hmask, hbyte, hill⟩ := hdisjoint q hq r List.mem_cons_self
  · exact Row.accepts_eq_false hw hconflict
  · refine beq_eq_false_iff_ne.2 fun hq => ?_
    rw [hmask, BitVec.and_allOnes] at hq
    rw [hq, hbyte, hill] at hwf
    cases hwf

/-- A row without an operand takes every word that matches it (R90). -/
theorem selectedBy_of_mem_rows {mask value : DW} {i : Instr} (hr : ⟨value, mask, fun _ => i⟩ ∈ rows)
    (hwf : i.wellFormed = true) : Claims.SelectedBy mask value i :=
  fun _ hw => decodeDispatch_of_row hr hw hwf

/-- What the decoder answers, it answers from a row that matches the word (R89). -/
theorem exists_row_of_decodeDispatch {w : DW} {i : Instr} (h : decodeDispatch w = .ok i) :
    ∃ r ∈ rows, w &&& r.mask = r.pattern ∧ i = r.build w.byte := by
  unfold decodeDispatch at h
  split at h
  next r hr =>
    have hacc : r.accepts w = true := List.find?_some (p := fun r : Row => r.accepts w) hr
    injection h with h
    exact ⟨r, List.mem_of_find?_eq_some hr, beq_iff_eq.1 hacc, h.symm⟩
  next => cases h

/-- A row has a fixed operation, whose word is the row's pattern, or is one of the two with the operand B (R90, R91). -/
theorem mem_rows_cases {r : Row} (h : r ∈ rows) :
    (∃ i : Instr, (∀ b, r.build b = i) ∧ i.wellFormed = true ∧ i.dispatchWord = some r.pattern ∧ i.examinedBits = r.mask) ∨
      r = ⟨0x0900, 0x3F00, .mtfaMove⟩ ∨ r = ⟨0x1D00, 0x3F00, .expDemote⟩ := by
  unfold rows at h
  fin_cases h
  · exact .inl ⟨.hdrRd, fun _ => rfl, rfl, rfl, rfl⟩
  · exact .inl ⟨.mtfaKeep, fun _ => rfl, rfl, rfl, rfl⟩
  · exact .inr (.inl rfl)
  · exact .inl ⟨.aEnd, fun _ => rfl, rfl, rfl, rfl⟩
  · exact .inl ⟨.cntLd, fun _ => rfl, rfl, rfl, rfl⟩
  · exact .inl ⟨.lenChk, fun _ => rfl, rfl, rfl, rfl⟩
  · exact .inl ⟨.rankSel, fun _ => rfl, rfl, rfl, rfl⟩
  · exact .inl ⟨.rankEnd, fun _ => rfl, rfl, rfl, rfl⟩
  · exact .inl ⟨.introduce, fun _ => rfl, rfl, rfl, rfl⟩
  · exact .inl ⟨.expEnter, fun _ => rfl, rfl, rfl, rfl⟩
  · exact .inl ⟨.expRetire, fun _ => rfl, rfl, rfl, rfl⟩
  · exact .inl ⟨.expStay, fun _ => rfl, rfl, rfl, rfl⟩
  · exact .inr (.inr rfl)
  · exact .inl ⟨.expDone, fun _ => rfl, rfl, rfl, rfl⟩

/-! ### The words of the two operations with an operand (R91) -/

/-- The mask of bits 13:8: PHASE, F1 and F0. -/
theorem DW.getLsbD_high {k : Nat} (hk : k < 14) : (0x3F00 : DW).getLsbD k = decide (8 ≤ k) := by
  revert k
  decide

theorem DW.getLsbD_byte (w : DW) (k : Nat) : w.byte.getLsbD k = (decide (k < 8) && w.getLsbD k) := by
  rw [DW.byte, BitVec.getLsbD_extractLsb', Nat.zero_add]

/-- A word is its bits 13:8 and the dispatch byte. -/
theorem DW.eq_or_byte {w v : DW} (h : w &&& 0x3F00 = v) : w = v ||| w.byte.setWidth 14 := by
  refine BitVec.eq_of_getLsbD_eq fun k hk => ?_
  rw [← h, BitVec.getLsbD_or, BitVec.getLsbD_and, BitVec.getLsbD_setWidth, DW.getLsbD_high hk, DW.getLsbD_byte]
  by_cases h8 : 8 ≤ k
  · simp [h8, Nat.not_lt.2 h8]
  · simp [h8, hk, Nat.not_le.1 h8]

/-- Of a word made of bits 13:8 and a byte, the byte is the dispatch byte. -/
theorem DW.byte_or {v : DW} (hv : v &&& 0x3F00 = v) (b : Byte) : DW.byte (v ||| b.setWidth 14) = b := by
  refine BitVec.eq_of_getLsbD_eq fun k hk => ?_
  rw [DW.getLsbD_byte, ← hv, BitVec.getLsbD_or, BitVec.getLsbD_and, BitVec.getLsbD_setWidth,
    DW.getLsbD_high (by omega)]
  simp [hk, Nat.not_le.2 hk, show k < 14 by omega]

/-- Of a word made of bits 13:8 and a byte, the mask of bits 13:8 leaves those. -/
theorem DW.or_and_high {v : DW} (hv : v &&& 0x3F00 = v) (b : Byte) : (v ||| b.setWidth 14) &&& 0x3F00 = v := by
  refine BitVec.eq_of_getLsbD_eq fun k hk => ?_
  rw [← hv, BitVec.getLsbD_and, BitVec.getLsbD_or, BitVec.getLsbD_and, BitVec.getLsbD_setWidth, DW.getLsbD_high hk]
  by_cases h8 : 8 ≤ k
  · simp [h8]
  · simp [h8]

/-! ### Decoding and encoding -/

/-- Settles O2. The twelve operations without an operand and START have closed words; the words of MTFA.MOVE and EXP.DEMOTE
are their rows' bits 13:8 with the operand in the byte. -/
theorem decodeOfEncodeIsTheOperation : Obligations.DecodeOfEncodeIsTheOperation := by
  intro i hwf
  cases i
  case mtfaMove c =>
    have hbyte := DW.byte_or (v := 0x0900) rfl c
    have hdec := mtfaMove_selected (DW.or_and_high rfl c) (by rw [hbyte]; exact bne_iff_ne.1 hwf)
    rwa [hbyte] at hdec
  case expDemote idx =>
    have hbyte := DW.byte_or (v := 0x1D00) rfl idx
    have hdec := expDemote_selected (DW.or_and_high rfl idx) (by rw [hbyte]; exact bne_iff_ne.1 hwf)
    rwa [hbyte] at hdec
  all_goals decide

/-- A decoded operation meets the side condition B ≠ 0: the word with B = 0 selects MTFA.KEEP or EXP.STAY (R89). -/
theorem decodeDispatch_wellFormed {w : DW} {i : Instr} (h : decodeDispatch w = .ok i) : i.wellFormed = true := by
  obtain ⟨r, hr, hw, rfl⟩ := exists_row_of_decodeDispatch h
  obtain ⟨i, hbuild, hwf, -⟩ | rfl | rfl := mem_rows_cases hr
  · rw [hbuild, hwf]
  · refine bne_iff_ne.2 fun hzero => ?_
    have hkeep : decodeDispatch w = .ok .mtfaKeep := by
      rw [DW.eq_or_byte hw, hzero]
      decide
    exact nomatch hkeep.symm.trans h
  · refine bne_iff_ne.2 fun hzero => ?_
    have hstay : decodeDispatch w = .ok .expStay := by
      rw [DW.eq_or_byte hw, hzero]
      decide
    exact nomatch hstay.symm.trans h

/-- Settles O3, row by row; of the rows with an operand the word's byte is the operand. -/
theorem decodedWordAgreesWithItsRow : Obligations.DecodedWordAgreesWithItsRow := by
  intro w i h
  refine ⟨decodeDispatch_wellFormed h, ?_⟩
  obtain ⟨r, hr, hw, rfl⟩ := exists_row_of_decodeDispatch h
  obtain ⟨i, hbuild, -, hword, hbits⟩ | rfl | rfl := mem_rows_cases hr
  · rw [hbuild, hbits]
    exact ⟨_, hword, hw⟩
  · exact ⟨_, rfl, BitVec.and_allOnes.trans (DW.eq_or_byte hw)⟩
  · exact ⟨_, rfl, BitVec.and_allOnes.trans (DW.eq_or_byte hw)⟩

/-! ### The words that can be formed (R89) -/


/-- Settles O1, by running the decoder on the twelve closed words. -/
theorem writtenOutWordsDecode : Obligations.WrittenOutWordsDecode := by
  unfold Obligations.WrittenOutWordsDecode
  decide

end Sys2Proof

namespace Sys2Proof.Machine

/-- In a non-quiescent phase every flag and every dispatch byte select an operation (R89). -/
theorem exists_decodeDispatch_form {s : State} (hq : s.phase.quiescent = false) (b : Byte) :
    ∃ i, decodeDispatch (DW.form s.phase (flag1 s) (flag0 s) b) = .ok i := by
  unfold flag1 flag0
  cases hp : s.phase
  case idle | done | fault =>
    rw [hp] at hq
    cases hq
  case hdr => exact ⟨_, decodeDispatch_hdr b⟩
  case aRun =>
    dsimp only
    cases aMore s
    · exact ⟨_, decodeDispatch_aRun_end b⟩
    · by_cases h0 : b = 0
      · exact ⟨_, h0 ▸ decodeDispatch_aRun_keep⟩
      · exact ⟨_, decodeDispatch_aRun_move b h0⟩
  case bParse => exact ⟨_, decodeDispatch_bParse b⟩
  case bSum => exact ⟨_, decodeDispatch_bSum b⟩
  case bRank =>
    dsimp only
    cases anyRemaining s
    · exact ⟨_, decodeDispatch_bRank_end b⟩
    · exact ⟨_, decodeDispatch_bRank_sel b⟩
  case bBuild =>
    dsimp only
    cases bMore s
    · exact ⟨_, decodeDispatch_bBuild_enter b⟩
    · exact ⟨_, decodeDispatch_bBuild_intro b⟩
  case bExpand =>
    dsimp only
    rw [exhausted]
    cases eMore s
    · exact ⟨_, decodeDispatch_bExpand_done b⟩
    · cases valExhausted s
      · by_cases h0 : b = 0
        · exact ⟨_, h0 ▸ decodeDispatch_bExpand_stay⟩
        · exact ⟨_, decodeDispatch_bExpand_demote b h0⟩
      · exact ⟨_, decodeDispatch_bExpand_retire b⟩

end Sys2Proof.Machine

namespace Sys2Proof

theorem DW.byte_form (p : Phase) (f1 f0 : Bool) (b : Byte) : (DW.form p f1 f0 b).byte = b :=
  BitVec.extractLsb'_append_eq_right

theorem Instr.quiescent_of_phase {i : Instr} {p : Phase} (h : i.phase = some p) : p.quiescent = false := by
  cases i <;> cases h <;> rfl

theorem Phase.code_range {p : Phase} (h : p.quiescent = false) : 1 ≤ p.code.toNat ∧ p.code.toNat ≤ 7 := by
  revert h
  cases p <;> decide

/-- A word that selects an operation has a phase code from 1 to 7 (R88, R89). -/
theorem phaseCode_of_decodeDispatch {w : DW} {i : Instr} (h : decodeDispatch w = .ok i) :
    1 ≤ w.phaseCode.toNat ∧ w.phaseCode.toNat ≤ 7 := by
  obtain ⟨p, hp, hcode⟩ := Option.map_eq_some_iff.1 (decodeDispatch_phase h)
  exact hcode ▸ Phase.code_range (Instr.quiescent_of_phase hp)

/-- Settles O4. The rows are disjoint up to the side condition, so a matching row whose side condition holds is the one the
decoder reads; an operation's phase is none of the quiescent or reserved ones. -/
theorem formedWordsSelectExactlyOneOperation : Obligations.FormedWordsSelectExactlyOneOperation := by
  refine ⟨fun s b hq _ => ?_, fun w hw i h => ?_⟩
  · obtain ⟨i, hi⟩ := Machine.exists_decodeDispatch_form hq b
    refine ⟨i, hi, decodeDispatch_wellFormed hi, fun r hr hacc hwf => ?_⟩
    have hrow := decodeDispatch_of_row hr (beq_iff_eq.1 hacc) (by rwa [DW.byte_form])
    rw [DW.byte_form, hi] at hrow
    exact (Except.ok.inj hrow).symm
  · obtain ⟨hlow, hhigh⟩ := phaseCode_of_decodeDispatch h
    obtain hzero | hbig := hw
    · rw [hzero] at hlow
      exact absurd hlow (by decide)
    · omega

end Sys2Proof

/-! PROOF. What an operation changes and what it leaves: registers, tables, buffers and faults (spec files 10_state.md,
20_memory.md and 60_exceptions.md). -/

namespace Sys2Proof.Machine

open Sys2Proof.Claims

/-- When an operation raises TruncatedInput, and with which cause (R191 to R193). -/
def RaisesCause (s : State) (i : Instr) (c : Cause) : Prop :=
  (i = .hdrRd ∧ c = .envelope ∧ s.inlen.toNat < 5) ∨
  (i = .aEnd ∧ c = .header ∧ s.inlen.toNat - 4 < 1024) ∨
  (i = .introduce ∧ c = .slot ∧ s.inlen.toNat - 4 ≤ s.m.toNat)

/-- The states that an operation can answer, field by field; what a field becomes is left open where no frame statement or
fault statement asks for it. -/
inductive ExecCase (s : State) : Instr → State → Prop where
  | busy : ExecCase s .start s
  | start : ExecCase s .start (perDecodeInit s)
  | raise (i : Instr) (c : Cause) (h : RaisesCause s i c) : ExecCase s i (raiseTruncated c s)
  | hdrRd (tag : Vector Byte 4) (seed : Byte) :
    ExecCase s .hdrRd { s with tag := tag, seed := seed, xp := 0, phase := .aRun }
  | mtfaKeep : ExecCase s .mtfaKeep { s with xbuf := s.xbuf.write s.xp.toNat (s.t.entry 0), xp := s.xp + 1 }
  | mtfaMove (c : Byte) : ExecCase s (.mtfaMove c)
      { s with t := moveToFront s.t c, xbuf := s.xbuf.write s.xp.toNat (s.t.entry c), xp := s.xp + 1 }
  | aEnd : ExecCase s .aEnd { s with j := 0, phase := .bParse }
  | cntLd (freq : Table (BitVec 32)) (p : Phase) (hp : p = .bSum ∨ p = s.phase) :
    ExecCase s .cntLd { s with freq := freq, j := s.j + 1, phase := p }
  | lenEnd (total : BitVec 40) : ExecCase s .lenChk (finish 0 { s with total := total })
  | lenChk (total : BitVec 40) : ExecCase s .lenChk { s with total := total, rem := s.freq, k := 0, phase := .bRank }
  | rankSel (order : Table Byte) (rem : Table (BitVec 32)) :
    ExecCase s .rankSel { s with order := order, rem := rem, k := s.k + 1 }
  | rankEnd : ExecCase s .rankEnd { s with i := 0, m := 1024, phase := .bBuild }
  | introduce (rl : Table Byte) (cs ce : Table (BitVec 41)) (m : BitVec 41) :
    ExecCase s .introduce { s with rl := rl, cs := cs, m := m, ce := ce, i := s.i + 1 }
  | expEnter : ExecCase s .expEnter { s with val := s.rl.entry 0, op := 0, phase := .bExpand }
  | expRetire (k : BitVec 9) (rl : Table Byte) (val : Byte) : ExecCase s .expRetire
      { s with obuf := s.obuf.write s.op.toNat s.val, op := s.op + 1, k := k, rl := rl, val := val }
  | expStay (cs : Table (BitVec 41)) : ExecCase s .expStay
      { s with obuf := s.obuf.write s.op.toNat s.val, op := s.op + 1, cs := cs }
  | expDemote (idx : Byte) (cs : Table (BitVec 41)) (rl : Table Byte) (val : Byte) : ExecCase s (.expDemote idx)
      { s with obuf := s.obuf.write s.op.toNat s.val, op := s.op + 1, cs := cs, rl := rl, val := val }
  | expDone : ExecCase s .expDone (finish s.total s)

theorem exec_cases {i : Instr} {s t : State} (h : exec i s = .next t) : ExecCase s i t := by
  cases i with
  | start =>
    obtain ⟨-, rfl⟩ | ⟨-, rfl⟩ := execStart_eq_next.1 h
    · exact .busy
    · exact .start
  | hdrRd =>
    obtain ⟨hlen, rfl⟩ | ⟨-, e, -, rfl⟩ := execHdrRd_eq_next.1 h
    · exact .raise _ _ (.inl ⟨rfl, rfl, hlen⟩)
    · exact .hdrRd _ _
  | mtfaKeep =>
    obtain ⟨-, rfl⟩ := execMtfaKeep_eq_next.1 h
    exact .mtfaKeep
  | mtfaMove c =>
    obtain ⟨-, rfl⟩ := execMtfaMove_eq_next.1 h
    exact .mtfaMove c
  | aEnd =>
    obtain ⟨hlen, rfl⟩ | ⟨-, rfl⟩ := execAEnd_eq_next.1 h
    · exact .raise _ _ (.inr (.inl ⟨rfl, rfl, hlen⟩))
    · exact .aEnd
  | cntLd =>
    obtain ⟨j, f, -, -, rfl⟩ := execCntLd_eq_next.1 h
    exact .cntLd _ _ (by split; exacts [.inl rfl, .inr rfl])
  | lenChk =>
    obtain ⟨-, rfl⟩ | ⟨-, -, rfl⟩ := execLenChk_eq_next.1 h
    · exact .lenEnd _
    · exact .lenChk _
  | rankSel =>
    obtain ⟨k, -, rfl⟩ := execRankSel_eq_next.1 h
    exact .rankSel _ _
  | rankEnd =>
    obtain rfl := execRankEnd_eq_next.1 h
    exact .rankEnd
  | introduce =>
    obtain ⟨n, -, ⟨hout, rfl⟩ | ⟨b, -, rfl⟩⟩ := execIntroduce_eq_next.1 h
    · exact .raise _ _ (.inr (.inr ⟨rfl, rfl, hout⟩))
    · exact .introduce _ _ _ _
  | expEnter =>
    obtain rfl := execExpEnter_eq_next.1 h
    exact .expEnter
  | expRetire =>
    obtain ⟨-, ⟨-, rfl⟩ | ⟨count, -, -, rfl⟩⟩ := execExpRetire_eq_next.1 h
    · exact .expRetire _ _ _
    · exact .expRetire _ _ _
  | expStay =>
    obtain ⟨-, rfl⟩ := execExpStay_eq_next.1 h
    exact .expStay _
  | expDemote idx =>
    obtain ⟨-, rfl⟩ := execExpDemote_eq_next.1 h
    exact .expDemote idx _ _ _
  | expDone =>
    obtain rfl := execExpDone_eq_next.1 h
    exact .expDone

theorem identity_injective : Function.Injective Table.identity.entry := by
  intro a b hab
  rwa [Table.entry_identity, Table.entry_identity] at hab

/-- A move to the front keeps T a permutation: on the 256 bytes, holding every value and holding none twice are one (R41). -/
theorem moveToFront_injective {t : Table Byte} (h : Function.Injective t.entry) (c : Byte) :
    Function.Injective (moveToFront t c).entry :=
  Finite.injective_iff_surjective.2 (moveToFront_surjective (Finite.injective_iff_surjective.1 h) c)

/-- Settles O21. Only START and MTFA.MOVE write T: the identity, and a move to the front. -/
theorem rankTableStaysAPermutation : Obligations.RankTableStaysAPermutation := by
  intro i s t h hinj
  cases exec_cases h with
  | start => exact identity_injective
  | mtfaMove c => exact moveToFront_injective hinj c
  | _ => exact hinj

/-- Settles O22. In each outcome the other fields are those of the old state as they stand; a fault is one of three operations'. -/
theorem operationsWriteOnlyTheirOwnState : Obligations.OperationsWriteOnlyTheirOwnState := by
  intro i s t h hstart
  cases exec_cases h with
  | busy => exact absurd rfl hstart
  | start => exact absurd rfl hstart
  | raise i c hc =>
    obtain ⟨rfl, -⟩ | ⟨rfl, -⟩ | ⟨rfl, -⟩ := hc <;> simp
  | _ => simp [emitsIntermediate, emitsOutput, demotes]

/-- Settles O23. The stores are those of `ExecCase`, and a write is read back at its address alone. -/
theorem operationsStoreOnlyAtXpAndOp : Obligations.OperationsStoreOnlyAtXpAndOp := by
  intro i s t h
  have hwrite : ∀ (m : Memory) (a : Nat) (v : Byte), ∀ c, c ≠ a → (m.write a v).read c = m.read c :=
    fun m a v c hc => Memory.read_write_other m v hc
  cases exec_cases h with
  | raise i c hc =>
    obtain ⟨rfl, -⟩ | ⟨rfl, -⟩ | ⟨rfl, -⟩ := hc <;> simp [emitsIntermediate, emitsOutput]
  | _ => simp +contextual [emitsIntermediate, emitsOutput, hwrite]

/-- Settles O25. `raise` is the one outcome that leads to FAULT from another phase. -/
theorem operationFaultsArePrecise : Obligations.OperationFaultsArePrecise := by
  intro i s t hs h ht
  cases exec_cases h with
  | raise i c hc => exact ⟨c, rfl, hc⟩
  | busy | mtfaKeep | mtfaMove | rankSel | introduce | expRetire | expStay | expDemote => exact absurd ht hs
  | cntLd freq p hp =>
    obtain rfl | rfl := hp
    · cases ht
    · exact absurd ht hs
  | _ => cases ht

/-! ### What a step of the sequencer leaves -/

/-- A step of the sequencer is an operation of the phase, nothing, or the fault of the cursor-byte fetch (R34, R87, R151). -/
theorem sequencerStep_eq_next {s t : State} (h : sequencerStep s = .next t) :
    (∃ i, i.phase = some s.phase ∧ exec i s = .next t) ∨ t = s ∨ ∃ c, t = raiseTruncated c s := by
  unfold sequencerStep at h
  cases hturn : sequencerTurn s with
  | run i u =>
    obtain ⟨rfl, -⟩ := sequencerTurn_eq_run hturn
    rw [hturn] at h
    exact .inl ⟨i, phase_of_sequencerTurn_eq_run hturn, h⟩
  | settle o =>
    rw [hturn] at h
    obtain rfl : o = .next t := h
    obtain ⟨-, rfl⟩ | ⟨c, -, rfl⟩ := sequencerTurn_eq_settle_next hturn
    · exact .inr (.inl rfl)
    · exact .inr (.inr ⟨c, rfl⟩)

theorem ne_start_of_phase {i : Instr} {p : Phase} (h : i.phase = some p) : i ≠ .start := by
  rintro rfl
  cases h

/-- The sequencer writes neither the host's registers nor the input (R53, R54, R60). -/
theorem sequencerStep_keeps_input {s t : State} (h : sequencerStep s = .next t) :
    t.host = s.host ∧ t.inlen = s.inlen ∧ ∀ a, t.ibuf.read a = s.ibuf.read a := by
  obtain ⟨i, hi, hx⟩ | rfl | ⟨c, rfl⟩ := sequencerStep_eq_next h
  · obtain ⟨hhost, hinlen, -⟩ := operationsWriteOnlyTheirOwnState i s t hx (ne_start_of_phase hi)
    exact ⟨hhost, hinlen, (operationsStoreOnlyAtXpAndOp i s t hx).1⟩
  · exact ⟨rfl, rfl, fun _ => rfl⟩
  · exact ⟨rfl, rfl, fun _ => rfl⟩

end Sys2Proof.Machine

/-! PROOF. The invariant: the reset state meets it, and every step, of the sequencer or of the host, keeps it
(spec file 10_state.md). -/

namespace Sys2Proof.Machine

/-! ### Registers, tables and buffers -/

theorem xp_succ {s : State} (h : s.xp.toNat < s.xlen) : (s.xp + 1).toNat = s.xp.toNat + 1 := by
  unfold State.xlen at h
  bv_omega

theorem op_succ {s : State} (h : s.op.toNat < s.total.toNat) : (s.op + 1).toNat = s.op.toNat + 1 := by
  bv_omega

/-- A cursor before its end does not wrap when it advances. -/
theorem cursor_succ_toNat {x y : BitVec 41} (h : x.toNat < y.toNat) : (x + 1).toNat = x.toNat + 1 := by
  bv_omega

theorem Memory.covers_nil : Memory.Covers [] 0 := fun _ => rfl

/-- A store right after the covered bytes covers one byte more. -/
theorem Memory.Covers.write {m : Memory} {n : Nat} (h : m.Covers n) (v : Byte) : (m.write n v).Covers (n + 1) := by
  intro a
  rw [Memory.read_write]
  by_cases ha : a = n
  · simp [ha]
  · have hlt : a < n + 1 ↔ a < n := by omega
    rw [if_neg ha, h a, decide_eq_decide, hlt]

theorem Memory.Covers.exists_read {m : Memory} {n a : Nat} (h : m.Covers n) (ha : a < n) : ∃ v, m.read a = some v :=
  Option.isSome_iff_exists.1 ((h a).trans (decide_eq_true ha))

theorem Memory.Covers.lt_of_read {m : Memory} {n a : Nat} {v : Byte} (h : m.Covers n) (ha : m.read a = some v) : a < n :=
  of_decide_eq_true ((h a).symm.trans (by rw [ha]; rfl))

theorem eq_of_tableIndex {r : BitVec 9} {b : Byte} (h : tableIndex r = some b) :
    r.toNat < 256 ∧ b = BitVec.ofNat 8 r.toNat := by
  obtain ⟨hlt, -⟩ := tableIndex_eq_some.1 h
  exact ⟨hlt, Option.some.inj (h.symm.trans (tableIndex_of_lt hlt))⟩

/-! ### Flags that are 0 -/

theorem aMore_eq_false {s : State} (h : aMore s = false) : s.xlen ≤ s.xp.toNat :=
  Nat.not_lt.1 fun hlt => by rw [aMore_iff.2 hlt] at h; cases h

theorem bMore_eq_false {s : State} (h : bMore s = false) : s.k.toNat ≤ s.i.toNat :=
  Nat.not_lt.1 fun hlt => by rw [bMore_iff.2 hlt] at h; cases h

theorem eMore_eq_false {s : State} (h : eMore s = false) : s.total.toNat ≤ s.op.toNat :=
  Nat.not_lt.1 fun hlt => by rw [eMore_iff.2 hlt] at h; cases h

theorem anyRemaining_eq_false {s : State} (h : anyRemaining s = false) (b : Byte) : s.rem.entry b = 0 :=
  by_contra fun hne => by rw [anyRemaining_iff.2 ⟨b, hne⟩] at h; cases h

theorem valExhausted_eq_false {s : State} (h : valExhausted s = false) :
    (s.cs.entry s.val).toNat < (s.ce.entry s.val).toNat :=
  Nat.not_le.1 fun hle => by rw [valExhausted_iff.2 hle] at h; cases h

namespace Inv

variable {s t : State}

/-! ### Facts of a state that meets the invariant -/

theorem busy (h : Inv s) (hq : s.phase.quiescent = false) : s.state = .busy := by
  rw [h.status]
  revert hq
  cases s.phase <;> decide

theorem cause_eq_none (h : Inv s) (hq : s.phase.quiescent = false) : s.cause = .none :=
  h.cause.2 fun e => by rw [e] at hq; cases hq

theorem olen_eq_zero (h : Inv s) (hq : s.phase.quiescent = false) : s.olen = 0 :=
  h.olen fun e => by rw [e] at hq; cases hq

theorem rankTable_injective (h : Inv s) (hq : s.phase.quiescent = false) : Function.Injective s.t.entry :=
  h.rankTable fun e => by rw [e] at hq; cases hq

/-- Before the expansion at most K symbols are introduced. -/
theorem introduced_le (h : Inv s) (hq : s.phase.quiescent = false) (hne : s.phase ≠ .bExpand) : s.i.toNat ≤ s.k.toNat :=
  (h.introduced (h.busy hq)).1 hne

/-- Before the expansion nothing is emitted. -/
theorem output_empty (h : Inv s) (hq : s.phase.quiescent = false) (hne : s.phase ≠ .bExpand) :
    s.obuf.Covers s.op.toNat ∧ s.op = 0 := by
  obtain ⟨hobuf, hop⟩ := h.output (h.busy hq)
  exact ⟨hobuf, hop hne⟩

/-! ### The ends of a decode (R9, R195) -/

theorem after_raise (h : Inv s) (hq : s.phase.quiescent = false) {c : Cause} (hc : c ≠ .none) :
    Inv (raiseTruncated c s) :=
  { h with
    status := rfl
    cause := iff_of_false hc fun hne => hne rfl
    olen := fun _ => rfl
    emitted := nofun, introduced := nofun, header := nofun, stageA := nofun, intermediate := nofun, boundary := nofun
    parse := nofun, untouched := nofun, total := nofun, ranking := nofun, ranked := nofun, build := nofun
    cursorBound := nofun, expand := nofun, output := nofun, done := nofun
    rankTable := fun _ => h.rankTable_injective hq }

theorem after_finish (h : Inv s) (hq : s.phase.quiescent = false) {n total : BitVec 40} (hop : s.op.toNat ≤ total.toNat)
    (hn : n = 0 ∨ (n = total ∧ s.obuf.Covers n.toNat)) : Inv (finish n { s with total := total }) :=
  { h with
    status := rfl
    cause := iff_of_true (h.cause_eq_none hq) nofun
    olen := fun hne => absurd rfl hne
    positions := by
      obtain ⟨hj, hk, hi, -⟩ := h.positions
      exact ⟨hj, hk, hi, hop⟩
    emitted := nofun, introduced := nofun, header := nofun, stageA := nofun, intermediate := nofun, boundary := nofun
    parse := nofun, untouched := nofun, total := nofun, ranking := nofun, ranked := nofun, build := nofun
    cursorBound := nofun, expand := nofun, output := nofun
    done := fun _ => hn
    rankTable := fun _ => h.rankTable_injective hq }

/-! ### The host's moves -/

/-- The invariant does not speak of the host's pending moves. -/
theorem after_move (h : Inv s) (rest : List HostEvent) : Inv { s with host := rest } := { h with }

theorem after_perDecodeInit (hwf : s.ibuf.wf) : Inv (perDecodeInit s) where
  ibuf_wf := hwf
  xbuf_wf := Memory.wf_nil
  obuf_wf := Memory.wf_nil
  status := rfl
  cause := iff_of_true rfl nofun
  olen _ := rfl
  positions := ⟨Nat.zero_le _, Nat.zero_le _, Nat.zero_le _, Nat.le_refl _⟩
  emitted _ := Nat.zero_le _
  introduced _ := ⟨fun _ => Nat.le_refl _, nofun⟩
  rankTable _ := identity_injective
  header _ := rfl
  stageA := nofun
  intermediate _ := Memory.covers_nil
  boundary := nofun
  parse := nofun
  untouched _ _ _ := ⟨rfl, rfl, rfl, rfl⟩
  total := nofun
  ranking := nofun
  ranked := nofun
  build := nofun
  cursors b := by simp
  cursorBound := nofun
  expand := nofun
  output _ := ⟨Memory.covers_nil, fun _ => rfl⟩
  done := nofun

theorem of_reset : Inv State.reset where
  ibuf_wf := Memory.wf_nil
  xbuf_wf := Memory.wf_nil
  obuf_wf := Memory.wf_nil
  status := rfl
  cause := iff_of_true rfl nofun
  olen _ := rfl
  positions := by decide
  emitted := nofun
  introduced := nofun
  rankTable h := absurd rfl h
  header := nofun
  stageA := nofun
  intermediate := nofun
  boundary := nofun
  parse := nofun
  untouched := nofun
  total := nofun
  ranking := nofun
  ranked := nofun
  build := nofun
  cursors _ := Nat.le_refl _
  cursorBound := nofun
  expand := nofun
  output := nofun
  done := nofun

/-- While not BUSY the invariant does not speak of INLEN. -/
theorem after_writeInlen (h : Inv s) (hb : s.state ≠ .busy) (v : BitVec 32) : Inv { s with inlen := v } :=
  have hne : ∀ p : Phase, p.quiescent = false → s.phase ≠ p := fun p hp e => hb (h.busy (e ▸ hp))
  { h with
    emitted := fun hbusy => absurd hbusy hb
    stageA := fun hp => absurd hp (hne _ rfl)
    boundary := by rintro (hp | hp | hp | hp | hp) <;> exact absurd hp (hne _ rfl) }

theorem after_start (h : Inv s) (hx : execStart s = .next t) : Inv t := by
  obtain ⟨-, rfl⟩ | ⟨-, rfl⟩ := execStart_eq_next.1 hx
  · exact h
  · exact after_perDecodeInit h.ibuf_wf

theorem after_hostWriteInlen (h : Inv s) {v : BitVec 32} (hx : hostWriteInlen v s = .next t) : Inv t := by
  obtain ⟨-, rfl⟩ | ⟨hb, -, rfl⟩ := hostWriteInlen_eq_next.1 hx
  · exact h
  · exact h.after_writeInlen hb v

theorem after_hostWriteExplen (h : Inv s) {v : BitVec 40} (hx : hostWriteExplen v s = .next t) : Inv t := by
  obtain ⟨-, rfl⟩ | ⟨-, rfl⟩ := hostWriteExplen_eq_next.1 hx
  · exact h
  · exact { h with }

theorem after_hostWriteIbuf (h : Inv s) {a : BitVec 32} {b : Byte} (hx : hostWriteIbuf a b s = .next t) : Inv t := by
  obtain ⟨-, -, rfl⟩ := hostWriteIbuf_eq_next.1 hx
  exact { h with ibuf_wf := Memory.wf_write h.ibuf_wf _ _ }

/-! ### The operations up to Stage B (R101, R111 to R113) -/

theorem after_hdrRd (h : Inv s) (hp : s.phase = .hdr) (hx : execHdrRd s = .next t) : Inv t := by
  have hq : s.phase.quiescent = false := by rw [hp]; rfl
  have hne : s.phase ≠ .bExpand := by rw [hp]; nofun
  obtain ⟨-, rfl⟩ | ⟨hlen, e, -, rfl⟩ := execHdrRd_eq_next.1 hx
  · exact h.after_raise hq nofun
  have hb := h.busy hq
  have hxp : s.xp = 0 := h.header hp
  have hxbuf := h.intermediate hb
  rw [hxp] at hxbuf
  exact { h with
    status := hb
    cause := iff_of_true (h.cause_eq_none hq) nofun
    olen := fun _ => h.olen_eq_zero hq
    emitted := fun _ => Nat.zero_le _
    introduced := fun _ => ⟨fun _ => h.introduced_le hq hne, nofun⟩
    rankTable := fun _ => h.rankTable_injective hq
    stageA := fun _ => hlen
    intermediate := fun _ => hxbuf
    untouched := fun _ _ _ => h.untouched hb (by rw [hp]; nofun) hne
    output := fun _ => (h.output_empty hq hne).imp_right fun hop _ => hop
    header := nofun, boundary := nofun, parse := nofun, total := nofun, ranking := nofun, ranked := nofun
    build := nofun, cursorBound := nofun, expand := nofun, done := nofun }

/-- MTFA.KEEP and MTFA.MOVE: a byte is appended to XBUF, and T stays a permutation. -/
theorem after_emitIntermediate (h : Inv s) (hp : s.phase = .aRun) (hlt : s.xp.toNat < s.xlen) {T : Table Byte}
    (hT : Function.Injective T.entry) (v : Byte) :
    Inv { s with t := T, xbuf := s.xbuf.write s.xp.toNat v, xp := s.xp + 1 } :=
  have hq : s.phase.quiescent = false := by rw [hp]; rfl
  have hb := h.busy hq
  { h with
    xbuf_wf := Memory.wf_write h.xbuf_wf _ _
    emitted := fun _ => (xp_succ hlt).trans_le hlt
    rankTable := fun _ => hT
    header := fun hp' => nomatch hp.symm.trans hp'
    intermediate := fun _ => by
      rw [xp_succ hlt]
      exact (h.intermediate hb).write v
    boundary := by rw [hp]; nofun }

theorem after_keep (h : Inv s) (hp : s.phase = .aRun) (hx : execMtfaKeep s = .next t) : Inv t := by
  have hq : s.phase.quiescent = false := by rw [hp]; rfl
  obtain ⟨hlt, rfl⟩ := execMtfaKeep_eq_next.1 hx
  exact h.after_emitIntermediate hp hlt (h.rankTable_injective hq) _

theorem after_mtfaMove (h : Inv s) (hp : s.phase = .aRun) {c : Byte} (hx : execMtfaMove c s = .next t) : Inv t := by
  have hq : s.phase.quiescent = false := by rw [hp]; rfl
  obtain ⟨hlt, rfl⟩ := execMtfaMove_eq_next.1 hx
  exact h.after_emitIntermediate hp hlt (moveToFront_injective (h.rankTable_injective hq) c) _

/-- A.END finds XP = XLEN, so Stage B opens on the complete intermediate sequence. -/
theorem after_aEnd (h : Inv s) (hp : s.phase = .aRun) (hm : aMore s = false) (hx : execAEnd s = .next t) : Inv t := by
  have hq : s.phase.quiescent = false := by rw [hp]; rfl
  have hne : s.phase ≠ .bExpand := by rw [hp]; nofun
  obtain ⟨-, rfl⟩ | ⟨hlen, rfl⟩ := execAEnd_eq_next.1 hx
  · exact h.after_raise hq nofun
  have hb := h.busy hq
  have hall : s.xp.toNat = s.xlen := Nat.le_antisymm (h.emitted hb) (aMore_eq_false hm)
  obtain ⟨-, hk, hi, hop⟩ := h.positions
  exact { h with
    status := hb
    cause := iff_of_true (h.cause_eq_none hq) nofun
    olen := fun _ => h.olen_eq_zero hq
    positions := ⟨Nat.zero_le _, hk, hi, hop⟩
    introduced := fun _ => ⟨fun _ => h.introduced_le hq hne, nofun⟩
    rankTable := fun _ => h.rankTable_injective hq
    boundary := fun _ => ⟨hall, hlen⟩
    parse := fun _ => Nat.zero_lt_succ _
    untouched := fun _ _ _ => h.untouched hb (by rw [hp]; nofun) hne
    output := fun _ => (h.output_empty hq hne).imp_right fun hop _ => hop
    header := nofun, stageA := nofun, total := nofun, ranking := nofun, ranked := nofun
    build := nofun, cursorBound := nofun, expand := nofun, done := nofun }

/-! ### The operations of B_PARSE, B_SUM and B_RANK (R126 to R129) -/

/-- CNT.LD goes on with the next counter or, after the last, opens B_SUM; nothing else of the invariant is touched. -/
theorem after_counter (h : Inv s) (hp : s.phase = .bParse) {p : Phase} (hp' : p = .bParse ∨ p = .bSum)
    (hlast : p = .bParse → (s.j + 1).toNat < 256) (f : Table (BitVec 32)) :
    Inv { s with freq := f, j := s.j + 1, phase := p } := by
  have hq : s.phase.quiescent = false := by rw [hp]; rfl
  have hne : s.phase ≠ .bExpand := by rw [hp]; nofun
  have hb := h.busy hq
  obtain ⟨-, hk, hi, hop⟩ := h.positions
  have hj : (s.j + 1).toNat ≤ 256 := by
    have := h.parse hp
    bv_omega
  obtain rfl | rfl := hp'
  all_goals exact { h with
    status := hb
    cause := iff_of_true (h.cause_eq_none hq) nofun
    olen := fun _ => h.olen_eq_zero hq
    positions := ⟨hj, hk, hi, hop⟩
    introduced := fun _ => ⟨fun _ => h.introduced_le hq hne, nofun⟩
    rankTable := fun _ => h.rankTable_injective hq
    boundary := fun _ => h.boundary (.inl hp)
    parse := hlast
    untouched := fun _ _ _ => h.untouched hb (by rw [hp]; nofun) hne
    output := fun _ => (h.output_empty hq hne).imp_right fun hop _ => hop
    header := nofun, stageA := nofun, total := nofun, ranking := nofun, ranked := nofun
    build := nofun, cursorBound := nofun, expand := nofun, done := nofun }

theorem after_cntLd (h : Inv s) (hp : s.phase = .bParse) (hx : execCntLd s = .next t) : Inv t := by
  have hphase := execCntLd_phase hp hx
  obtain ⟨j, f, -, -, rfl⟩ := execCntLd_eq_next.1 hx
  generalize (if s.j + 1 = 256 then Phase.bSum else s.phase) = p at hphase ⊢
  obtain ⟨hlt, hp'⟩ | ⟨-, hp'⟩ := hphase
  · exact h.after_counter hp (.inl hp') (fun _ => by bv_omega) _
  · exact h.after_counter hp (.inr hp') (fun e => nomatch e.symm.trans hp') _

/-- LEN.CHK ends the decode without data, or opens the ranking with all counters still to rank. -/
theorem after_lenChk (h : Inv s) (hp : s.phase = .bSum) (hx : execLenChk s = .next t) : Inv t := by
  have hq : s.phase.quiescent = false := by rw [hp]; rfl
  have hne : s.phase ≠ .bExpand := by rw [hp]; nofun
  have hb := h.busy hq
  obtain ⟨hobuf, hop⟩ := h.output_empty hq hne
  obtain ⟨-, rfl⟩ | ⟨-, hsum, rfl⟩ := execLenChk_eq_next.1 hx
  · exact h.after_finish hq (by rw [hop]; exact Nat.zero_le _) (.inl rfl)
  have htotal := sumCounters_toNat s.freq
  have hpos : 0 < (sumCounters s.freq).toNat := by bv_omega
  have hstart := h.untouched hb (by rw [hp]; nofun) hne
  have hi : s.i = 0 := by
    obtain ⟨-, -, -, hi⟩ := hstart
    exact hi
  exact { h with
    status := hb
    cause := iff_of_true (h.cause_eq_none hq) nofun
    olen := fun _ => h.olen_eq_zero hq
    positions := by
      obtain ⟨hj, -, hi, -⟩ := h.positions
      exact ⟨hj, Nat.zero_le _, hi, by rw [hop]; exact Nat.zero_le _⟩
    introduced := fun _ => ⟨fun _ => Nat.le_of_eq (congrArg BitVec.toNat hi), nofun⟩
    rankTable := fun _ => h.rankTable_injective hq
    boundary := fun _ => h.boundary (.inr (.inl hp))
    untouched := fun _ _ _ => hstart
    total := fun _ => ⟨htotal, hpos⟩
    ranking := fun _ => ⟨fun _ => .inr rfl, Nat.zero_add _, (Nat.zero_add _).trans htotal.symm⟩
    ranked := fun _ n hn => absurd hn (Nat.not_lt_zero n)
    output := fun _ => ⟨hobuf, fun _ => hop⟩
    header := nofun, stageA := nofun, parse := nofun
    build := nofun, cursorBound := nofun, expand := nofun, done := nofun }

/-- RANK.SEL moves the counter of the selected symbol from REM to the window sum of the ranked ones. -/
theorem ranking_select (h : Inv s) (hp : s.phase = .bRank) {b : Byte} (hany : s.rem.entry b ≠ 0) :
    s.freq.entry (selectSymbol s.rem) ≠ 0 ∧ (s.k + 1).toNat = s.k.toNat + 1 ∧
      (s.k + 1).toNat + countNonzero (s.rem.setEntry (selectSymbol s.rem) 0) = countNonzero s.freq ∧
      windowSum s.freq (s.order.setEntry (BitVec.ofNat 8 s.k.toNat) (selectSymbol s.rem)) (s.k + 1).toNat
        + Functional.total (s.rem.setEntry (selectSymbol s.rem) 0) = s.total.toNat := by
  obtain ⟨hentries, hcount, hwindow⟩ := h.ranking hp
  have hsel := entry_selectSymbol_ne_zero hany
  have hfreq : s.rem.entry (selectSymbol s.rem) = s.freq.entry (selectSymbol s.rem) := (hentries _).resolve_left hsel
  have hcount' := countNonzero_setEntry_zero s.rem _ hsel
  have htotal' := total_setEntry s.rem (selectSymbol s.rem) 0
  have hzero : (0 : BitVec 32).toNat = 0 := rfl
  generalize selectSymbol s.rem = sym at *
  have hcount256 := countNonzero_le s.freq
  have hk : s.k.toNat < 256 := by omega
  have hnext : (s.k + 1).toNat = s.k.toNat + 1 := by bv_omega
  have hold : windowSum s.freq (s.order.setEntry (BitVec.ofNat 8 s.k.toNat) sym) s.k.toNat
      = windowSum s.freq s.order s.k.toNat :=
    windowSum_setEntry _ _ _ _ (by rw [BitVec.toNat_ofNat, Nat.mod_eq_of_lt hk])
  rw [hnext, windowSum_succ, hold, Table.entry_setEntry_same]
  refine ⟨hfreq ▸ hsel, rfl, by omega, ?_⟩
  rw [← hfreq]
  omega

theorem after_rankSel (h : Inv s) (hp : s.phase = .bRank) (ha : anyRemaining s = true) (hx : execRankSel s = .next t) :
    Inv t := by
  have hq : s.phase.quiescent = false := by rw [hp]; rfl
  have hne : s.phase ≠ .bExpand := by rw [hp]; nofun
  obtain ⟨k, hk, rfl⟩ := execRankSel_eq_next.1 hx
  obtain ⟨hk256, rfl⟩ := eq_of_tableIndex hk
  have hb := h.busy hq
  obtain ⟨b, hany⟩ := anyRemaining_iff.1 ha
  obtain ⟨hsym, hnext, hcount, hwindow⟩ := h.ranking_select hp hany
  obtain ⟨hentries, -, -⟩ := h.ranking hp
  obtain ⟨hj, -, hi, hop⟩ := h.positions
  have hle : s.i.toNat ≤ s.k.toNat := h.introduced_le hq hne
  have hk' : (s.k + 1).toNat ≤ 256 := hnext ▸ hk256
  generalize selectSymbol s.rem = sym at *
  exact { h with
    positions := ⟨hj, hk', hi, hop⟩
    introduced := fun _ => ⟨fun _ => hle.trans (by rw [hnext]; exact Nat.le_succ _), fun e => nomatch hp.symm.trans e⟩
    ranking := fun _ => ⟨fun c => by
      rw [Table.entry_setEntry]
      split
      · exact .inl rfl
      · exact hentries c, hcount, hwindow⟩
    ranked := fun _ n hn => by
      rw [hnext] at hn
      rw [Table.entry_setEntry_ofNat _ (by omega) hk256]
      split
      · exact hsym
      · exact h.ranked (.inl hp) n (by omega)
    build := fun e => nomatch hp.symm.trans e }

/-- With nothing left in REM, K counts all symbols with a counter and their windows add up to TOTAL. -/
theorem after_rankEnd (h : Inv s) (hp : s.phase = .bRank) (ha : anyRemaining s = false) (hx : execRankEnd s = .next t) :
    Inv t := by
  have hq : s.phase.quiescent = false := by rw [hp]; rfl
  have hne : s.phase ≠ .bExpand := by rw [hp]; nofun
  obtain rfl := execRankEnd_eq_next.1 hx
  have hb := h.busy hq
  have hrem := anyRemaining_eq_false ha
  obtain ⟨-, hcount, hwindow⟩ := h.ranking hp
  rw [countNonzero_eq_zero hrem, Nat.add_zero] at hcount
  rw [total_eq_zero hrem, Nat.add_zero] at hwindow
  obtain ⟨htotal, hpos⟩ := h.total (.inl hp)
  have hk : 1 ≤ s.k.toNat := Nat.one_le_iff_ne_zero.2 fun hzero => by
    rw [hzero, windowSum] at hwindow
    omega
  obtain ⟨-, -, hce, -⟩ := h.untouched hb (by rw [hp]; nofun) hne
  exact { h with
    status := hb
    cause := iff_of_true (h.cause_eq_none hq) nofun
    olen := fun _ => h.olen_eq_zero hq
    positions := by
      obtain ⟨hj, hk, -, hop⟩ := h.positions
      exact ⟨hj, hk, Nat.zero_le _, hop⟩
    introduced := fun _ => ⟨fun _ => Nat.zero_le _, nofun⟩
    rankTable := fun _ => h.rankTable_injective hq
    boundary := fun _ => h.boundary (.inr (.inr (.inl hp)))
    untouched := fun _ hne => absurd rfl hne
    total := fun _ => ⟨htotal, hpos⟩
    ranked := fun _ => h.ranked (.inl hp)
    build := fun _ => ⟨hk, hcount, hwindow, rfl⟩
    cursorBound := fun _ b => by
      rw [hce, Table.entry_zero]
      exact Nat.zero_le _
    output := fun _ => (h.output_empty hq hne).imp_right fun hop _ => hop
    header := nofun, stageA := nofun, parse := nofun, ranking := nofun, expand := nofun, done := nofun }

/-! ### The operations of B_BUILD (R131, R132) -/

/-- The window of the symbol that INTRO introduces ends within TOTAL, so M does not wrap (R29, R46). -/
theorem next_window (h : Inv s) (hp : s.phase = .bBuild) (hi : s.i.toNat < s.k.toNat) :
    (s.m + (s.freq.entry (s.order.entry (BitVec.ofNat 8 s.i.toNat))).setWidth 41).toNat
        = 1024 + windowSum s.freq s.order (s.i.toNat + 1) ∧
      windowSum s.freq s.order (s.i.toNat + 1) ≤ s.total.toNat := by
  obtain ⟨-, -, hwindow, hm⟩ := h.build hp
  have hmono : windowSum s.freq s.order (s.i.toNat + 1) ≤ windowSum s.freq s.order s.k.toNat :=
    windowSum_mono s.freq s.order hi
  have hsucc := windowSum_succ s.freq s.order s.i.toNat
  have hlt := s.total.isLt
  refine ⟨?_, hmono.trans_eq hwindow⟩
  rw [BitVec.toNat_add, BitVec.toNat_setWidth_of_le (by omega), Nat.mod_eq_of_lt (by omega)]
  omega

/-- The introduced symbol has a counter of at least 1, so its cursor starts at most at its end. -/
theorem after_introduce (h : Inv s) (hp : s.phase = .bBuild) (hm : bMore s = true) (hx : execIntroduce s = .next t) :
    Inv t := by
  have hq : s.phase.quiescent = false := by rw [hp]; rfl
  obtain ⟨i, hi, ⟨-, rfl⟩ | ⟨b, -, rfl⟩⟩ := execIntroduce_eq_next.1 hx
  · exact h.after_raise hq nofun
  obtain ⟨hi256, rfl⟩ := eq_of_tableIndex hi
  have hb := h.busy hq
  have hlt := bMore_iff.1 hm
  obtain ⟨hend, hbound⟩ := h.next_window hp hlt
  have hsome := h.ranked (.inr hp) s.i.toNat hlt
  obtain ⟨hk, hcount, hwindow, hstart⟩ := h.build hp
  have hsucc := windowSum_succ s.freq s.order s.i.toNat
  have hnext : (s.i + 1).toNat = s.i.toNat + 1 := by bv_omega
  have htotal := s.total.isLt
  generalize s.order.entry (BitVec.ofNat 8 s.i.toNat) = sym at *
  have hfirst : (s.m + 1).toNat ≤ (s.m + (s.freq.entry sym).setWidth 41).toNat := by bv_omega
  exact { h with
    positions := by
      obtain ⟨hj, hk, -, hop⟩ := h.positions
      exact ⟨hj, hk, by rw [hnext]; exact hi256, hop⟩
    introduced := fun _ => ⟨fun _ => by rw [hnext]; exact hlt, fun e => nomatch hp.symm.trans e⟩
    untouched := fun _ hne => absurd hp hne
    build := fun _ => ⟨hk, hcount, hwindow, by rw [hnext]; exact hend⟩
    cursors := fun c => by
      rw [Table.entry_setEntry, Table.entry_setEntry]
      split
      · exact hfirst
      · exact h.cursors c
    cursorBound := fun _ c => by
      rw [Table.entry_setEntry]
      split
      · exact hend.trans_le (Nat.add_le_add_left hbound _)
      · exact h.cursorBound (.inl hp) c
    expand := fun e => nomatch hp.symm.trans e }

/-- EXP.ENTER finds all K symbols introduced, so the last window ends at 1024 + TOTAL. -/
theorem after_enter (h : Inv s) (hp : s.phase = .bBuild) (hm : bMore s = false) (hx : execExpEnter s = .next t) :
    Inv t := by
  have hq : s.phase.quiescent = false := by rw [hp]; rfl
  have hne : s.phase ≠ .bExpand := by rw [hp]; nofun
  obtain rfl := execExpEnter_eq_next.1 hx
  have hb := h.busy hq
  have hle : s.i.toNat ≤ s.k.toNat := h.introduced_le hq hne
  have hge := bMore_eq_false hm
  obtain ⟨hk, hcount, hwindow, hstart⟩ := h.build hp
  have hi := Nat.le_antisymm hle hge
  obtain ⟨hobuf, hop⟩ := h.output_empty hq hne
  exact { h with
    status := hb
    cause := iff_of_true (h.cause_eq_none hq) nofun
    olen := fun _ => h.olen_eq_zero hq
    positions := by
      obtain ⟨hj, hk, hi, -⟩ := h.positions
      exact ⟨hj, hk, hi, Nat.zero_le _⟩
    introduced := fun _ => ⟨fun hne => absurd rfl hne, fun _ => ⟨hi.trans hcount, hge⟩⟩
    rankTable := fun _ => h.rankTable_injective hq
    boundary := fun _ => h.boundary (.inr (.inr (.inr (.inl hp))))
    untouched := fun _ _ hne => absurd rfl hne
    total := fun _ => h.total (.inr (.inl hp))
    cursorBound := fun _ => h.cursorBound (.inl hp)
    expand := fun _ => ⟨rfl, by rw [← hwindow, ← hi]; exact hstart⟩
    output := fun _ => by
      rw [hop] at hobuf
      exact ⟨hobuf, fun hne => absurd rfl hne⟩
    header := nofun, stageA := nofun, parse := nofun, ranking := nofun, ranked := nofun, build := nofun, done := nofun }

/-! ### The operations of B_EXPAND (R152 to R155) -/

/-- The expansion emits VAL; the operations differ in K, the cursor starts, the rank list and VAL. -/
theorem after_emitOutput (h : Inv s) (hp : s.phase = .bExpand) (hop : s.op.toNat < s.total.toNat) {k : BitVec 9}
    (hk : k.toNat ≤ s.k.toNat) {cs : Table (BitVec 41)} (hcs : ∀ b, (cs.entry b).toNat ≤ (s.ce.entry b).toNat)
    {rl : Table Byte} {val : Byte} (hval : val = rl.entry 0) :
    Inv { s with obuf := s.obuf.write s.op.toNat s.val, op := s.op + 1, k := k, cs := cs, rl := rl, val := val } :=
  have hq : s.phase.quiescent = false := by rw [hp]; rfl
  have hb := h.busy hq
  { h with
    obuf_wf := Memory.wf_write h.obuf_wf _ _
    positions := by
      obtain ⟨hj, hk', hi, -⟩ := h.positions
      exact ⟨hj, hk.trans hk', hi, (op_succ hop).trans_le hop⟩
    introduced := fun _ => by
      obtain ⟨-, hexp⟩ := h.introduced hb
      obtain ⟨hi, hle⟩ := hexp hp
      exact ⟨fun hne => absurd hp hne, fun _ => ⟨hi, hk.trans hle⟩⟩
    untouched := fun _ _ hne => absurd hp hne
    ranking := fun e => nomatch hp.symm.trans e
    ranked := by rw [hp]; nofun
    build := fun e => nomatch hp.symm.trans e
    cursors := hcs
    expand := fun _ => ⟨hval, (h.expand hp).2⟩
    output := fun _ => by
      rw [op_succ hop]
      exact ⟨(h.output hb).1.write _, fun hne => absurd hp hne⟩
    done := fun e => nomatch hp.symm.trans e }

theorem after_retire (h : Inv s) (hp : s.phase = .bExpand) (hx : execExpRetire s = .next t) : Inv t := by
  obtain ⟨hop, ⟨-, rfl⟩ | ⟨count, -, hk, rfl⟩⟩ := execExpRetire_eq_next.1 hx
  · exact h.after_emitOutput hp hop (Nat.zero_le _) h.cursors (h.expand hp).1
  · exact h.after_emitOutput hp hop (by bv_omega) h.cursors rfl

/-- With VAL not exhausted, its cursor start advances at most to its end. -/
theorem cursors_advance (h : Inv s) (hx : valExhausted s = false) (b : Byte) :
    ((s.cs.setEntry s.val (s.cs.entry s.val + 1)).entry b).toNat ≤ (s.ce.entry b).toNat := by
  have hlt := valExhausted_eq_false hx
  rw [Table.entry_setEntry]
  split
  next hbv =>
    rw [cursor_succ_toNat hlt, hbv]
    exact hlt
  next => exact h.cursors b

theorem after_stay (h : Inv s) (hp : s.phase = .bExpand) (hx : valExhausted s = false) (he : execExpStay s = .next t) :
    Inv t := by
  obtain ⟨hop, rfl⟩ := execExpStay_eq_next.1 he
  exact h.after_emitOutput hp hop (Nat.le_refl _) (h.cursors_advance hx) (h.expand hp).1

theorem after_demote (h : Inv s) (hp : s.phase = .bExpand) (hx : valExhausted s = false) {idx : Byte}
    (he : execExpDemote idx s = .next t) : Inv t := by
  obtain ⟨hop, rfl⟩ := execExpDemote_eq_next.1 he
  exact h.after_emitOutput hp hop (Nat.le_refl _) (h.cursors_advance hx) rfl

/-- EXP.DONE finds OP = TOTAL, so OBUF holds exactly OLEN bytes. -/
theorem after_done (h : Inv s) (hp : s.phase = .bExpand) (hm : eMore s = false) (hx : execExpDone s = .next t) : Inv t := by
  have hq : s.phase.quiescent = false := by rw [hp]; rfl
  obtain rfl := execExpDone_eq_next.1 hx
  obtain ⟨-, -, -, hle⟩ := h.positions
  have hall : s.op.toNat = s.total.toNat := Nat.le_antisymm hle (eMore_eq_false hm)
  obtain ⟨hobuf, -⟩ := h.output (h.busy hq)
  exact h.after_finish hq hle (.inr ⟨rfl, hall ▸ hobuf⟩)

/-! ### Every step -/

theorem after_sequencer (h : Inv s) (hc : SequencerCase s t) : Inv t := by
  cases hc with
  | quiescent _ ht => exact ht ▸ h
  | hdrRd hp hx => exact h.after_hdrRd hp hx
  | keep hp _ _ hx => exact h.after_keep hp hx
  | move c hp _ _ _ hx => exact h.after_mtfaMove hp hx
  | aEnd hp hm hx => exact h.after_aEnd hp hm hx
  | cntLd hp hx => exact h.after_cntLd hp hx
  | lenChk hp hx => exact h.after_lenChk hp hx
  | rankSel hp ha hx => exact h.after_rankSel hp ha hx
  | rankEnd hp ha hx => exact h.after_rankEnd hp ha hx
  | introduce hp hm hx => exact h.after_introduce hp hm hx
  | enter hp hm hx => exact h.after_enter hp hm hx
  | retire hp _ _ hx => exact h.after_retire hp hx
  | cursorFault hp _ _ _ ht => exact ht ▸ h.after_raise (by rw [hp]; rfl) nofun
  | stay hp _ hv _ hx => exact h.after_stay hp hv hx
  | demote idx hp _ hv _ _ hx => exact h.after_demote hp hv hx
  | done hp hm hx => exact h.after_done hp hm hx

theorem after_step (h : Inv s) (hc : StepCase s t) : Inv t := by
  cases hc with
  | sequencer _ hc => exact h.after_sequencer hc
  | wait rest _ hc => exact (h.after_move rest).after_sequencer hc
  | start _ rest _ hx => exact (h.after_move rest).after_start hx
  | noCommand _ rest _ ht => exact ht ▸ h.after_move rest
  | inlen _ rest _ hx => exact (h.after_move rest).after_hostWriteInlen hx
  | explen _ rest _ hx => exact (h.after_move rest).after_hostWriteExplen hx
  | ibuf _ _ rest _ hx => exact (h.after_move rest).after_hostWriteIbuf hx
  | reset rest _ ht => exact ht ▸ of_reset.after_move rest

end Inv

/-- Settles O40, by the cases of a step: one lemma above per operation and per host move. -/
theorem everyStepKeepsTheInvariant : Obligations.EveryStepKeepsTheInvariant :=
  fun _ _ h hstep => h.after_step (step_cases hstep)

/-- Settles O39. Outside a decode the invariant asks only for the reset values. -/
theorem resetMeetsTheInvariant : Obligations.ResetMeetsTheInvariant := Inv.of_reset

end Sys2Proof.Machine

/-! PROOF. What follows from the invariant: the sequencer never stops, bytes once written stay, a cursor fault means a short
region, and every decode ends within its bound (spec files 20_memory.md, 44_pipeline_top.md and 60_exceptions.md). -/

namespace Sys2Proof.Machine

open Sys2Proof.Claims

/-! ### One symbol of Stage A -/

/-- The state after one symbol of Stage A (R111, R112). -/
def afterSymbol (s : State) (c : Byte) : State :=
  { s with t := moveToFront s.t c, xp := s.xp + 1, xbuf := s.xbuf.write s.xp.toNat (s.t.entry c) }

/-- The step of A_RUN on a symbol; MTFA.KEEP is MTFA.MOVE at rank 0. -/
theorem sequencerStep_symbol {s : State} {c : Byte} (hp : s.phase = .aRun) (hlt : s.xp.toNat < s.xlen)
    (hc : currentSymbol s = .next c) : sequencerStep s = .next (afterSymbol s c) := by
  rw [sequencerStep_aRun_symbol hp (aMore_iff.2 hlt), hc, andThen_next, afterSymbol]
  by_cases h0 : c = 0
  · rw [if_pos h0, h0, moveToFront_zero]
    exact execMtfaKeep_eq_next.2 ⟨hlt, rfl⟩
  · rw [if_neg h0]
    exact execMtfaMove_eq_next.2 ⟨hlt, rfl⟩

/-! ### The sequencer never stops (R174) -/

theorem InputLoaded.exists_read {s : State} (h : InputLoaded s) (hb : s.state = .busy) {a : Nat}
    (ha : a < s.inlen.toNat) : ∃ v, s.ibuf.read a = some v :=
  Option.isSome_iff_exists.1 (h hb a ha)

namespace Inv

variable {s t : State}

theorem exists_next_hdr (h : Inv s) (hin : InputLoaded s) (hp : s.phase = .hdr) : ∃ t, sequencerStep s = .next t := by
  rw [sequencerStep_hdr hp]
  by_cases hlen : s.inlen.toNat < 5
  · exact ⟨_, execHdrRd_eq_next.2 (.inl ⟨hlen, rfl⟩)⟩
  · have hread : ∀ a, a < 5 → ∃ v, s.ibuf.read a = some v := fun a ha =>
      hin.exists_read (h.busy (by rw [hp]; rfl)) (by omega)
    obtain ⟨b0, h0⟩ := hread 0 (by decide)
    obtain ⟨b1, h1⟩ := hread 1 (by decide)
    obtain ⟨b2, h2⟩ := hread 2 (by decide)
    obtain ⟨b3, h3⟩ := hread 3 (by decide)
    obtain ⟨b4, h4⟩ := hread 4 (by decide)
    have henv : readEnvelope s = .next (#v[b0, b1, b2, b3], b4) :=
      readEnvelope_eq_next.2 ⟨by omega, b0, b1, b2, b3, b4, h0, h1, h2, h3, h4, rfl⟩
    exact ⟨_, execHdrRd_eq_next.2 (.inr ⟨Nat.not_lt.1 hlen, _, henv, rfl⟩)⟩

theorem exists_next_aRun (h : Inv s) (hin : InputLoaded s) (hp : s.phase = .aRun) : ∃ t, sequencerStep s = .next t := by
  cases hm : aMore s with
  | false =>
    rw [sequencerStep_aRun_end hp hm]
    by_cases hlen : s.xlen < 1024
    · exact ⟨_, execAEnd_eq_next.2 (.inl ⟨hlen, rfl⟩)⟩
    · exact ⟨_, execAEnd_eq_next.2 (.inr ⟨Nat.not_lt.1 hlen, rfl⟩)⟩
  | true =>
    have hlt : s.xp.toNat < s.xlen := aMore_iff.1 hm
    have haddr : 4 + s.xp.toNat < s.inlen.toNat := Nat.add_comm 4 _ ▸ lt_xlen_iff.1 hlt
    obtain ⟨v, hv⟩ := hin.exists_read (h.busy (by rw [hp]; rfl)) haddr
    obtain ⟨c, hc⟩ : ∃ c, currentSymbol s = .next c := by
      unfold currentSymbol
      split
      · exact ⟨_, rfl⟩
      · exact ⟨v, readIbuf_eq_next.2 ⟨haddr, hv⟩⟩
    exact ⟨_, sequencerStep_symbol hp hlt hc⟩

/-- In Stage B every byte of XBUF below XLEN is written (R48, R71). -/
theorem exists_readXbuf (h : Inv s) (hB : inStageB s.phase) {a : Nat} (ha : a < s.xlen) : ∃ v, readXbuf s a = .next v := by
  have hb : s.state = .busy := h.busy (by obtain hp | hp | hp | hp | hp := hB <;> rw [hp] <;> rfl)
  obtain ⟨hxp, -⟩ := h.boundary hB
  obtain ⟨v, hv⟩ := (h.intermediate hb).exists_read (hxp ▸ ha)
  exact ⟨v, readXbuf_eq_next.2 ⟨ha, hv⟩⟩

theorem exists_next_bParse (h : Inv s) (hp : s.phase = .bParse) : ∃ t, sequencerStep s = .next t := by
  have hj := h.parse hp
  obtain ⟨-, hheader⟩ := h.boundary (.inl hp)
  have hread : ∀ a, a < 1024 → ∃ v, readXbuf s a = .next v := fun a ha => h.exists_readXbuf (.inl hp) (ha.trans_le hheader)
  obtain ⟨b0, h0⟩ := hread (4 * s.j.toNat) (by omega)
  obtain ⟨b1, h1⟩ := hread (4 * s.j.toNat + 1) (by omega)
  obtain ⟨b2, h2⟩ := hread (4 * s.j.toNat + 2) (by omega)
  obtain ⟨b3, h3⟩ := hread (4 * s.j.toNat + 3) (by omega)
  have hcounter : readCounter s = .next (le32 b0 b1 b2 b3) := by
    rw [readCounter, readXbuf32, h0, andThen_next, h1, andThen_next, h2, andThen_next, h3, andThen_next]
  rw [sequencerStep_bParse hp]
  exact ⟨_, execCntLd_eq_next.2 ⟨_, _, tableIndex_of_lt hj, hcounter, rfl⟩⟩

theorem exists_next_bSum (hp : s.phase = .bSum) : ∃ t, sequencerStep s = .next t := by
  rw [sequencerStep_bSum hp, execLenChk]
  split
  · exact ⟨_, rfl⟩
  · split <;> exact ⟨_, rfl⟩

theorem exists_next_bRank (h : Inv s) (hp : s.phase = .bRank) : ∃ t, sequencerStep s = .next t := by
  cases ha : anyRemaining s with
  | false =>
    rw [sequencerStep_bRank_end hp ha]
    exact ⟨_, rfl⟩
  | true =>
    obtain ⟨b, hb⟩ := anyRemaining_iff.1 ha
    obtain ⟨-, hcount, -⟩ := h.ranking hp
    have hpos := countNonzero_pos hb
    have hle := countNonzero_le s.freq
    rw [sequencerStep_bRank_sel hp ha]
    exact ⟨_, execRankSel_eq_next.2 ⟨_, tableIndex_of_lt (by omega), rfl⟩⟩

theorem exists_next_bBuild (h : Inv s) (hp : s.phase = .bBuild) : ∃ t, sequencerStep s = .next t := by
  cases hm : bMore s with
  | false =>
    rw [sequencerStep_bBuild_enter hp hm]
    exact ⟨_, rfl⟩
  | true =>
    obtain ⟨-, hk, -⟩ := h.positions
    have hi : tableIndex s.i = some (BitVec.ofNat 8 s.i.toNat) := tableIndex_of_lt ((bMore_iff.1 hm).trans_le hk)
    rw [sequencerStep_bBuild_intro hp hm]
    by_cases hout : s.xlen ≤ s.m.toNat
    · exact ⟨_, execIntroduce_eq_next.2 ⟨_, hi, .inl ⟨hout, rfl⟩⟩⟩
    · obtain ⟨v, hv⟩ := h.exists_readXbuf (.inr (.inr (.inr (.inl hp)))) (Nat.not_le.1 hout)
      exact ⟨_, execIntroduce_eq_next.2 ⟨_, hi, .inr ⟨v, hv, rfl⟩⟩⟩

theorem exists_next_bExpand (h : Inv s) (hp : s.phase = .bExpand) : ∃ t, sequencerStep s = .next t := by
  cases hm : eMore s with
  | false =>
    rw [sequencerStep_bExpand_done hp hm]
    exact ⟨_, rfl⟩
  | true =>
    have hop := eMore_iff.1 hm
    cases hx : valExhausted s with
    | true =>
      rw [sequencerStep_bExpand_retire hp hm hx]
      by_cases hk : s.k.toNat ≤ 1
      · exact ⟨_, execExpRetire_eq_next.2 ⟨hop, .inl ⟨hk, rfl⟩⟩⟩
      · obtain ⟨-, hk256, -⟩ := h.positions
        have hcount : (s.k - 1).toNat < 256 := by bv_omega
        exact ⟨_, execExpRetire_eq_next.2 ⟨hop, .inr ⟨_, tableIndex_of_lt hcount, by omega, rfl⟩⟩⟩
    | false =>
      rw [sequencerStep_bExpand_cursor hp hm hx]
      by_cases hout : s.xlen ≤ (s.cs.entry s.val).toNat
      · exact ⟨_, if_pos hout⟩
      · obtain ⟨b, hb⟩ := h.exists_readXbuf (.inr (.inr (.inr (.inr hp)))) (Nat.not_le.1 hout)
        rw [if_neg hout, hb, andThen_next]
        by_cases h0 : b = 0
        · rw [if_pos h0]
          exact ⟨_, execExpStay_eq_next.2 ⟨hop, rfl⟩⟩
        · rw [if_neg h0]
          exact ⟨_, execExpDemote_eq_next.2 ⟨hop, rfl⟩⟩

theorem exists_next (h : Inv s) (hin : InputLoaded s) : ∃ t, sequencerStep s = .next t := by
  cases hp : s.phase with
  | idle => exact ⟨s, sequencerStep_quiescent (by rw [hp]; rfl)⟩
  | hdr => exact h.exists_next_hdr hin hp
  | aRun => exact h.exists_next_aRun hin hp
  | bParse => exact h.exists_next_bParse hp
  | bSum => exact exists_next_bSum hp
  | bRank => exact h.exists_next_bRank hp
  | bBuild => exact h.exists_next_bBuild hp
  | bExpand => exact h.exists_next_bExpand hp
  | done => exact ⟨s, sequencerStep_quiescent (by rw [hp]; rfl)⟩
  | fault => exact ⟨s, sequencerStep_quiescent (by rw [hp]; rfl)⟩

end Inv

/-- Settles O41, phase by phase. -/
theorem sequencerNeverStops : Obligations.SequencerNeverStops := by
  intro s h hin hh
  rw [step_of_no_move hh]
  exact h.exists_next hin

/-! ### Written bytes stay (R65) -/

theorem emitsIntermediate_phase {i : Instr} (h : emitsIntermediate i) : i.phase = some .aRun := by
  obtain rfl | ⟨c, rfl⟩ := h <;> rfl

theorem emitsOutput_phase {i : Instr} (h : emitsOutput i) : i.phase = some .bExpand := by
  obtain rfl | rfl | ⟨idx, rfl⟩ := h <;> rfl

/-- Settles O42. The one byte of XBUF that an operation stores is at XP, and that of OBUF at OP, which no byte holds yet. -/
theorem writtenBytesStay : Obligations.WrittenBytesStay := by
  intro s t h hh hstep
  rw [step_of_no_move hh] at hstep
  obtain ⟨i, hi, hx⟩ | rfl | ⟨c, rfl⟩ := sequencerStep_eq_next hstep
  · obtain ⟨-, hxbuf, hobuf, hxp, hop⟩ := operationsStoreOnlyAtXpAndOp i s t hx
    have hstart := ne_start_of_phase hi
    have hb := h.busy (Instr.quiescent_of_phase hi)
    refine ⟨fun a v hv => ?_, fun a v hv => ?_⟩
    · by_cases he : emitsIntermediate i
      · rw [hxp he a (Nat.ne_of_lt ((h.intermediate hb).lt_of_read hv)), hv]
      · rw [hxbuf hstart he, hv]
    · by_cases he : emitsOutput i
      · rw [(hop he).2 a (Nat.ne_of_lt ((h.output hb).1.lt_of_read hv)), hv]
      · rw [hobuf hstart he, hv]
  · exact ⟨fun _ _ hv => hv, fun _ _ hv => hv⟩
  · exact ⟨fun _ _ hv => hv, fun _ _ hv => hv⟩

/-! ### The steps of the expansion, and the cursor fault (R194) -/

/-- What a step of the expansion can be (R151 to R155). -/
theorem expansion_cases {s t : State} (hh : s.host = []) (hp : s.phase = .bExpand) (h : step s = .next t) :
    (eMore s = false ∧ execExpDone s = .next t) ∨
    (valExhausted s = true ∧ execExpRetire s = .next t) ∨
    (valExhausted s = false ∧
      ((s.xlen ≤ (s.cs.entry s.val).toNat ∧ t = raiseTruncated .cursor s) ∨
        execExpStay s = .next t ∨ ∃ idx, execExpDemote idx s = .next t)) := by
  rw [step_of_no_move hh] at h
  cases hm : eMore s with
  | false => exact .inl ⟨rfl, sequencerStep_bExpand_done hp hm ▸ h⟩
  | true =>
    cases hx : valExhausted s with
    | true => exact .inr (.inl ⟨rfl, sequencerStep_bExpand_retire hp hm hx ▸ h⟩)
    | false =>
      refine .inr (.inr ⟨rfl, ?_⟩)
      rw [sequencerStep_bExpand_cursor hp hm hx] at h
      split at h
      next hout => exact .inl ⟨hout, next_inj.1 h⟩
      next =>
        obtain ⟨b, -, h⟩ := andThen_eq_next.1 h
        split at h
        · exact .inr (.inl h)
        · exact .inr (.inr ⟨b, h⟩)

/-- Settles O27. The fault is at a cursor start before its end, and all ends are at most 1024 + TOTAL. -/
theorem cursorFaultOnlyWhenTheRegionIsShort : Obligations.CursorFaultOnlyWhenTheRegionIsShort := by
  intro s t h hh hp hstep ht
  obtain ⟨-, hx⟩ | ⟨-, hx⟩ | ⟨hv, ⟨hout, rfl⟩ | hx | ⟨idx, hx⟩⟩ := expansion_cases hh hp hstep
  · rw [execExpDone_eq_next.1 hx] at ht
    cases ht
  · obtain ⟨-, ⟨-, rfl⟩ | ⟨count, -, -, rfl⟩⟩ := execExpRetire_eq_next.1 hx <;> exact nomatch hp.symm.trans ht
  · exact ⟨rfl, (hout.trans_lt (valExhausted_eq_false hv)).trans_le (h.cursorBound (.inr hp) s.val)⟩
  · obtain ⟨-, rfl⟩ := execExpStay_eq_next.1 hx
    exact nomatch hp.symm.trans ht
  · obtain ⟨-, rfl⟩ := execExpDemote_eq_next.1 hx
    exact nomatch hp.symm.trans ht

end Sys2Proof.Machine

/-! PROOF. Termination: every decode ends within its bound (spec file 44_pipeline_top.md). -/

namespace Sys2Proof.Machine

open Sys2Proof.Claims

/-! ### The steps made and the steps allowed (R174) -/

/-- The steps of the sequencer since START, read off the phase and its counter; 0 in a quiescent phase. -/
def stepsMade (s : State) : Nat :=
  match s.phase with
  | .idle => 0
  | .hdr => 0
  | .aRun => 1 + s.xp.toNat
  | .bParse => 1 + s.xlen + 1 + s.j.toNat
  | .bSum => 1 + s.xlen + 1 + 256
  | .bRank => 1 + s.xlen + 1 + 256 + 1 + s.k.toNat
  | .bBuild => 1 + s.xlen + 1 + 256 + 1 + (countNonzero s.freq + 1) + s.i.toNat
  | .bExpand => 1 + s.xlen + 1 + 256 + 1 + (countNonzero s.freq + 1) + (countNonzero s.freq + 1) + s.op.toNat
  | .done => 0
  | .fault => 0

/-- The bound of R174. -/
def stepBound (s : State) : Nat :=
  1 + s.xlen + 1 + 256 + 1 + (countNonzero s.freq + 1) + (countNonzero s.freq + 1) + s.total.toNat + 1

theorem stepBound_le (s : State) : stepBound s ≤ 2 ^ 41 := by
  have hinlen := s.inlen.isLt
  have htotal := s.total.isLt
  have hcount := countNonzero_le s.freq
  unfold stepBound State.xlen
  omega

/-- A step of the sequencer in a running decode counts as one more step made, or ends the decode within the bound. -/
def Advances (s t : State) : Prop :=
  (t.phase.quiescent = false ∧ stepsMade t = stepsMade s + 1) ∨
    ((t.phase = .done ∨ t.phase = .fault) ∧ stepsMade s + 1 ≤ stepBound t)

namespace Inv

variable {s t : State}

/-- Until the decode ends, steps are left. -/
theorem stepsMade_lt (h : Inv s) (hq : s.phase.quiescent = false) : stepsMade s < stepBound s := by
  unfold stepsMade stepBound
  have hb := h.busy hq
  cases hp : s.phase
  case idle | done | fault =>
    rw [hp] at hq
    cases hq
  case hdr => dsimp only; omega
  case aRun =>
    have := h.emitted hb
    dsimp only
    omega
  case bParse =>
    have := h.parse hp
    dsimp only
    omega
  case bSum => dsimp only; omega
  case bRank =>
    obtain ⟨-, hcount, -⟩ := h.ranking hp
    dsimp only
    omega
  case bBuild =>
    obtain ⟨-, hcount, -⟩ := h.build hp
    have := h.introduced_le hq (by rw [hp]; nofun)
    dsimp only
    omega
  case bExpand =>
    obtain ⟨-, -, -, hop⟩ := h.positions
    dsimp only
    omega

theorem advances_end (h : Inv s) (hq : s.phase.quiescent = false) (ht : t.phase = .done ∨ t.phase = .fault)
    (hbound : stepBound t = stepBound s) : Advances s t :=
  .inr ⟨ht, hbound ▸ h.stepsMade_lt hq⟩

theorem advances_symbol (hp : s.phase = .aRun) (hlt : s.xp.toNat < s.xlen) (T : Table Byte) (v : Byte) :
    Advances s { s with t := T, xbuf := s.xbuf.write s.xp.toNat v, xp := s.xp + 1 } :=
  .inl ⟨by simp only [hp, Phase.quiescent], by simp only [stepsMade, hp, xp_succ hlt]; rfl⟩

theorem advances_output (hp : s.phase = .bExpand) (hop : s.op.toNat < s.total.toNat) (k : BitVec 9)
    (cs : Table (BitVec 41)) (rl : Table Byte) (val : Byte) :
    Advances s { s with obuf := s.obuf.write s.op.toNat s.val, op := s.op + 1, k := k, cs := cs, rl := rl, val := val } :=
  .inl ⟨by simp only [hp, Phase.quiescent], by simp only [stepsMade, hp, op_succ hop]; rfl⟩

theorem advances_cntLd (hp : s.phase = .bParse) (hx : execCntLd s = .next t) : Advances s t := by
  have hphase := execCntLd_phase hp hx
  obtain ⟨j, f, -, -, rfl⟩ := execCntLd_eq_next.1 hx
  generalize (if s.j + 1 = 256 then Phase.bSum else s.phase) = p at hphase ⊢
  obtain ⟨hj, rfl⟩ | ⟨hj, rfl⟩ := hphase
  · have hnext : (s.j + 1).toNat = s.j.toNat + 1 := by bv_omega
    exact .inl ⟨rfl, by simp only [stepsMade, hp, hnext]; rfl⟩
  · exact .inl ⟨rfl, by simp only [stepsMade, hp, hj]; rfl⟩

theorem advances (h : Inv s) (hq : s.phase.quiescent = false) (hc : SequencerCase s t) : Advances s t := by
  have hb := h.busy hq
  cases hc with
  | quiescent hq' => rw [hq] at hq'; cases hq'
  | hdrRd hp hx =>
    obtain ⟨-, rfl⟩ | ⟨-, e, -, rfl⟩ := execHdrRd_eq_next.1 hx
    · exact h.advances_end hq (.inr rfl) rfl
    · exact .inl ⟨rfl, by simp only [stepsMade, hp]; rfl⟩
  | keep hp hm _ hx =>
    obtain ⟨hlt, rfl⟩ := execMtfaKeep_eq_next.1 hx
    exact advances_symbol hp hlt _ _
  | move c hp hm _ _ hx =>
    obtain ⟨hlt, rfl⟩ := execMtfaMove_eq_next.1 hx
    exact advances_symbol hp hlt _ _
  | aEnd hp hm hx =>
    obtain ⟨-, rfl⟩ | ⟨-, rfl⟩ := execAEnd_eq_next.1 hx
    · exact h.advances_end hq (.inr rfl) rfl
    · have hall := Nat.le_antisymm (h.emitted hb) (aMore_eq_false hm)
      exact .inl ⟨rfl, by simp only [stepsMade, hp, hall]; rfl⟩
  | cntLd hp hx => exact advances_cntLd hp hx
  | lenChk hp hx =>
    obtain ⟨-, rfl⟩ | ⟨-, -, rfl⟩ := execLenChk_eq_next.1 hx
    · refine .inr ⟨.inl rfl, ?_⟩
      have hbound : stepBound (finish 0 { s with total := sumCounters s.freq }) = 1 + s.xlen + 1 + 256 + 1
        + (countNonzero s.freq + 1) + (countNonzero s.freq + 1) + (sumCounters s.freq).toNat + 1 := rfl
      have hmade : stepsMade s = 1 + s.xlen + 1 + 256 := by simp only [stepsMade, hp]
      omega
    · exact .inl ⟨rfl, by simp only [stepsMade, hp]; rfl⟩
  | rankSel hp _ hx =>
    obtain ⟨k, hk, rfl⟩ := execRankSel_eq_next.1 hx
    obtain ⟨hk256, -⟩ := eq_of_tableIndex hk
    have hnext : (s.k + 1).toNat = s.k.toNat + 1 := by bv_omega
    exact .inl ⟨by simp only [hp, Phase.quiescent], by simp only [stepsMade, hp, hnext]; rfl⟩
  | rankEnd hp ha hx =>
    obtain rfl := execRankEnd_eq_next.1 hx
    obtain ⟨-, hcount, -⟩ := h.ranking hp
    rw [countNonzero_eq_zero (anyRemaining_eq_false ha), Nat.add_zero] at hcount
    exact .inl ⟨rfl, by simp only [stepsMade, hp, hcount]; rfl⟩
  | introduce hp _ hx =>
    obtain ⟨i, hi, ⟨-, rfl⟩ | ⟨b, -, rfl⟩⟩ := execIntroduce_eq_next.1 hx
    · exact h.advances_end hq (.inr rfl) rfl
    · obtain ⟨hi256, -⟩ := eq_of_tableIndex hi
      have hnext : (s.i + 1).toNat = s.i.toNat + 1 := by bv_omega
      exact .inl ⟨by simp only [hp, Phase.quiescent], by simp only [stepsMade, hp, hnext]; rfl⟩
  | enter hp hm hx =>
    obtain rfl := execExpEnter_eq_next.1 hx
    have hle : s.i.toNat ≤ s.k.toNat := h.introduced_le hq (by rw [hp]; nofun)
    have hi := Nat.le_antisymm hle (bMore_eq_false hm)
    obtain ⟨-, hcount, -⟩ := h.build hp
    exact .inl ⟨rfl, by simp only [stepsMade, hp, hi, hcount]; rfl⟩
  | retire hp _ _ hx =>
    obtain ⟨hop, ⟨-, rfl⟩ | ⟨count, -, -, rfl⟩⟩ := execExpRetire_eq_next.1 hx
    · exact advances_output hp hop _ _ _ _
    · exact advances_output hp hop _ _ _ _
  | cursorFault _ _ _ _ ht => exact ht ▸ h.advances_end hq (.inr rfl) rfl
  | stay hp _ _ _ hx =>
    obtain ⟨hop, rfl⟩ := execExpStay_eq_next.1 hx
    exact advances_output hp hop _ _ _ _
  | demote idx hp _ _ _ _ hx =>
    obtain ⟨hop, rfl⟩ := execExpDemote_eq_next.1 hx
    exact advances_output hp hop _ _ _ _
  | done hp _ hx =>
    obtain rfl := execExpDone_eq_next.1 hx
    exact h.advances_end hq (.inl rfl) rfl

/-! ### The run to the end -/

/-- From a running decode the sequencer reaches DONE or FAULT; `n` bounds what is left of the largest bound. -/
theorem exists_end (h : Inv s) (hin : InputLoaded s) (hh : s.host = []) (hq : s.phase.quiescent = false) (n : Nat)
    (hn : 2 ^ 41 ≤ stepsMade s + n) :
    ∃ m t, runSteps m s = .next t ∧ t.host = [] ∧ (t.phase = .done ∨ t.phase = .fault) ∧ t.inlen = s.inlen ∧
      stepsMade s + m ≤ stepBound t := by
  induction n generalizing s with
  | zero =>
    have := h.stepsMade_lt hq
    have := stepBound_le s
    omega
  | succ n ih =>
    obtain ⟨u, hu⟩ := h.exists_next hin
    have hstep : step s = .next u := (step_of_no_move hh).trans hu
    obtain ⟨hhost, hinlen, hibuf⟩ := sequencerStep_keeps_input hu
    have hc := sequencerStep_cases hu
    obtain ⟨hq', hmade⟩ | ⟨hend, hbound⟩ := h.advances hq hc
    · have hin' : InputLoaded u := fun _ a ha => by
        rw [hibuf]
        exact hin (h.busy hq) a (hinlen ▸ ha)
      obtain ⟨m, t, hrun, hth, htp, htin, htb⟩ := ih (h.after_sequencer hc) hin' (hhost.trans hh) hq' (by omega)
      refine ⟨m + 1, t, ?_, hth, htp, htin.trans hinlen, by omega⟩
      rw [runSteps_succ, hstep, andThen_next, hrun]
    · exact ⟨1, u, (runSteps_one s).trans hstep, hhost.trans hh, hend, hinlen, hbound⟩

end Inv

/-! ### Any input buffer (R175) -/

/-- The buffer in canonical form with the same bytes: the first entry of an address counts. -/
def Memory.canonical (m : Memory) : Memory := m.foldr (fun c rest => Memory.write rest c.1 c.2) []

theorem Memory.wf_canonical (m : Memory) : m.canonical.wf := by
  induction m with
  | nil => exact Memory.wf_nil
  | cons c rest ih => exact Memory.wf_write ih c.1 c.2

theorem Memory.read_canonical (m : Memory) (a : Nat) : m.canonical.read a = m.read a := by
  induction m with
  | nil => rfl
  | cons c rest ih =>
    obtain ⟨b, v⟩ := c
    change (Memory.write (Memory.canonical rest) b v).read a = if a = b then some v else Memory.read rest a
    rw [Memory.read_write, ih]

theorem Agree.exists_next {α : Type} {R : α → α → Prop} {a : α} {y : Access α} (h : Agree R (.next a) y) :
    ∃ b, y = .next b ∧ R a b := by
  cases h with
  | next h => exact ⟨_, rfl, h⟩

/-- Twin states run alike (R102). -/
theorem runSteps_tagTwins {s u : State} (h : TagTwins s u) (n : Nat) : Agree TagTwins (runSteps n s) (runSteps n u) := by
  induction n generalizing s u with
  | zero => exact .next h
  | succ n ih =>
    rw [runSteps_succ, runSteps_succ]
    exact (step_tagTwins h).andThen fun _ _ h => ih h

/-- The run from START on a loaded input. The steps read the input's bytes and not how the buffer lists them, so the buffer
may be taken in canonical form, in which the state meets the invariant. -/
theorem exists_end_of_loaded {s : State} {buf : List Byte} (h : Loaded s buf) (hh : s.host = []) :
    ∃ m t, runSteps m (perDecodeInit s) = .next t ∧ t.host = [] ∧ (t.phase = .done ∨ t.phase = .fault) ∧
      t.inlen = s.inlen ∧ m ≤ stepBound t := by
  have hin : InputLoaded (perDecodeInit { s with ibuf := s.ibuf.canonical }) := fun _ a ha => by
    have hread := h.read_eq (h.inlen ▸ ha)
    change (s.ibuf.canonical.read a).isSome
    rw [Memory.read_canonical, hread]
    rfl
  obtain ⟨m, t, hrun, hth, htp, htin, htb⟩ := (Inv.after_perDecodeInit s.ibuf.wf_canonical).exists_end hin hh rfl (2 ^ 41)
    (Nat.le_add_left _ _)
  have htwins : TagTwins (perDecodeInit { s with ibuf := s.ibuf.canonical }) (perDecodeInit s) :=
    ⟨rfl, fun a _ => (Memory.read_canonical s.ibuf a).symm, fun a _ =>
      congrArg Option.isSome (Memory.read_canonical s.ibuf a).symm⟩
  obtain ⟨v, hv, htwin⟩ := (hrun ▸ runSteps_tagTwins htwins m).exists_next
  obtain ⟨tag, ibuf, -, rfl⟩ := tagTwins_iff.1 htwin
  exact ⟨m, _, hv, hth, htp, htin, (Nat.zero_add m).symm.trans_le htb⟩

/-- Settles O55. START opens the decode, and each later step is counted until the end. -/
theorem everyDecodeEndsWithinItsBound : Obligations.EveryDecodeEndsWithinItsBound := by
  rintro s buf explen ⟨hbusy, hinlen, -, hbytes, hhost⟩
  have hstart : step s = .next (perDecodeInit { s with host := [] }) := by
    rw [step_of_writeCtrl hhost]
    exact execStart_eq_next.2 (.inr ⟨hbusy, rfl⟩)
  obtain ⟨m, t, hrun, hth, htp, htin, htb⟩ := exists_end_of_loaded (s := { s with host := [] }) ⟨hinlen, hbytes⟩ rfl
  refine ⟨m + 1, t, countNonzero t.freq, ?_, Nat.succ_pos m, hth, htp, rfl, countNonzero_le _, ?_⟩
  · rw [runSteps_succ, hstart, andThen_next, hrun]
  · have hxlen : t.xlen = buf.length - 4 := by rw [State.xlen, htin]; exact congrArg (· - 4) hinlen
    rw [stepBound, hxlen] at htb
    omega

end Sys2Proof.Machine

/-! PROOF. Stage A as steps, and what the functional view gives (spec files 41_stage_a_mtf.md and 42_stage_b_setup.md). -/

namespace Sys2Proof.Machine

/-! ### Stage A as steps (R110, R114) -/

/-- The state with the parts of Stage B as START leaves them; Stage A neither reads nor writes them. -/
def withStageBCleared (s : State) : State :=
  { s with rl := Table.identity, cs := Table.zero, ce := Table.zero, obuf := [] }

/-- A symbol of Stage A is processed alike whatever the parts of Stage B hold. -/
theorem exists_step_of_cleared {u : State} {buf : List Byte} {explen : BitVec 40} {n : Nat}
    (h : Decoding (withStageBCleared u) buf explen n) (hn : n < buf.length - 4) :
    ∃ t, step u = .next t ∧ Decoding (withStageBCleared t) buf explen (n + 1) := by
  have hn' : 4 + n < buf.length := by omega
  have hlt : u.xp.toNat < u.xlen := by
    have hxp : u.xp.toNat = n := h.xp
    have hxlen : u.xlen = buf.length - 4 := h.xlen_eq
    omega
  have hc : currentSymbol u = .next buf[4 + n] := h.currentSymbol_eq hn'
  obtain ⟨t, hstep, ht⟩ := h.exists_step hn
  have hsymbol : step (withStageBCleared u) = .next (withStageBCleared (afterSymbol u buf[4 + n])) :=
    (step_of_no_move h.host).trans (sequencerStep_symbol (s := withStageBCleared u) h.phase hlt hc)
  obtain rfl := next_inj.1 (hsymbol.symm.trans hstep)
  exact ⟨_, (step_of_no_move (s := u) h.host).trans (sequencerStep_symbol h.phase hlt hc), ht⟩

/-- Settles O51. The steps are those of a decode that START opened, in which Stage A's bytes are collected. -/
theorem stageAStepsComputeStageA : Obligations.StageAStepsComputeStageA := by
  intro s buf hh hp hxp ht hxbuf hlen hinlen hseed hbytes
  have hstart : Decoding (withStageBCleared s) buf s.explen 0 :=
    { inlen := hinlen, bytes := hbytes, host := hh, phase := hp, seed := hseed
      xp := congrArg BitVec.toNat hxp
      emitted := by
        change s.xbuf.Holds _
        rw [hxbuf]
        exact Memory.holds_nil
      rest := by
        change _ = Functional.stageAFrom s.t _
        rw [ht]
        rfl
      explen_eq := rfl, rl := rfl, cs := rfl, ce := rfl, obuf := rfl }
  obtain ⟨t, hrun, hend⟩ := runSteps_of_invariant (P := fun n u => Decoding (withStageBCleared u) buf s.explen n) hstart
    fun _ _ hn hu => exists_step_of_cleared hu hn
  have hall := hend.emitted
  rw [← length_stageA_symbols buf, List.take_length] at hall
  exact ⟨t, hrun, hend.phase, hend.xp.trans hend.xlen_eq.symm, BitVec.eq_of_toNat_eq (hend.inlen.trans hinlen.symm), hall⟩

/-- Settles O47, by induction over the symbols from any rank table. -/
theorem stageAEmitsOneBytePerSymbol : Obligations.StageAEmitsOneBytePerSymbol :=
  fun xs => length_stageAFrom Table.identity xs

/-- Symbols 0 keep emitting the byte at rank 0 (R111). -/
theorem stageAFrom_replicate_zero (t : Table Byte) (n : Nat) :
    Functional.stageAFrom t (List.replicate n 0) = List.replicate n (t.entry 0) := by
  induction n with
  | zero => rfl
  | succ n ih => rw [List.replicate_succ, Functional.stageAFrom, moveToFront_zero, ih, List.replicate_succ]

/-- Settles O46: the seed's symbol brings the seed to rank 0 of the identity list, and the zeros repeat it. -/
theorem allZeroPayloadRepeatsTheSeed : Obligations.AllZeroPayloadRepeatsTheSeed := by
  intro seed n
  rw [Functional.stageA, Functional.stageAFrom, stageAFrom_replicate_zero, entry_moveToFront_zero, Table.entry_identity,
    List.replicate_succ]

/-! ### The length of a result (R134, R178) -/

theorem length_of_expand {x out : List Byte} {n : Nat} {e : Functional.Expansion} (h : Functional.expand x n e = some out) :
    out.length = n := by
  induction n generalizing e out with
  | zero => rw [← Option.some.inj h]; rfl
  | succ n ih =>
    unfold Functional.expand at h
    split at h
    · cases h
    next e' _ =>
      obtain ⟨rest, hrest, rfl⟩ := Option.map_eq_some_iff.1 h
      rw [List.length_cons, ih hrest]

theorem length_of_introduceResult {x xs out : List Byte} {freq : Table (BitVec 32)} {k : Nat} {st : Functional.Intro}
    (h : introduceResult x freq k xs st = .data out) : out.length = Functional.total freq := by
  unfold introduceResult expandResult at h
  cases hi : Functional.introduceAll x freq xs st with
  | none => rw [hi] at h; cases h
  | some st' =>
    rw [hi, Option.elim_some] at h
    generalize he : Functional.expand x _ _ = o at h
    cases o with
    | none => cases h
    | some rest =>
      obtain rfl : rest = out := Functional.Result.data.inj h
      exact length_of_expand he

/-- With an input that holds the header, the decode is Stage B on the intermediate sequence (R171). -/
theorem decodeBuffer_of_header {buf : List Byte} (h : 1028 ≤ buf.length) (n : Nat) :
    Functional.decodeBuffer buf n = Functional.stageB (Functional.stageA (buf.drop 4)) n := by
  have hlen := length_stageA_symbols buf
  have henvelope : ¬buf.length < Config.envelopeBytes := Nat.not_lt.2 (Nat.le_trans (by decide) h)
  have hheader : ¬(Functional.stageA (buf.drop 4)).length < Config.headerBytes :=
    Nat.not_lt.2 (hlen ▸ Nat.le_sub_of_add_le h)
  rw [Functional.decodeBuffer, if_neg henvelope]
  exact if_neg hheader

/-- A shorter input ends in a fault. -/
theorem decodeBuffer_of_short {buf : List Byte} (h : buf.length < 1028) (n : Nat) :
    ∃ c, Functional.decodeBuffer buf n = .fault c := by
  have hlen := length_stageA_symbols buf
  unfold Functional.decodeBuffer
  split
  · exact ⟨_, rfl⟩
  · have hheader : (Functional.stageA (buf.drop 4)).length < Config.headerBytes := by
      rw [hlen, Config.headerBytes]
      omega
    exact ⟨_, if_pos hheader⟩

/-- Settles O48: Stage B ends without data on a mismatch or a zero sum, and otherwise emits one byte per iteration. -/
theorem resultLengthIsTheCounterSum : Obligations.ResultLengthIsTheCounterSum := by
  intro buf out e h
  have hlen : 1028 ≤ buf.length := Nat.not_lt.1 fun hshort => by
    obtain ⟨c, hc⟩ := decodeBuffer_of_short hshort e
    rw [hc] at h
    cases h
  rw [decodeBuffer_of_header hlen] at h
  rw [exactSum_eq_total]
  generalize Functional.stageA (buf.drop 4) = x at h ⊢
  by_cases hend : (e ≠ 0 ∧ e ≠ Functional.total (Functional.counters x)) ∨ Functional.total (Functional.counters x) = 0
  · rw [stageB_of_mismatch hend] at h
    obtain rfl : [] = out := Functional.Result.data.inj h
    refine ⟨fun h0 => ?_, .inl rfl⟩
    obtain ⟨hne, -⟩ | hzero := hend
    · exact absurd h0 hne
    · exact hzero.symm
  · rw [stageB_of_match (by omega) (by omega)] at h
    have hout := length_of_introduceResult h
    exact ⟨fun _ => hout, .inr hout⟩

/-! ### Large sums (D4, D5) -/

/-- When all introductions succeed, every symbol's SLOT byte is inside the sequence (R131). -/
theorem slot_lt_of_introduceAll {x pre post : List Byte} {freq : Table (BitVec 32)} {sym : Byte} {st st' : Functional.Intro}
    (h : Functional.introduceAll x freq (pre ++ sym :: post) st = some st') :
    st.m + counterSum freq pre < x.length := by
  induction pre generalizing st with
  | nil =>
    rw [List.nil_append, Functional.introduceAll] at h
    split at h
    · cases h
    next hx => exact (List.getElem?_eq_some_iff.1 hx).1
  | cons a pre ih =>
    rw [List.cons_append, Functional.introduceAll] at h
    split at h
    · cases h
    next =>
      rw [counterSum_cons, ← Nat.add_assoc]
      exact ih h

theorem counterSum_append (freq : Table (BitVec 32)) (xs ys : List Byte) :
    counterSum freq (xs ++ ys) = counterSum freq xs + counterSum freq ys := by
  rw [counterSum, List.map_append, List.sum_append]
  rfl

theorem counterSum_singleton (freq : Table (BitVec 32)) (sym : Byte) : counterSum freq [sym] = (freq.entry sym).toNat :=
  List.sum_singleton

theorem RanksBefore.le {f : Table (BitVec 32)} {a b : Byte} (h : RanksBefore f a b) :
    (f.entry b).toNat ≤ (f.entry a).toNat := by
  obtain hlt | ⟨heq, -⟩ := h
  · exact Nat.le_of_lt hlt
  · rw [heq]

/-- The last ranked symbol has the smallest counter, so with a sum of 2^32 or more the other counters, each below 2^32, sum to
2^31 or more (D5). -/
theorem half_le_counterSum {f : Table (BitVec 32)} {pre : List Byte} {last : Byte} (h : Scans f (pre ++ [last]))
    (hsum : 2 ^ 32 ≤ Functional.total f) : 2 ^ 31 ≤ counterSum f pre := by
  have htotal := h.counterSum_eq
  rw [counterSum_append, counterSum_singleton] at htotal
  obtain ⟨-, -, hbefore⟩ := List.pairwise_append.1 h.pairwise
  have hlast := (f.entry last).isLt
  cases pre with
  | nil =>
    have hnil : counterSum f [] = 0 := rfl
    omega
  | cons a pre =>
    have hle := (hbefore a List.mem_cons_self last List.mem_cons_self).le
    rw [counterSum_cons] at htotal ⊢
    omega

/-- A sum of 2^32 or more puts the last SLOT byte beyond an intermediate sequence of at most 2^31 + 1023 bytes (D5). -/
theorem introduceAll_of_large_sum {x xs : List Byte} {f : Table (BitVec 32)} (h : Scans f xs) (hx : x.length ≤ 2 ^ 31 + 1023)
    (hsum : 2 ^ 32 ≤ Functional.total f) : Functional.introduceAll x f xs Functional.introStart = none := by
  cases hi : Functional.introduceAll x f xs Functional.introStart with
  | none => rfl
  | some st =>
    obtain rfl | ⟨pre, last, rfl⟩ := List.eq_nil_or_concat' xs
    · have htotal : 0 = Functional.total f := h.counterSum_eq
      omega
    · have hslot := slot_lt_of_introduceAll hi
      have hstart : Functional.introStart.m = 1024 := rfl
      have hhalf := half_le_counterSum h hsum
      omega

/-- Settles O56: the sum passes the length check or gives the empty mismatch, and then the last introduction fails. -/
theorem largeSumsGiveNoOutput : Obligations.LargeSumsGiveNoOutput := by
  refine ⟨⟨Config.five_le_maxInlen, Config.maxInlen_le⟩, ?_⟩
  intro buf e sum hlen hmax hsum hlarge
  have hx := length_stageA_symbols buf
  rw [exactSum_eq_total] at hsum
  rw [decodeBuffer_of_header hlen]
  generalize Functional.stageA (buf.drop 4) = x at hsum hx ⊢
  by_cases hmis : e ≠ 0 ∧ e ≠ sum
  · rw [if_pos hmis, stageB_of_mismatch (.inl (hsum ▸ hmis))]
  · rw [if_neg hmis, stageB_of_match (by omega) (by omega), introduceResult,
      introduceAll_of_large_sum (scans_ranked _) (by omega) (hsum ▸ hlarge)]
    rfl

end Sys2Proof.Machine

/-! PROOF. The count identity of the expansion (spec file 43_stage_b_expand.md section 4). -/

namespace Sys2Proof.Machine

open Sys2Proof.Claims

/-! ### The cursor bytes not yet consumed -/

/-- The cursor bytes that lie between the starts and the ends. -/
def pendingBytes (cs ce : Table (BitVec 41)) : Nat := ∑ b : Byte, ((ce.entry b).toNat - (cs.entry b).toNat)

theorem sum_range_eq_sum_bytes (g : Byte → Nat) :
    ((List.range 256).map fun n => g (BitVec.ofNat 8 n)).sum = ∑ b : Byte, g b := by
  change ∑ n ∈ Finset.range 256, g (BitVec.ofNat 8 n) = _
  refine Finset.sum_nbij' (BitVec.ofNat 8) BitVec.toNat (fun _ _ => Finset.mem_univ _)
    (fun b _ => Finset.mem_range.2 b.isLt) (fun n hn => ?_) (fun b _ => ?_) fun _ _ => rfl
  · exact Nat.mod_eq_of_lt (Finset.mem_range.1 hn)
  · rw [BitVec.ofNat_toNat, BitVec.setWidth_eq]

theorem countIdentity_iff {s : State} : CountIdentity s ↔
    (0 < s.k.toNat → s.op.toNat + pendingBytes s.cs s.ce + s.k.toNat = s.total.toNat) ∧
      (s.k.toNat = 0 → valExhausted s = true) := by
  rw [CountIdentity, pendingBytes,
    ← sum_range_eq_sum_bytes fun b => (s.ce.entry b).toNat - (s.cs.entry b).toNat]

theorem le_pendingBytes (cs ce : Table (BitVec 41)) (b : Byte) :
    (ce.entry b).toNat - (cs.entry b).toNat ≤ pendingBytes cs ce :=
  Finset.single_le_sum (f := fun b => (ce.entry b).toNat - (cs.entry b).toNat) (fun _ _ => Nat.zero_le _)
    (Finset.mem_univ b)

/-- Advancing a cursor that is before its end consumes one byte. -/
theorem pendingBytes_advance {cs ce : Table (BitVec 41)} {b : Byte} (h : (cs.entry b).toNat < (ce.entry b).toNat) :
    pendingBytes (cs.setEntry b (cs.entry b + 1)) ce + 1 = pendingBytes cs ce := by
  have hothers : ∑ c ∈ Finset.univ.erase b, ((ce.entry c).toNat - ((cs.setEntry b (cs.entry b + 1)).entry c).toNat)
      = ∑ c ∈ Finset.univ.erase b, ((ce.entry c).toNat - (cs.entry c).toNat) :=
    Finset.sum_congr rfl fun c hc => by rw [Table.entry_setEntry_other _ _ (Finset.ne_of_mem_erase hc)]
  rw [pendingBytes, pendingBytes, ← Finset.add_sum_erase _ _ (Finset.mem_univ b),
    ← Finset.add_sum_erase _ (fun c => (ce.entry c).toNat - (cs.entry c).toNat) (Finset.mem_univ b), hothers,
    Table.entry_setEntry_same, cursor_succ_toNat h]
  omega

/-! ### The expansion keeps the identity -/

theorem CountIdentity.after_retire {s t : State} (h : CountIdentity s) (hx : valExhausted s = true)
    (he : execExpRetire s = .next t) : CountIdentity t := by
  obtain ⟨hcount, -⟩ := countIdentity_iff.1 h
  obtain ⟨hop, ⟨-, rfl⟩ | ⟨count, -, hk, rfl⟩⟩ := execExpRetire_eq_next.1 he
  · exact countIdentity_iff.2 ⟨fun hpos => absurd hpos (Nat.lt_irrefl 0), fun _ => hx⟩
  · have hpred : (s.k - 1).toNat + 1 = s.k.toNat := by bv_omega
    have hnext := op_succ hop
    refine countIdentity_iff.2 ⟨fun _ => ?_, fun hzero => ?_⟩
    · change (s.op + 1).toNat + pendingBytes s.cs s.ce + (s.k - 1).toNat = s.total.toNat
      omega
    · have hzero' : (s.k - 1).toNat = 0 := hzero
      omega

/-- EXP.STAY and EXP.DEMOTE exchange one cursor byte for one output byte; K is not 0, since VAL is not exhausted. -/
theorem CountIdentity.after_cursor {s : State} (h : CountIdentity s) (hx : valExhausted s = false)
    (hop : s.op.toNat < s.total.toNat) (rl : Table Byte) (val : Byte) :
    CountIdentity { s with obuf := s.obuf.write s.op.toNat s.val, op := s.op + 1
                           cs := s.cs.setEntry s.val (s.cs.entry s.val + 1), rl := rl, val := val } := by
  obtain ⟨hcount, hend⟩ := countIdentity_iff.1 h
  have hk : 0 < s.k.toNat := Nat.pos_of_ne_zero fun hzero => by
    rw [hend hzero] at hx
    cases hx
  have hpending := pendingBytes_advance (valExhausted_eq_false hx)
  have hnext := op_succ hop
  have htotal := hcount hk
  refine countIdentity_iff.2 ⟨fun _ => ?_, fun hzero => absurd hzero (Nat.ne_of_gt hk)⟩
  change (s.op + 1).toNat + pendingBytes (s.cs.setEntry s.val (s.cs.entry s.val + 1)) s.ce + s.k.toNat = s.total.toNat
  omega

theorem CountIdentity.after_step {s t : State} (h : CountIdentity s) (hh : s.host = []) (hp : s.phase = .bExpand)
    (hstep : step s = .next t) (ht : t.phase = .bExpand) : CountIdentity t := by
  obtain ⟨-, hx⟩ | ⟨hv, hx⟩ | ⟨hv, ⟨-, rfl⟩ | hx | ⟨idx, hx⟩⟩ := expansion_cases hh hp hstep
  · rw [execExpDone_eq_next.1 hx] at ht
    cases ht
  · exact h.after_retire hv hx
  · cases ht
  · obtain ⟨hop, rfl⟩ := execExpStay_eq_next.1 hx
    exact h.after_cursor hv hop _ _
  · obtain ⟨hop, rfl⟩ := execExpDemote_eq_next.1 hx
    exact h.after_cursor hv hop _ _

/-! ### The introductions establish it -/

theorem windowSum_eq_sum (freq : Table (BitVec 32)) (order : Table Byte) (n : Nat) :
    windowSum freq order n = ∑ j ∈ Finset.range n, (freq.entry (order.entry (BitVec.ofNat 8 j))).toNat := by
  induction n with
  | zero => rfl
  | succ n ih => rw [windowSum_succ, ih, Finset.sum_range_succ]

theorem ranked_injOn {s : State} (h : RankedWithSlots s) :
    Set.InjOn (fun n => s.order.entry (BitVec.ofNat 8 n)) (Finset.range s.k.toNat) := by
  intro m hm n hn hmn
  rw [Finset.coe_range, Set.mem_Iio] at hm hn
  obtain hlt | heq | hgt := Nat.lt_trichotomy m n
  · exact absurd hmn (h.distinct m n hlt hn)
  · exact heq
  · exact absurd hmn.symm (h.distinct n m hgt hm)

/-- After the introductions each ranked symbol has its counter less one in cursor bytes, and no other symbol has any
(R133). -/
theorem Introduced.pendingBytes_eq {s u : State} (hs : RankedWithSlots s) (hcs : s.cs = Table.zero)
    (hce : s.ce = Table.zero) (h : Introduced s s.k.toNat u) : pendingBytes u.cs u.ce + s.k.toNat = s.total.toNat := by
  have hpending : pendingBytes u.cs u.ce
      = ∑ n ∈ Finset.range s.k.toNat, ((s.freq.entry (s.order.entry (BitVec.ofNat 8 n))).toNat - 1) := by
    rw [pendingBytes, ← Finset.sum_subset (Finset.subset_univ
      ((Finset.range s.k.toNat).image fun n => s.order.entry (BitVec.ofNat 8 n))), Finset.sum_image (ranked_injOn hs)]
    · refine Finset.sum_congr rfl fun n hn => ?_
      have hn := Finset.mem_range.1 hn
      rw [h.start n hn, h.stop n hn, windowSum_succ]
      omega
    · intro b _ hb
      have hne : ∀ j, j < s.k.toNat → s.order.entry (BitVec.ofNat 8 j) ≠ b := fun j hj e =>
        hb (Finset.mem_image.2 ⟨j, Finset.mem_range.2 hj, e⟩)
      obtain ⟨hstart, hstop⟩ := h.others b hne
      rw [hstart, hstop, hcs, hce, Table.entry_zero, Nat.sub_self]
  have hones : s.k.toNat = ∑ _n ∈ Finset.range s.k.toNat, 1 := by
    rw [Finset.sum_const, Finset.card_range, smul_eq_mul, Nat.mul_one]
  rw [hs.total, windowSum_eq_sum, hpending]
  conv_lhs => rhs; rw [hones]
  rw [← Finset.sum_add_distrib]
  refine Finset.sum_congr rfl fun n hn => ?_
  have hsome := hs.nonzero n (Finset.mem_range.1 hn)
  bv_omega

/-- Settles O43. Before any output, the windows less their first bytes are what is pending; each step of the expansion moves
one from K or from the pending bytes to OP. -/
theorem countIdentityIsKept : Obligations.CountIdentityIsKept := by
  refine ⟨fun s hs hcs hce => ?_, fun s t hh hp h hstep ht => h.after_step hh hp hstep ht⟩
  obtain ⟨u, hrun, hu⟩ := runSteps_introductions hs
  have henter := step_bBuild_enter (hu.host_eq hs) (hu.phase_eq hs) (by rw [hu.k_eq, hu.index])
  refine ⟨_, (runSteps_add hrun 1).trans ((runSteps_one u).trans henter), rfl,
    countIdentity_iff.2 ⟨fun _ => ?_, fun hk => ?_⟩⟩
  · have hpending := hu.pendingBytes_eq hs hcs hce
    have htotal : u.total = s.total := by rw [hu.frame]
    change 0 + pendingBytes u.cs u.ce + u.k.toNat = u.total.toNat
    rw [hu.k_eq, htotal, Nat.zero_add, hpending]
  · have hk : s.k.toNat = 0 := (congrArg BitVec.toNat hu.k_eq).symm.trans hk
    obtain ⟨hstart, hstop⟩ := hu.others (u.rl.entry 0) fun j hj => absurd (hk ▸ hj) (Nat.not_lt_zero j)
    refine valExhausted_iff.2 ?_
    change (u.ce.entry (u.rl.entry 0)).toNat ≤ (u.cs.entry (u.rl.entry 0)).toNat
    rw [hstart, hstop, hcs, hce]

/-- Settles O44. With one output byte due and K > 0 the identity leaves K = 1 and no cursor byte. -/
theorem lastIterationRetires : Obligations.LastIterationRetires := by
  intro s hh hp h hlast
  obtain ⟨hcount, hend⟩ := countIdentity_iff.1 h
  have hexhausted : exhausted s = true := by
    refine exhausted_iff.2 ⟨eMore_iff.2 (by omega), ?_⟩
    obtain hk | hk := Nat.eq_zero_or_pos s.k.toNat
    · exact valExhausted_iff.1 (hend hk)
    · have hval := le_pendingBytes s.cs s.ce s.val
      have htotal := hcount hk
      omega
  obtain ⟨-, -, hretire, -⟩ := cursorFetchFaultsInsteadOfDispatching s hh hp
  exact ⟨hexhausted, hretire hexhausted⟩

end Sys2Proof.Machine

/-! PROOF. Single operations: what each answers, where it stops, and what the host reads (spec files 10_state.md,
42_stage_b_setup.md, 43_stage_b_expand.md and 60_exceptions.md). -/

namespace Sys2Proof.Machine

/-! ### Bytes in one word -/

/-- The value of two words joined: the first is the more significant. -/
theorem toNat_append_eq_add {m n : Nat} (x : BitVec m) (y : BitVec n) : (x ++ y).toNat = 2 ^ n * x.toNat + y.toNat := by
  rw [BitVec.toNat_append, ← Nat.shiftLeft_add_eq_or_of_lt y.isLt, Nat.shiftLeft_eq, Nat.mul_comm]

theorem le32_toNat (b0 b1 b2 b3 : Byte) :
    (le32 b0 b1 b2 b3).toNat = b0.toNat + 256 * b1.toNat + 65536 * b2.toNat + 16777216 * b3.toNat := by
  rw [le32, toNat_append_eq_add, toNat_append_eq_add, toNat_append_eq_add]
  omega

/-! ### The operations of Stage B (R126 to R132, R152, R155) -/

/-- Settles O12: the counter's bytes are read one by one, and its value is that of the four bytes joined. -/
theorem cntLdLoadsALittleEndianCounter : Obligations.CntLdLoadsALittleEndianCounter := by
  refine ⟨selectedBy_of_mem_rows (by simp [rows]) rfl, fun s b0 b1 b2 b3 hj hlen h0 h1 h2 h3 => ?_⟩
  have hcounter : readCounter s = .next (le32 b0 b1 b2 b3) :=
    readXbuf32_eq_next.2 ⟨hlen, b0, b1, b2, b3, h0, h1, h2, h3, rfl⟩
  have hlast : s.j.toNat = 255 ↔ s.j + 1 = 256 := by bv_omega
  refine ⟨le32 b0 b1 b2 b3, le32_toNat b0 b1 b2 b3, ?_⟩
  simp only [hlast]
  exact execCntLd_eq_next.2 ⟨_, _, tableIndex_of_lt hj, hcounter, rfl⟩

/-- Settles O14: the scan's three properties, and the state `afterSelect`. -/
theorem rankSelPicksTheLargestCounter : Obligations.RankSelPicksTheLargestCounter := by
  refine ⟨selectedBy_of_mem_rows (by simp [rows]) rfl, fun s hk ⟨b, hb⟩ => ⟨selectSymbol s.rem, ?_⟩⟩
  refine ⟨entry_selectSymbol_ne_zero hb, fun c => ?_, fun c hc => ?_, ?_⟩
  · exact entry_selectSymbol s.rem ▸ entry_le_maxCounter s.rem c
  · exact entry_selectSymbol s.rem ▸ lt_maxCounter_of_lt_selectSymbol s.rem c hc
  · exact execRankSel_eq_next.2 ⟨_, tableIndex_of_lt hk, rfl⟩

/-- Settles O15: the three have no condition under which they stop. -/
theorem phaseOpenersAndExpDone : Obligations.PhaseOpenersAndExpDone :=
  ⟨selectedBy_of_mem_rows (by simp [rows]) rfl, selectedBy_of_mem_rows (by simp [rows]) rfl,
    selectedBy_of_mem_rows (by simp [rows]) rfl, fun _ => ⟨execRankEnd_eq_next.2 rfl, execExpEnter_eq_next.2 rfl,
      execExpDone_eq_next.2 rfl⟩⟩

/-- Settles O17: with K ≥ 2 the shift is SHL of the decremented K, whose front is the entry at position 1. -/
theorem retireEmitsAndShifts : Obligations.RetireEmitsAndShifts := by
  refine ⟨selectedBy_of_mem_rows (by simp [rows]) rfl, fun s hop => ⟨fun hk => ?_, fun hk hk256 => ?_⟩⟩
  · exact execExpRetire_eq_next.2 ⟨hop, .inl ⟨hk, rfl⟩⟩
  · have hpred : (s.k - 1).toNat = s.k.toNat - 1 := by bv_omega
    have hcount : tableIndex (s.k - 1) = some (BitVec.ofNat 8 (s.k - 1).toNat) := tableIndex_of_lt (by omega)
    generalize hm : BitVec.ofNat 8 (s.k - 1).toNat = m at hcount
    have hm : m.toNat + 1 = s.k.toNat := by
      rw [← hm, BitVec.toNat_ofNat]
      omega
    have hlt : ∀ p : Byte, p < m ↔ p.toNat + 1 < s.k.toNat := fun p => by rw [BitVec.lt_def]; omega
    have hfront : (shl s.rl m).entry 0 = s.rl.entry 1 := by
      rw [entry_shl, if_pos ((hlt 0).2 hk)]
      rfl
    refine ⟨shl s.rl m, ?_, fun p => ?_⟩
    · rw [← hfront]
      exact execExpRetire_eq_next.2 ⟨hop, .inr ⟨m, hcount, hk, rfl⟩⟩
    · rw [entry_shl]
      simp only [hlt]

/-! ### Accesses without a rule (R58, R62) -/

theorem emitIntermediate_outside {s : State} (h : s.xlen ≤ s.xp.toNat) (v : Byte) :
    emitIntermediate v s = .fault .outsideXbuf := if_neg (Nat.not_lt.2 h)

theorem emitOutput_outside {s : State} (h : s.total.toNat ≤ s.op.toNat) (v : Byte) :
    emitOutput v s = .fault .outsideObuf := if_neg (Nat.not_lt.2 h)

theorem readCounter_outside {s : State} (h : s.xlen ≤ 4 * s.j.toNat) : readCounter s = .fault .outsideXbuf := by
  have hread : readXbuf s (4 * s.j.toNat) = .fault .outsideXbuf := if_neg (Nat.not_lt.2 h)
  rw [readCounter, readXbuf32, hread, andThen_fault]

/-- Settles O38: each stop comes from the first access of its operation. -/
theorem undefinedAccessesStopByName : Obligations.UndefinedAccessesStopByName := by
  refine fun s => ⟨fun h => ⟨emitIntermediate_outside (s := { s with t := s.t.setEntry 0 (s.t.entry 0) }) h _,
    fun c => emitIntermediate_outside (s := { s with t := moveToFront s.t c }) h _⟩,
    fun hj h => ?_, fun h => ?_, fun h => ?_, fun h => ?_, fun h => ⟨?_, ?_, fun idx => ?_⟩⟩
  · rw [exec, execCntLd, tableIndex_of_lt hj]
    dsimp only
    rw [readCounter_outside h, andThen_fault]
  · rw [exec, execCntLd, tableIndex_eq_none.2 h]
  · rw [exec, execRankSel, tableIndex_eq_none.2 h]
  · rw [exec, execIntroduce, tableIndex_eq_none.2 h]
  · rw [exec, execExpRetire, emitOutput_outside h, andThen_fault]
  · rw [exec, execExpStay, emitOutput_outside h, andThen_fault]
  · rw [exec, execExpDemote, emitOutput_outside h, andThen_fault]

/-! ### START, reset and fault entry (R20, R59, R100, R195) -/

/-- Settles O50: `perDecodeInit` sets every field but the four that agree. -/
theorem startForgetsTheLastDecode : Obligations.StartForgetsTheLastDecode := by
  intro s u hs hu hhost hinlen hexplen hibuf
  have hinit : perDecodeInit s = perDecodeInit u := by
    simp only [perDecodeInit, hhost, hinlen, hexplen, hibuf]
  rw [exec, exec, execStart_eq_next.2 (.inr ⟨hs, rfl⟩), execStart_eq_next.2 (.inr ⟨hu, rfl⟩), hinit]

/-- Settles O35: the values stand in `State.reset`, and STATUS is made of STATE and CAUSE. -/
theorem resetValuesOfTheSpec : Obligations.ResetValuesOfTheSpec :=
  ⟨rfl, hardwareReset_statusWord State.reset, rfl, rfl, rfl⟩

/-- STATUS in FAULT has the cause in bits 7:4 (R195). -/
theorem raiseTruncated_statusWord (c : Cause) (s : State) :
    (raiseTruncated c s).statusWord = ((c.code.setWidth 8) <<< 4) ||| 3 := by
  change c.code ++ 0#2 ++ RunState.fault.code = _
  cases c <;> decide

/-- Settles O24: STATE is FAULT, in which the host's window on OBUF is shut. -/
theorem faultEntryKeepsTheRest : Obligations.FaultEntryKeepsTheRest :=
  fun c s => ⟨rfl, raiseTruncated_statusWord c s, fun _ => if_neg fun h => nomatch h.1⟩

/-! ### What the host reads (R50, R52, R56, R73) -/

theorem statusWord_toNat (s : State) : s.statusWord.toNat = 16 * s.cause.code.toNat + s.state.code.toNat := by
  rw [State.statusWord, toNat_append_eq_add, toNat_append_eq_add]
  change 4 * (4 * s.cause.code.toNat + 0) + s.state.code.toNat = _
  omega

theorem hostReadObuf_refused {s : State} {a : Nat} (h : ¬(s.state = .done ∧ a < s.olen.toNat)) :
    hostReadObuf a s = .refused .hostReadWindow := if_neg h

/-- Settles O33. While not BUSY each register's read is in its window; while BUSY all but that of STATUS are outside. -/
theorem hostReadsWithinTheirWindows : Obligations.HostReadsWithinTheirWindows := by
  refine fun s => ⟨⟨statusWord_toNat s, rfl⟩, fun hb => ?_, fun hb r hr => ?_, fun a b hd ha hread => ?_,
    fun a _ ha => hostReadObuf_refused fun h => absurd h.2 (Nat.not_lt.2 ha),
    fun a hd => hostReadObuf_refused fun h => hd h.1⟩
  · refine ⟨if_neg hb, if_neg hb, if_neg hb, if_neg hb, _, if_neg hb, ?_⟩
    rw [BitVec.toNat_setWidth_of_le (by decide)]
    exact le32_toNat _ _ _ _
  · cases r
    case status => exact absurd rfl hr
    all_goals exact if_pos hb
  · rw [hostReadObuf, if_pos ⟨hd, ha⟩, hread]

end Sys2Proof.Machine

/-! PROOF. The step: the dispatch byte, the operation that runs, the host's moves and the boot sequence (spec files
10_state.md, 30_encoding.md and 70_reset_and_hazards.md). -/

namespace Sys2Proof.Machine

/-! ### The dispatch byte (R87) -/

/-- Settles O6: the three sources by phase and flag, and 0 in each of the other cases. -/
theorem dispatchByteSources : Obligations.DispatchByteSources := by
  refine fun s => ⟨fun hp hm hxp => ?_, fun c hp hm hxp hread => ?_, fun c hp hm hx hin hread => ?_, fun hA hE => ?_⟩
  · rw [dispatchByte, hp]
    dsimp only
    rw [if_pos hm, currentSymbol, if_pos hxp, andThen_next]
  · have haddr : 4 + s.xp.toNat < s.inlen.toNat := Nat.add_comm 4 _ ▸ lt_xlen_iff.1 (aMore_iff.1 hm)
    rw [dispatchByte, hp]
    dsimp only
    rw [if_pos hm, currentSymbol, if_neg hxp, readIbuf_eq_next.2 ⟨haddr, hread⟩, andThen_next]
  · rw [exhausted_of_eMore hm] at hx
    rw [dispatchByte, hp]
    dsimp only
    rw [hm, hx, readCursor, if_neg (Nat.not_le.2 hin), readXbuf_eq_next.2 ⟨hin, hread⟩]
    rfl
  · unfold dispatchByte
    split
    next hp => exact if_neg fun hm => hA ⟨hp, hm⟩
    next hp =>
      refine if_neg fun hm => ?_
      rw [Bool.and_eq_true, Bool.not_eq_true'] at hm
      exact hE ⟨hp, hm.1, (exhausted_of_eMore hm.1).trans hm.2⟩
    all_goals rfl

/-! ### The operation that a step runs (R32, R51) -/

theorem step_of_move {s : State} {e : HostEvent} {rest : List HostEvent} (h : s.host = e :: rest) :
    step s = takeTurn (hostTurn e { s with host := rest }) := by
  have hturn : nextTurn s = hostTurn e { s with host := rest } := by unfold nextTurn; rw [h]
  rw [step, hturn]

/-- Settles O28: the turn is the sequencer's, or the command of the CTRL write. -/
theorem stepRunsTheDecodedOperation : Obligations.StepRunsTheDecodedOperation := by
  refine ⟨fun s b i hh hq hb hd => ?_, fun s rest b i hh hq hb hd => ?_, fun s rest data i hh hd => ?_⟩
  · rw [step_of_no_move hh, sequencerStep_of_decode hq hb hd]
  · rw [step_of_wait hh]
    exact sequencerStep_of_decode (s := { s with host := rest }) hq hb hd
  · rw [step_of_move hh, hostTurn, hd]
    rfl

/-- Settles O29: without a host move the turn is the sequencer's, which has no step here. -/
theorem quiescentPhaseChangesNothing : Obligations.QuiescentPhaseChangesNothing := by
  intro s hh hq
  rw [step_of_no_move hh, sequencerStep_quiescent hq]

/-! ### The host's writes (R53, R54, R73) -/

theorem step_writeInlen {s : State} {v : BitVec 32} {rest : List HostEvent} (h : s.host = .writeInlen v :: rest)
    (hb : s.state ≠ .busy) (hv : v.toNat ≤ Config.maxInlen) : step s = .next { s with host := rest, inlen := v } := by
  rw [step_of_move h]
  exact hostWriteInlen_eq_next.2 (.inr ⟨hb, hv, rfl⟩)

theorem step_writeExplen {s : State} {v : BitVec 40} {rest : List HostEvent} (h : s.host = .writeExplen v :: rest)
    (hb : s.state ≠ .busy) : step s = .next { s with host := rest, explen := v } := by
  rw [step_of_move h]
  exact hostWriteExplen_eq_next.2 (.inr ⟨hb, rfl⟩)

theorem step_writeIbuf {s : State} {a : BitVec 32} {b : Byte} {rest : List HostEvent} (h : s.host = .writeIbuf a b :: rest)
    (hb : s.state ≠ .busy) (ha : a.toNat < Config.maxInlen) :
    step s = .next { s with host := rest, ibuf := s.ibuf.write a.toNat b } := by
  rw [step_of_move h]
  exact hostWriteIbuf_eq_next.2 ⟨hb, ha, rfl⟩

/-- Settles O32. While BUSY the writes of the registers answer the state as it was, and that of IBUF is refused. -/
theorem hostWritesOnlyWhileNotBusy : Obligations.HostWritesOnlyWhileNotBusy := by
  refine fun s rest => ⟨fun v h hb hv => step_writeInlen h hb hv, fun v h hb => ?_, fun v h hb => step_writeExplen h hb,
    fun v h hb => ?_, fun a b h hb ha => ⟨_, step_writeIbuf h hb ha, rfl, ?_, fun c hc => ?_⟩, fun a b h hb => ?_⟩
  · rw [step_of_move h]
    exact hostWriteInlen_eq_next.2 (.inl ⟨hb, rfl⟩)
  · rw [step_of_move h]
    exact hostWriteExplen_eq_next.2 (.inl ⟨hb, rfl⟩)
  · exact Memory.read_write_same _ _ _
  · exact Memory.read_write_other _ _ hc
  · rw [step_of_move h]
    exact if_pos hb

/-! ### The boot sequence (R175, R218) -/

/-- A buffer with a list of bytes stored from an address on. -/
def Memory.load (m : Memory) (k : Nat) : List Byte → Memory
  | [] => m
  | b :: bs => Memory.load (m.write k b) (k + 1) bs

theorem Memory.read_load_of_lt (m : Memory) {k a : Nat} (h : a < k) (bs : List Byte) : (m.load k bs).read a = m.read a := by
  induction bs generalizing m k with
  | nil => rfl
  | cons b bs ih => rw [Memory.load, ih _ (Nat.lt_succ_of_lt h), Memory.read_write_other _ _ (Nat.ne_of_lt h)]

theorem Memory.read_load (m : Memory) (k : Nat) {n : Nat} {bs : List Byte} (hn : n < bs.length) :
    (m.load k bs).read (k + n) = bs[n]? := by
  induction bs generalizing m k n with
  | nil => exact absurd hn (Nat.not_lt_zero n)
  | cons b bs ih =>
    rw [Memory.load]
    cases n with
    | zero => exact (Memory.read_load_of_lt _ (Nat.lt_succ_self k) bs).trans (Memory.read_write_same _ _ _)
    | succ n =>
      rw [List.getElem?_cons_succ, ← ih (m.write k b) (k + 1) (Nat.lt_of_succ_lt_succ hn), Nat.add_assoc, Nat.add_comm 1 n]

/-- The host's writes of consecutive IBUF bytes. -/
def ibufMoves (k : Nat) (bs : List Byte) : List HostEvent :=
  (bs.zipIdx k).map fun p => .writeIbuf (BitVec.ofNat 32 p.2) p.1

theorem toNat_of_le_maxInlen {n : Nat} (h : n ≤ Config.maxInlen) : (BitVec.ofNat 32 n).toNat = n :=
  Nat.mod_eq_of_lt (h.trans_lt Config.maxInlen_lt)

/-- The writes of IBUF take one step each. -/
theorem runSteps_ibufMoves {s : State} {bs : List Byte} {k : Nat} {rest : List HostEvent} (hb : s.state ≠ .busy)
    (hlen : k + bs.length ≤ Config.maxInlen) (hh : s.host = ibufMoves k bs ++ rest) :
    runSteps bs.length s = .next { s with host := rest, ibuf := s.ibuf.load k bs } := by
  induction bs generalizing s k with
  | nil =>
    obtain rfl : s.host = rest := hh
    rfl
  | cons b bs ih =>
    rw [List.length_cons] at hlen
    have hk := toNat_of_le_maxInlen (n := k) (by omega)
    have hhead : s.host = .writeIbuf (BitVec.ofNat 32 k) b :: (ibufMoves (k + 1) bs ++ rest) := hh
    have hstep := step_writeIbuf hhead hb (by rw [hk]; omega)
    rw [hk] at hstep
    have hrest := ih (s := { s with host := ibufMoves (k + 1) bs ++ rest, ibuf := s.ibuf.write k b }) hb
      (by omega : k + 1 + bs.length ≤ Config.maxInlen) rfl
    rw [List.length_cons, runSteps_succ, hstep, andThen_next, hrest]
    rfl

theorem runSteps_two {s u t : State} (hs : step s = .next u) (hu : step u = .next t) : runSteps 2 s = .next t :=
  (runSteps_add ((runSteps_one s).trans hs) 1).trans ((runSteps_one u).trans hu)

/-- Settles O36: the bytes of the input in order, then the two registers. -/
theorem bootSequenceLoadsTheInput : Obligations.BootSequenceLoadsTheInput := by
  intro s buf explen hb hlen hh
  have hlen' := toNat_of_le_maxInlen hlen
  have hload := runSteps_ibufMoves (k := 0) hb ((Nat.zero_add _).trans_le hlen) hh
  refine ⟨{ s with host := [.writeCtrl 0x01], ibuf := s.ibuf.load 0 buf, inlen := BitVec.ofNat 32 buf.length
                   explen := explen }, ?_, hb, hlen', rfl, fun a ha => ?_, rfl⟩
  · exact (runSteps_add hload 2).trans (runSteps_two
      (step_writeInlen rfl hb (hlen'.trans_le hlen)) (step_writeExplen rfl hb))
  · have hread := s.ibuf.read_load 0 ha
    rwa [Nat.zero_add] at hread

/-! ### Placing the machine before an operation (log entry 7) -/

theorem decodeTableWord_eq_some {nbits w : Nat} {i : Instr} (h : decodeTableWord nbits w = some i) :
    decodeCtrl (BitVec.ofNat 8 w) = .ok i ∨ ∃ d, decodeDispatch d = .ok i := by
  have hok : ∀ {x : Except Reject Instr}, x.toOption = some i → x = .ok i := fun {x} hx => by
    cases x with
    | ok j => exact congrArg Except.ok (Option.some.inj hx)
    | error e => cases hx
  unfold decodeTableWord at h
  split at h
  · split at h
    · exact .inl (hok h)
    · cases h
  · split at h
    · split at h
      · exact .inr ⟨_, hok h⟩
      · cases h
    · cases h

theorem eq_start_of_decodeCtrl {data : Byte} {i : Instr} (h : decodeCtrl data = .ok i) : i = .start := by
  rw [decodeCtrl_eq] at h
  split at h
  · exact (Except.ok.inj h).symm
  · cases h

/-- The turn of a state placed for EXP.STAY or EXP.DEMOTE: VAL's cursor is at the first byte of XBUF and not at its end. -/
theorem sequencerStep_of_first_byte {u : State} {b : Byte} (hp : u.phase = .bExpand) (hm : eMore u = true)
    (hcs : u.cs.entry u.val = 0) (hce : u.ce.entry u.val = 1) (hlen : 0 < u.xlen) (hb : u.xbuf.read 0 = some b) :
    sequencerStep u = if b = 0 then execExpStay u else execExpDemote b u := by
  have hx : valExhausted u = false := Bool.eq_false_iff.2 fun hx => by
    rw [valExhausted_iff, hcs, hce] at hx
    exact absurd hx (by decide)
  have haddr : (u.cs.entry u.val).toNat = 0 := congrArg BitVec.toNat hcs
  rw [sequencerStep_bExpand_cursor hp hm hx, haddr, if_neg (Nat.not_le.2 hlen), readXbuf_eq_next.2 ⟨hlen, hb⟩, andThen_next]

/-- Where an operation is placed, the sequencer's turn runs it. -/
theorem sequencerStep_placeOperation {i : Instr} (hwf : i.wellFormed = true) (hstart : i ≠ .start) (s : State) :
    sequencerStep (placeOperation i s) = exec i (placeOperation i s) := by
  cases i with
  | start => exact absurd rfl hstart
  | hdrRd => exact sequencerStep_hdr rfl
  | mtfaKeep => exact sequencerStep_aRun_symbol (s := placeOperation .mtfaKeep s) rfl rfl
  | mtfaMove c =>
    refine (sequencerStep_aRun_symbol (s := placeOperation (.mtfaMove c) s) rfl rfl).trans ?_
    exact if_neg (bne_iff_ne.1 hwf)
  | aEnd => exact sequencerStep_aRun_end rfl rfl
  | cntLd => exact sequencerStep_bParse rfl
  | lenChk => exact sequencerStep_bSum rfl
  | rankSel =>
    refine sequencerStep_bRank_sel rfl (anyRemaining_iff.2 ⟨0, ?_⟩)
    change (s.rem.setEntry 0 1).entry 0 ≠ 0
    rw [Table.entry_setEntry_same]
    decide
  | rankEnd =>
    refine sequencerStep_bRank_end rfl (Bool.eq_false_iff.2 fun hany => ?_)
    obtain ⟨b, hb⟩ := anyRemaining_iff.1 hany
    exact hb (Table.entry_zero b)
  | introduce => exact sequencerStep_bBuild_intro rfl rfl
  | expEnter => exact sequencerStep_bBuild_enter rfl rfl
  | expRetire =>
    refine sequencerStep_bExpand_retire rfl rfl (valExhausted_iff.2 ?_)
    change ((s.ce.setEntry s.val 0).entry s.val).toNat ≤ ((s.cs.setEntry s.val 0).entry s.val).toNat
    rw [Table.entry_setEntry_same, Table.entry_setEntry_same]
  | expStay =>
    exact sequencerStep_of_first_byte (u := placeOperation .expStay s) rfl rfl (Table.entry_setEntry_same _ _ _)
      (Table.entry_setEntry_same _ _ _) (by decide : 0 < 5 - 4) rfl
  | expDemote idx =>
    refine (sequencerStep_of_first_byte (u := placeOperation (.expDemote idx) s) rfl rfl (Table.entry_setEntry_same _ _ _)
      (Table.entry_setEntry_same _ _ _) (by decide : 0 < 5 - 4) rfl).trans ?_
    exact if_neg (bne_iff_ne.1 hwf)
  | expDone => exact sequencerStep_bExpand_done rfl rfl

theorem placeOperation_host (i : Instr) (s : State) : (placeOperation i s).host = s.host := by
  cases i <;> rfl

theorem placeTurn_eq_wait {i : Instr} (h : i ≠ .start) (ctrl : Byte) : placeTurn i ctrl = .wait := by
  cases i
  case start => exact absurd rfl h
  all_goals rfl

/-- Settles O37: START runs as the command of the CTRL write, every other operation in the sequencer's turn. -/
theorem withFetchWordRunsTheOperation : Obligations.WithFetchWordRunsTheOperation := by
  intro s nbits w i h
  have hplaced : s.withFetchWord nbits w
      = { placeOperation i s with host := placeTurn i (BitVec.ofNat 8 w) :: s.host } := by
    rw [State.withFetchWord, h]
  have hback : { placeOperation i s with host := s.host } = placeOperation i s := by
    rw [← placeOperation_host i s]
  rw [hplaced]
  obtain hctrl | ⟨d, hd⟩ := decodeTableWord_eq_some h
  · obtain rfl := eq_start_of_decodeCtrl hctrl
    obtain ⟨-, -, hcommand⟩ := stepRunsTheDecodedOperation
    exact hcommand _ _ _ _ rfl hctrl
  · have hstart : i ≠ .start := by
      rintro rfl
      exact absurd (decodeDispatch_phase hd) nofun
    rw [step_of_wait (rest := s.host) (congrArg (· :: s.host) (placeTurn_eq_wait hstart _))]
    exact (congrArg sequencerStep hback).trans (sequencerStep_placeOperation (decodeDispatch_wellFormed hd) hstart s)

end Sys2Proof.Machine
